-- ==== Sys2Proof/Word.lean ====
section
/-! DEFINITION. The two word types of the block: a byte (00 R8) and the 16-bit word of commands,
registers and pulse durations (30 R70, 10 R22, R34). -/

namespace Sys2Proof

/-- An unsigned 8-bit value (00 R8). -/
abbrev Byte := BitVec 8

/-- An unsigned 16-bit value: a command word, a register, the accumulator or a buffer element. -/
abbrev Word := BitVec 16

end Sys2Proof
end

