-- ==== Sys2Proof/Syntax.lean ====
section
/-! DEFINITION. The commands of the block, one constructor per row of spec/opcode_table.json (30 R73). -/

namespace Sys2Proof

/-- A command. The only operand is the unsigned DATA byte of the three emit commands, used as is (30 R72); its type
admits exactly the 256 bytes, so every `Instr` is well-formed. -/
inductive Instr where
  /-- RESET_FRAME: start a new frame (42 R161). -/
  | resetFrame
  /-- EMIT_BYTE_CRC d: emit a byte and fold it into the checksum (41 R141). -/
  | emitByteCrc (d : Byte)
  /-- EMIT_BYTE_NOCRC d: emit a byte excluded from the checksum (41 R142). -/
  | emitByteNocrc (d : Byte)
  /-- EMIT_BYTE_RAW d: emit a byte with no checksum, stuffing or escaping (41 R143). -/
  | emitByteRaw (d : Byte)
  /-- EMIT_CHECKSUM: emit the two checksum bytes (42 R162). -/
  | emitChecksum
  /-- FINISH: close the frame and hand it off (42 R163). -/
  | finish
deriving DecidableEq, Repr

end Sys2Proof
end

