-- ==== Sys2Proof/WellFormed.lean ====
section
/-! DEFINITION. What a legal command word is, read off the opcode table's match and mask columns (30 R73), and the
checks the assembler makes on a line (30 R79, R80). An `Instr` needs no check: its one operand is a `Byte`. -/

namespace Sys2Proof

/-- One row of the opcode map: a word is the row's command exactly when `w & mask = pattern` (30 R73). -/
structure TableRow where
  mnemonic : String
  pattern  : Word
  mask     : Word
deriving DecidableEq, Repr

/-- The six rows of 30 R73 and spec/opcode_table.json that stand for a command. -/
def opcodeTable : List TableRow :=
  [ ⟨"RESET_FRAME", 0x1000#16, 0xFFFF#16⟩,
    ⟨"EMIT_BYTE_CRC", 0x2000#16, 0xFF00#16⟩,
    ⟨"EMIT_BYTE_NOCRC", 0x3000#16, 0xFF00#16⟩,
    ⟨"EMIT_BYTE_RAW", 0x4000#16, 0xFF00#16⟩,
    ⟨"EMIT_CHECKSUM", 0x5000#16, 0xFFFF#16⟩,
    ⟨"FINISH", 0x6000#16, 0xFFFF#16⟩ ]

/-- `w` is a word of this row. -/
def TableRow.holds (r : TableRow) (w : Word) : Bool := w &&& r.mask == r.pattern

/-- `w` is a word of some row of the opcode map: one of the legal words of 30 R74. -/
def wellFormedWord (w : Word) : Bool := opcodeTable.any (·.holds w)

/-- The operations an assembler line can name: the six mnemonics, `.word` (30 R79) and the four pseudo-instructions
(30 R80). -/
inductive AsmOp where
  | resetFrame
  | emitByteCrc
  | emitByteNocrc
  | emitByteRaw
  | emitChecksum
  | finish
  /-- `.word 0xNNNN`: an arbitrary 16-bit word. -/
  | word
  /-- `FRAME_END`: EMIT_CHECKSUM then FINISH. -/
  | frameEnd
  | emitSeqCrc
  | emitSeqNocrc
  | emitSeqRaw
deriving DecidableEq, Repr

/-- One line of assembler source: an operation and its operands as written. -/
structure AsmLine where
  op       : AsmOp
  operands : List Nat
deriving DecidableEq, Repr

/-- The assembler's checks: a byte operand lies in 0..255, the operand-less commands take none, `.word` takes one
16-bit value, and a sequence lists at least one byte (30 R79, R80). -/
def AsmLine.wellFormed (l : AsmLine) : Bool :=
  match l.op with
  | .resetFrame | .emitChecksum | .finish | .frameEnd => l.operands == []
  | .emitByteCrc | .emitByteNocrc | .emitByteRaw => l.operands.length == 1 && l.operands.all (· < 256)
  | .word => l.operands.length == 1 && l.operands.all (· < 65536)
  | .emitSeqCrc | .emitSeqNocrc | .emitSeqRaw => l.operands != [] && l.operands.all (· < 256)

end Sys2Proof
end

