-- ==== Sys2Proof/Decode.lean ====
section
/-! DEFINITION. Decoding a command word (30 R71 to R77), the encoder written from the same table (30 R73), the
assembler's expansion of a line (30 R79, R80), and the host's view of the decoder. -/

namespace Sys2Proof

/-- Why a word is no command. Each of them raises ILLEGAL_COMMAND (30 R74). -/
inductive DecodeError where
  /-- OP is 0x0 or 0x7 to 0xF (30 R75). -/
  | reservedOpcode
  /-- RSV is not 0 (30 R76). -/
  | reservedField
  /-- DATA is not 0 on RESET_FRAME, EMIT_CHECKSUM or FINISH (30 R77). -/
  | operandNotZero
deriving DecidableEq, Repr

/-- The OP field, `w[15:12]` (30 R71). -/
def opField (w : Word) : BitVec 4 := w.extractLsb' 12 4

/-- The RSV field, `w[11:8]` (30 R71). -/
def rsvField (w : Word) : BitVec 4 := w.extractLsb' 8 4

/-- The DATA field, `w[7:0]` (30 R71, R72). -/
def dataField (w : Word) : Byte := w.extractLsb' 0 8

/-- A command that takes no operand: its DATA field must be 0 (30 R77). -/
def withoutOperand (i : Instr) (d : Byte) : Except DecodeError Instr :=
  if d = 0 then .ok i else .error .operandNotZero

/-- The opcode map of 30 R73: what an opcode stands for, given the DATA byte. -/
def opcodeMeaning (op : BitVec 4) (d : Byte) : Except DecodeError Instr :=
  if op = 0x1 then withoutOperand .resetFrame d
  else if op = 0x2 then .ok (.emitByteCrc d)
  else if op = 0x3 then .ok (.emitByteNocrc d)
  else if op = 0x4 then .ok (.emitByteRaw d)
  else if op = 0x5 then withoutOperand .emitChecksum d
  else if op = 0x6 then withoutOperand .finish d
  else .error .reservedOpcode

/-- The opcodes of 30 R73 that stand for a command: 0x1 to 0x6 (30 R75 reserves the others). -/
def opcodeAssigned (op : BitVec 4) : Bool := 1 ≤ op.toNat && op.toNat ≤ 6

/-- `Decode` of 30 R74, its checks in the rule's order: opcode, RSV, DATA. -/
def decode (w : Word) : Except DecodeError Instr :=
  if opcodeAssigned (opField w) = false then .error .reservedOpcode
  else if rsvField w ≠ 0 then .error .reservedField
  else opcodeMeaning (opField w) (dataField w)

/-- The word of a command from its opcode and DATA byte, RSV being 0 (30 R71). -/
def commandWord (op : BitVec 4) (d : Byte) : Word := op ++ 0#4 ++ d

/-- The word of each command (30 R73). -/
def encode : Instr → Word
  | .resetFrame => commandWord 0x1 0
  | .emitByteCrc d => commandWord 0x2 d
  | .emitByteNocrc d => commandWord 0x3 d
  | .emitByteRaw d => commandWord 0x4 d
  | .emitChecksum => commandWord 0x5 0
  | .finish => commandWord 0x6 0

/-- The first operand of a line as a byte. -/
def AsmLine.byte (l : AsmLine) : Byte := BitVec.ofNat 8 (l.operands.headD 0)

/-- The operands of a line as bytes. -/
def AsmLine.bytes (l : AsmLine) : List Byte := l.operands.map (BitVec.ofNat 8)

/-- What a line assembles to; `none` where the assembler rejects it (30 R79; pseudo-instructions, 30 R80). -/
def assemble (l : AsmLine) : Option (List Word) :=
  if l.wellFormed = false then none
  else some <|
    match l.op with
    | .resetFrame => [encode .resetFrame]
    | .emitByteCrc => [encode (.emitByteCrc l.byte)]
    | .emitByteNocrc => [encode (.emitByteNocrc l.byte)]
    | .emitByteRaw => [encode (.emitByteRaw l.byte)]
    | .emitChecksum => [encode .emitChecksum]
    | .finish => [encode .finish]
    | .word => [BitVec.ofNat 16 (l.operands.headD 0)]
    | .frameEnd => [encode .emitChecksum, encode .finish]
    | .emitSeqCrc => l.bytes.map (encode ∘ .emitByteCrc)
    | .emitSeqNocrc => l.bytes.map (encode ∘ .emitByteNocrc)
    | .emitSeqRaw => l.bytes.map (encode ∘ .emitByteRaw)

/-- The command the decoder reads from the word whose bits are `w`. A command is one 16-bit word and is delivered whole
(30 R70, R82): no byte order arises, and bits at or above `nbits` are 0 (log 14). -/
def decodeTableWord (nbits w : Nat) : Option Instr :=
  if w < 2 ^ nbits ∧ w < 65536 then (decode (BitVec.ofNat 16 w)).toOption else none

end Sys2Proof
end

