-- ==== Sys2Proof/Config.lean ====
section
/-! DEFINITION. What is fixed when the block is built (00 R3, R7; 10 R20), and the values the spec leaves free. -/

namespace Sys2Proof

/-- TRANSPORT: the transport configuration, fixed for the block's lifetime (00 R3). -/
inductive Transport where
  /-- The bit-stuffing encoder wrapping the pulse-duration encoder. -/
  | pulseStuffed
  /-- The bit-stuffing encoder wrapping the software-timed encoder. -/
  | swtimedStuffed
  /-- The escaped-byte transport. -/
  | escaped
deriving DecidableEq, Repr, Inhabited

/-- CRC_ORDER: the order of the two checksum bytes (00 R7, 20 R55). -/
inductive CrcOrder where
  | hiFirst
  | loFirst
deriving DecidableEq, Repr, Inhabited

/-- The parameters of one build of the block (00 R7).

Each range of R7's constraint column is the range of the field's type, so every `Build` is legal: `capPred` and
`halfPeriodPred` hold CAP - 1 and HALF_PERIOD - 1 (DESIGN CHOICE, log 2; `Build.cap` and `Build.halfPeriod` are the
parameters themselves), and the durations stay below 65535 because DUR + 1 <= 65535. A field that R7 does not mark OPEN
has R7's value as its default: a build that names only TRANSPORT, CAP, CRC_TABLE and HALF_PERIOD is a default build. -/
structure Build where
  /-- TRANSPORT. -/
  transport : Transport
  /-- CAP - 1, with 1 <= CAP <= 65535. -/
  capPred : Fin 65535
  /-- CRC_TABLE: 256 entries of 16 bits, of which nothing is assumed (91 N1). -/
  crcTable : Vector Word 256
  /-- HALF_PERIOD - 1, with 1 <= HALF_PERIOD <= 65535. -/
  halfPeriodPred : Fin 65535
  /-- DUR_SHORT, the duration of a logical 0. -/
  durShort : Fin 65535 := 31
  /-- DUR_LONG, the duration of a logical 1. -/
  durLong : Fin 65535 := 47
  /-- CRC_ORDER. -/
  crcOrder : CrcOrder := .hiFirst
  /-- ESC_NOCRC_ESCAPES. -/
  escNocrcEscapes : Bool := false
deriving DecidableEq, Repr

/-- CAP: the capacity of the output buffer in elements (00 R7). -/
def Build.cap (b : Build) : Nat := b.capPred.val + 1

/-- HALF_PERIOD: the time budget of one pulse train in duration units (00 R7). -/
def Build.halfPeriod (b : Build) : Nat := b.halfPeriodPred.val + 1

/-- ELEM_WIDTH: the width of a buffer element in bits, derived from TRANSPORT (00 R7, 10 R22). -/
def Build.elemWidth (b : Build) : Nat :=
  match b.transport with
  | .pulseStuffed => 16
  | .swtimedStuffed => 8
  | .escaped => 8

/-- OPEN (00 R7): the TRANSPORT of the block that `State.reset` describes. R7 calls an OPEN value "an argument the model
takes", so none is chosen here or in the next three (log 1). -/
opaque Config.transport : Transport

/-- OPEN (00 R7): its CAP - 1. -/
opaque Config.capPred : Fin 65535

/-- OPEN (00 R7): its CRC_TABLE. -/
opaque Config.crcTable : Vector Word 256

/-- OPEN (00 R7): its HALF_PERIOD - 1. -/
opaque Config.halfPeriodPred : Fin 65535

/-- The build of the block that `State.reset` describes: the four OPEN parameters, and R7's defaults for DUR_SHORT,
DUR_LONG, CRC_ORDER and ESC_NOCRC_ESCAPES (00 R7; log 1). `State.powerOn b` is the block of any other build. -/
def Config.build : Build where
  transport := Config.transport
  capPred := Config.capPred
  crcTable := Config.crcTable
  halfPeriodPred := Config.halfPeriodPred

/-- FREE VALUE: what the `n`-th read of the DATA port outside the handoff returns ("an arbitrary value (a draw) and no
claim may depend on it", 20 R59; log 8). -/
opaque Config.freeElement : Nat → Word

end Sys2Proof
end

