-- ==== Sys2Proof/Machine/State.lean ====
section
/-! DEFINITION. The architectural state of the block (10), the reasons a run of the model stops, and power-on reset (10 R40). -/

namespace Sys2Proof.Machine

/-- The frame sequencer's phase (10 R31). The codes 5, 6 and 7 are never held, so they have no constructor. -/
inductive Phase where
  /-- IDLE (0): no frame has been started since power-on reset. -/
  | idle
  /-- PAYLOAD (1): a frame is open. -/
  | payload
  /-- TRAILER (2): the checksum has been emitted. -/
  | trailer
  /-- DONE (3): the frame is finished and handed off. -/
  | done
  /-- FAULTED (4): quiescent until power-on reset. -/
  | faulted
deriving DecidableEq, Repr

/-- The fault code held in `cause` (10 R32, 60 R200). The codes 6 and 7 are never recorded. These are the block's own
faults: raising one is a NEXT state of the model (60 R205). -/
inductive Cause where
  /-- NONE (0). -/
  | noFault
  /-- ILLEGAL_COMMAND (1), raised by Decode. -/
  | illegalCommand
  /-- SEQUENCE_ERROR (2), raised by the phase check. -/
  | sequenceError
  /-- BUFFER_OVERFLOW (3), raised by Append. -/
  | bufferOverflow
  /-- PERIOD_EXHAUSTED (4), raised by PulseEmitBit. -/
  | periodExhausted
  /-- FINISH_EMPTY (5), raised by PulseFinish. -/
  | finishEmpty
deriving DecidableEq, Repr

/-- One access of the host or the transmission path to the block (60 R212). -/
inductive Access where
  /-- A write of `v` to the register at `offset` (20 R63); at offset 0 it delivers a command word (30 R82). -/
  | write (offset : BitVec 4) (v : Word)
  /-- A read of the register at `offset` (20 R63). -/
  | readRegister (offset : BitVec 4)
  /-- A read of element `i` on the DATA port (20 R59). -/
  | readData (i : Nat)
  /-- Power-on reset (70 R230). -/
  | powerOnReset
deriving DecidableEq, Repr

/-- One element of the output buffer: its index and its value. A cell is a whole element, since the block never splits
one into bytes (20 R50, R56; log 5); in a build with 8-bit elements the high byte is 0. -/
abbrev Cell := Nat × Word

/-- The output buffer as the elements that hold a value, their indices strictly rising. An index that is not listed
holds no value (10 R40; log 4). -/
abbrev Memory := List Cell

/-- The state of the block (10 R21, R30), its build (10 R20), and the accesses it has yet to take. -/
structure State where
  /-- The build parameters: constant, never written by a step (10 R20; log 1). -/
  build : Build
  /-- `phase` (10 R31). -/
  phase : Phase
  /-- `cause` (10 R32). -/
  cause : Cause
  /-- `fault_cmd` (10 R33). -/
  faultCmd : Word
  /-- `cursor`: the number of elements written in this frame (10 R23). -/
  cursor : Word
  /-- `buf`: the output buffer (10 R22, 20 R50). -/
  buf : Memory
  /-- `crc_acc`: the checksum accumulator (10 R24). -/
  crcAcc : Word
  /-- `ones`: consecutive stuffed 1 bits (10 R25). -/
  ones : BitVec 3
  /-- `rem`: remaining duration units (10 R26). -/
  rem : Word
  /-- `pk_byte`: physical bits packed so far (10 R27). -/
  pkByte : Byte
  /-- `pk_count`: how many of them (10 R28). -/
  pkCount : BitVec 3
  /-- The model's own: the accesses not yet taken, oldest first (30 R82: a write is held until the block is ready; log 9). -/
  inbox : List Access
  /-- The model's own: what the last read access gave back (log 10). -/
  reply : Word
  /-- The model's own: how many free values DATA reads have taken (log 8). -/
  draws : Nat
deriving DecidableEq, Repr

/-- The reasons a run of the MODEL stops. The block's own faults are not here: they are next states (60 R205). Both
reasons are safe: the spec shows that no run from power-on reset meets them. -/
inductive Fault where
  /-- Raised by `pulseFinish` and by a DATA read of the handed-off frame when the element holds no value: "A model gives
  these fields no value (an unwritten cell) and faults if one is ever read" (10 R40). Safe. -/
  | unwrittenElement
  /-- Raised by `pulseFinish` when the last duration plus `rem` would not fit in 16 bits. The rule says it always fits
  (40 R105) and gives no result otherwise (00 R8). Safe. -/
  | durationDoesNotFit
deriving DecidableEq, Repr

/-- The reasons an instruction is refused. -/
inductive Refusal where
  /-- Raised by `exec` for an instruction without a meaning yet; no arm of this model raises it. Safe. -/
  | notModelled (mnemonic : String)
deriving DecidableEq, Repr

/-- The block of build `b` right after power-on reset (10 R40, 70 R230). `crcAcc`, `ones`, `rem`, `pkByte` and `pkCount`
are unspecified there: the model names 0 (DESIGN CHOICE, unsafe, log 3). No element of `buf` holds a value (log 4). The
last three fields are the model's own (DESIGN CHOICE, log 8, 9, 10). -/
def State.powerOn (b : Build) : State where
  build := b
  phase := .idle
  cause := .noFault
  faultCmd := 0
  cursor := 0
  buf := []
  crcAcc := 0
  ones := 0
  rem := 0
  pkByte := 0
  pkCount := 0
  inbox := []
  reply := 0
  draws := 0

/-- The machine right after reset: the block of `Config.build`, whose OPEN parameters have no value (log 1). -/
def State.reset : State := State.powerOn Config.build

end Sys2Proof.Machine
end

