-- ==== Sys2Proof/Machine/Operands.lean ====
section
/-! DEFINITION. Operand forms: the order of the bits of a byte and of the bytes of the checksum, and the fixed values of
00 R7. -/

namespace Sys2Proof.Machine

/-- GAP: the units charged per pulse on top of its duration (00 R7). -/
def gap : Nat := 1

/-- STUFF_LIMIT: the consecutive stuffed 1 bits that trigger a stuffed 0 (00 R7). -/
def stuffLimit : Nat := 5

/-- ESC_FLAG (00 R7). -/
def escFlag : Byte := 0x7E

/-- ESC_ESC (00 R7). -/
def escEsc : Byte := 0x7D

/-- ESC_FLAG_SEQ (00 R7). -/
def escFlagSeq : Byte × Byte := (0x7D, 0x5E)

/-- ESC_ESC_SEQ (00 R7). -/
def escEscSeq : Byte × Byte := (0x7D, 0x5D)

/-- The bits of a logical byte in the order they are emitted: bit 7 down to bit 0 (20 R53). -/
def msbFirst (d : Byte) : List Bool :=
  [d.getLsbD 7, d.getLsbD 6, d.getLsbD 5, d.getLsbD 4, d.getLsbD 3, d.getLsbD 2, d.getLsbD 1, d.getLsbD 0]

/-- A byte as a buffer element, zero-extended to the width of a cell. -/
def byteElement (d : Byte) : Word := d.setWidth 16

/-- `CrcHi()`: `c[15:8]` (40 R102). -/
def crcHi (c : Word) : Byte := c.extractLsb' 8 8

/-- `CrcLo()`: `c[7:0]` (40 R102). -/
def crcLo (c : Word) : Byte := c.extractLsb' 0 8

/-- The two checksum bytes in the order they are emitted (20 R55, 42 R162). -/
def checksumBytes (o : CrcOrder) (c : Word) : Byte × Byte :=
  match o with
  | .hiFirst => (crcHi c, crcLo c)
  | .loFirst => (crcLo c, crcHi c)

/-- The pulse duration of a logical bit: DUR_LONG for a 1, DUR_SHORT for a 0 (40 R104). -/
def pulseDuration (b : Build) (v : Bool) : Nat :=
  if v then b.durLong.val else b.durShort.val

/-- The physical bits of one logical bit, low as `false` and high as `true` (00 R10): `L H` for a 0, `L L H` for a 1
(40 R108). -/
def physicalBits (v : Bool) : List Bool :=
  if v then [false, false, true] else [false, true]

end Sys2Proof.Machine
end

