-- ==== Sys2Proof/Machine/Flags.lean ====
section
/-! DEFINITION. The codes of phase, cause and transport, and the register views of the state: STATUS with its flags,
CONFIG, LENGTH and FAULT_CMD (10 R31 to R39), and the register map (20 R63). -/

namespace Sys2Proof.Machine

/-- The encoding of `phase` (10 R31). -/
def Phase.code (p : Phase) : BitVec 3 :=
  match p with
  | .idle => 0
  | .payload => 1
  | .trailer => 2
  | .done => 3
  | .faulted => 4

/-- The encoding of `cause` (60 R200). -/
def Cause.code (c : Cause) : BitVec 3 :=
  match c with
  | .noFault => 0
  | .illegalCommand => 1
  | .sequenceError => 2
  | .bufferOverflow => 3
  | .periodExhausted => 4
  | .finishEmpty => 5

/-- CONFIG.TRANSPORT (10 R34). -/
def transportCode (t : Transport) : BitVec 2 :=
  match t with
  | .pulseStuffed => 0
  | .swtimedStuffed => 1
  | .escaped => 2

/-- STATUS.VALID: 1 exactly when `phase = DONE` (10 R35). -/
def State.validFlag (s : State) : Bool := s.phase == .done

/-- STATUS.FAULT: 1 exactly when `phase = FAULTED` (10 R35). -/
def State.faultFlag (s : State) : Bool := s.phase == .faulted

/-- STATUS: PHASE [2:0], VALID [3], CAUSE [6:4], FAULT [7], reserved bits 0 (10 R35). -/
def State.status (s : State) : Word :=
  0#8 ++ BitVec.ofBool s.faultFlag ++ s.cause.code ++ BitVec.ofBool s.validFlag ++ s.phase.code

/-- CONFIG: TRANSPORT [1:0], CRC_ORDER [2], ESC_NOCRC_ESCAPES [3], reserved bits 0; bit 3 reads 0 unless TRANSPORT is
ESCAPED (10 R34). -/
def configWord (b : Build) : Word :=
  0#12 ++ BitVec.ofBool (b.transport == .escaped && b.escNocrcEscapes) ++ BitVec.ofBool (b.crcOrder == .loFirst) ++
    transportCode b.transport

/-- LENGTH reads `cursor` (10 R36). -/
def State.lengthReg (s : State) : Word := s.cursor

/-- What a read of the register at `offset` returns (20 R63): STATUS, LENGTH, CONFIG, FAULT_CMD at 1 to 4; CMD and the
reserved offsets read 0. -/
def State.register (s : State) (offset : BitVec 4) : Word :=
  if offset = 1 then s.status
  else if offset = 2 then s.lengthReg
  else if offset = 3 then configWord s.build
  else if offset = 4 then s.faultCmd
  else 0

end Sys2Proof.Machine
end

