-- ==== Sys2Proof/Machine/Ops.lean ====
section
/-! DEFINITION. The shared operations: reading and writing the output buffer, sequencing micro-operations, fault entry and
its only way back (power-on reset), the phase check, and the frame every command runs in (42 R160). -/

namespace Sys2Proof.Machine

/-- Element `i` of the buffer, or nothing where no value has been written (10 R40). -/
def Memory.read : Memory → Nat → Option Word
  | [], _ => none
  | (a, v) :: m, i => if i = a then some v else Memory.read m i

/-- `buf[i] <- v` (00 R9), keeping the indices strictly rising. -/
def Memory.write : Memory → Nat → Word → Memory
  | [], i, v => [(i, v)]
  | (a, x) :: m, i, v =>
    if i < a then (i, v) :: (a, x) :: m
    else if i = a then (i, v) :: m
    else (a, x) :: Memory.write m i v

/-- The canonical form of the buffer: indices strictly rising. Every listed cell holds a value and an unlisted one holds
none, so no listed cell equals what an unlisted one reads as. -/
def Memory.wf : Memory → Bool
  | [] => true
  | [_] => true
  | (a, _) :: (b, x) :: m => decide (a < b) && Memory.wf ((b, x) :: m)

/-- How a run of micro-operations ends: it completes; it raises a fault of the block, with the writes made so far kept
(60 R203); or the model stops. -/
inductive Micro where
  | completed (s : State)
  | raised (c : Cause) (s : State)
  | stopped (f : Fault)
deriving DecidableEq, Repr

/-- `m` and then `k`: a fault in `m` ends the command (00 R9). -/
def Micro.andThen (m : Micro) (k : State → Micro) : Micro :=
  match m with
  | .completed s => k s
  | .raised c s => .raised c s
  | .stopped f => .stopped f

/-- `op` once for each of `vs`, in order (the `for` loops of 40 R112). -/
def forEach {α : Type} (op : α → State → Micro) : List α → State → Micro
  | [], s => .completed s
  | v :: vs, s => (op v s).andThen (forEach op vs)

/-- `Append(v)`: write one element and advance the cursor (40 R100). The rule tests `cursor = CAP`; `CAP <= cursor` is the
same in every state, since `cursor` never exceeds CAP (10 R23; DEDUCED, log 6). -/
def append (v : Word) (s : State) : Micro :=
  if s.build.cap ≤ s.cursor.toNat then .raised .bufferOverflow s
  else .completed { s with buf := Memory.write s.buf s.cursor.toNat v, cursor := s.cursor + 1 }

/-- Fault entry: cause, word, FAULTED, and no other field (60 R205). -/
def faultEntry (c : Cause) (w : Word) (s : State) : State :=
  { s with cause := c, faultCmd := w, phase := .faulted }

/-- Power-on reset, the only way out of FAULTED (60 R206, 70 R230): every field of the block takes its power-on value; the
build stays (10 R20), and so do the accesses still waiting and the model's own fields. -/
def powerOnReset (s : State) : State :=
  { State.powerOn s.build with inbox := s.inbox, reply := s.reply, draws := s.draws }

/-- `Legal(op, phase)`: the table of 42 R160. -/
def legal (i : Instr) (p : Phase) : Bool :=
  match i, p with
  | .resetFrame, .idle => true
  | .resetFrame, .payload => true
  | .resetFrame, .trailer => true
  | .resetFrame, .done => true
  | .emitByteCrc _, .payload => true
  | .emitByteNocrc _, .payload => true
  | .emitByteNocrc _, .trailer => true
  | .emitByteRaw _, .payload => true
  | .emitByteRaw _, .trailer => true
  | .emitChecksum, .payload => true
  | .finish, .trailer => true
  | _, _ => false

/-- The end of the command whose word is `w`: a raised fault performs fault entry (60 R205). -/
def settle (w : Word) (m : Micro) : Host.Outcome State Fault Refusal :=
  match m with
  | .completed s => .next s
  | .raised c s => .next (faultEntry c w s)
  | .stopped f => .fault f

/-- The part of `Step` after decoding (42 R160): nothing in FAULTED, SEQUENCE_ERROR where the phase is wrong, else the
command's own micro-operations `body`. A decoded command has exactly one word (30 R74), so the word recorded by fault entry
is `encode i` (DEDUCED, log 11). -/
def runCommand (i : Instr) (body : State → Micro) (s : State) : Host.Outcome State Fault Refusal :=
  if s.phase = .faulted then .next s
  else if legal i s.phase = false then .next (faultEntry .sequenceError (encode i) s)
  else settle (encode i) (body s)

end Sys2Proof.Machine
end

