-- ==== Sys2Proof/Machine/Datapath.lean ====
section
/-! DEFINITION. The datapath micro-operations of 40_datapath.md, in its order, and NoCrcByte (41 R142). -/

namespace Sys2Proof.Machine

/-- The accumulator after folding in `b`, with the build's table (40 R101). -/
def crcStep (build : Build) (acc : Word) (b : Byte) : Word :=
  (acc <<< 8) ^^^ build.crcTable[(crcHi acc ^^^ b).toNat]'((crcHi acc ^^^ b).isLt)

/-- `CrcUpdate(b)` (40 R101). -/
def crcUpdate (b : Byte) (s : State) : State :=
  { s with crcAcc := crcStep s.build s.crcAcc b }

/-- `PulseEmitBit(v)`: append the duration, then charge it and the gap (40 R104). -/
def pulseEmitBit (v : Bool) (s : State) : Micro :=
  (append (BitVec.ofNat 16 (pulseDuration s.build v)) s).andThen fun s1 =>
    if s1.rem.toNat ≤ pulseDuration s.build v + gap then .raised .periodExhausted s1
    else .completed { s1 with rem := BitVec.ofNat 16 (s1.rem.toNat - (pulseDuration s.build v + gap)) }

/-- `PulseFinish()`: the last pulse absorbs the unused time (40 R105). The sum always fits (R105), so the model stops where
it does not (00 R8; log 7). -/
def pulseFinish (s : State) : Micro :=
  if s.cursor = 0 then .raised .finishEmpty s
  else
    match Memory.read s.buf (s.cursor.toNat - 1) with
    | none => .stopped .unwrittenElement
    | some v =>
      if v.toNat + s.rem.toNat < 65536 then
        .completed { s with buf := Memory.write s.buf (s.cursor.toNat - 1) (v + s.rem), rem := 0 }
      else .stopped .durationDoesNotFit

/-- `SwPack(p)`: pack one physical bit, least significant first; the 8th flushes the byte (40 R107). On an overflow the
packed bit stays and the packer is not reset (60 R203). -/
def swPack (p : Bool) (s : State) : Micro :=
  let s1 := { s with pkByte := s.pkByte ||| ((BitVec.ofBool p).setWidth 8 <<< s.pkCount.toNat) }
  if s1.pkCount = 7 then
    (append (byteElement s1.pkByte) s1).andThen fun s2 => .completed { s2 with pkByte := 0, pkCount := 0 }
  else .completed { s1 with pkCount := s1.pkCount + 1 }

/-- `SwEmitBit(v)`: `L H` for a 0, `L L H` for a 1 (40 R108). -/
def swEmitBit (v : Bool) (s : State) : Micro := forEach swPack (physicalBits v) s

/-- The loop of `SwFinish`, at most `n` times round. -/
def swPad : Nat → State → Micro
  | 0, s => .completed s
  | n + 1, s => if s.pkCount = 0 then .completed s else (swPack true s).andThen (swPad n)

/-- `SwFinish()`: pad the byte in progress with highs; the loop runs at most 7 times (40 R109). -/
def swFinish (s : State) : Micro := swPad 8 s

/-- `PbeEmitBit(v)` (40 R110); never called in ESCAPED, where the rule has no branch and so does nothing. -/
def pbeEmitBit (v : Bool) (s : State) : Micro :=
  match s.build.transport with
  | .pulseStuffed => pulseEmitBit v s
  | .swtimedStuffed => swEmitBit v s
  | .escaped => .completed s

/-- `PbeFinish()` (40 R110). -/
def pbeFinish (s : State) : Micro :=
  match s.build.transport with
  | .pulseStuffed => pulseFinish s
  | .swtimedStuffed => swFinish s
  | .escaped => .completed s

/-- `StuffedBit(b)`: emit one bit under the 5-ones rule (40 R111). -/
def stuffedBit (b : Bool) (s : State) : Micro :=
  (pbeEmitBit b s).andThen fun s1 =>
    if b then
      if s1.ones.toNat = stuffLimit - 1 then
        (pbeEmitBit false s1).andThen fun s2 => .completed { s2 with ones := 0 }
      else .completed { s1 with ones := s1.ones + 1 }
    else .completed { s1 with ones := 0 }

/-- `StuffByte(d)`: bit 7 down to bit 0 through StuffedBit (40 R112). -/
def stuffByte (d : Byte) (s : State) : Micro := forEach stuffedBit (msbFirst d) s

/-- `RawByte(d)`: bit 7 down to bit 0 straight to the encoder (40 R112). -/
def rawByte (d : Byte) (s : State) : Micro := forEach pbeEmitBit (msbFirst d) s

/-- Append one byte as an element. -/
def appendByte (d : Byte) (s : State) : Micro := append (byteElement d) s

/-- The bytes `EscAppend(b)` appends: the substitution of a reserved value, or the byte itself (40 R114). -/
def escapeBytes (b : Byte) : List Byte :=
  if b = escFlag then [escFlagSeq.1, escFlagSeq.2]
  else if b = escEsc then [escEscSeq.1, escEscSeq.2]
  else [b]

/-- `EscAppend(b)` (40 R114). -/
def escAppend (b : Byte) (s : State) : Micro := forEach appendByte (escapeBytes b) s

/-- `NoCrcByte(d)` (41 R142). -/
def noCrcByte (d : Byte) (s : State) : Micro :=
  match s.build.transport with
  | .escaped => if s.build.escNocrcEscapes then escAppend d s else appendByte d s
  | .pulseStuffed => stuffByte d s
  | .swtimedStuffed => stuffByte d s

end Sys2Proof.Machine
end

