-- ==== Sys2Proof/Machine/Emit.lean ====
section
/-! DEFINITION. The emit commands (41_emit.md). -/

namespace Sys2Proof.Machine

/-- The micro-operations of EMIT_BYTE_CRC: the checksum first, then the transport (41 R141). -/
def emitByteCrcBody (d : Byte) (s : State) : Micro :=
  let s1 := crcUpdate d s
  match s1.build.transport with
  | .escaped => escAppend d s1
  | .pulseStuffed => stuffByte d s1
  | .swtimedStuffed => stuffByte d s1

/-- The micro-operations of EMIT_BYTE_RAW (41 R143). -/
def emitByteRawBody (d : Byte) (s : State) : Micro :=
  match s.build.transport with
  | .escaped => appendByte d s
  | .pulseStuffed => rawByte d s
  | .swtimedStuffed => rawByte d s

/-- `EMIT_BYTE_CRC d` (41 R141). -/
def execEmitByteCrc (d : Byte) (s : State) : Host.Outcome State Fault Refusal :=
  runCommand (.emitByteCrc d) (emitByteCrcBody d) s

/-- `EMIT_BYTE_NOCRC d` (41 R142). -/
def execEmitByteNocrc (d : Byte) (s : State) : Host.Outcome State Fault Refusal :=
  runCommand (.emitByteNocrc d) (noCrcByte d) s

/-- `EMIT_BYTE_RAW d` (41 R143). -/
def execEmitByteRaw (d : Byte) (s : State) : Host.Outcome State Fault Refusal :=
  runCommand (.emitByteRaw d) (emitByteRawBody d) s

end Sys2Proof.Machine
end

