-- ==== Sys2Proof/Machine/Sequencer.lean ====
section
/-! DEFINITION. The frame sequencer's commands (42_sequencer.md). -/

namespace Sys2Proof.Machine

/-- The frame-start values of 10 R21, each written only where the transport has the field, and phase PAYLOAD (42 R161). -/
def startFrame (s : State) : State :=
  { s with
    cursor := 0
    crcAcc := 0
    ones := if s.build.transport = .pulseStuffed ∨ s.build.transport = .swtimedStuffed then 0 else s.ones
    rem := if s.build.transport = .pulseStuffed then BitVec.ofNat 16 s.build.halfPeriod else s.rem
    pkByte := if s.build.transport = .swtimedStuffed then 0 else s.pkByte
    pkCount := if s.build.transport = .swtimedStuffed then 0 else s.pkCount
    phase := .payload }

/-- The micro-operations of EMIT_CHECKSUM: the accumulator sampled once, its two bytes in CRC_ORDER, phase TRAILER
(42 R162). -/
def emitChecksumBody (s : State) : Micro :=
  let c := checksumBytes s.build.crcOrder s.crcAcc
  (noCrcByte c.1 s).andThen fun s1 =>
    (noCrcByte c.2 s1).andThen fun s2 => .completed { s2 with phase := .trailer }

/-- The micro-operations of FINISH: PbeFinish unless ESCAPED, phase DONE (42 R163). -/
def finishBody (s : State) : Micro :=
  (if s.build.transport ≠ .escaped then pbeFinish s else .completed s).andThen fun s1 =>
    .completed { s1 with phase := .done }

/-- `RESET_FRAME` (42 R161). -/
def execResetFrame (s : State) : Host.Outcome State Fault Refusal :=
  runCommand .resetFrame (fun s => .completed (startFrame s)) s

/-- `EMIT_CHECKSUM` (42 R162). -/
def execEmitChecksum (s : State) : Host.Outcome State Fault Refusal :=
  runCommand .emitChecksum emitChecksumBody s

/-- `FINISH` (42 R163). -/
def execFinish (s : State) : Host.Outcome State Fault Refusal :=
  runCommand .finish finishBody s

end Sys2Proof.Machine
end

