-- ==== Sys2Proof/Machine/Dispatch.lean ====
section
/-! DEFINITION. The dispatch of a decoded command to its meaning (42 R160). -/

namespace Sys2Proof.Machine

/-- What a decoded command does in a state: its rule of 41 or 42, behind the phase check (42 R160). -/
def exec (i : Instr) (s : State) : Host.Outcome State Fault Refusal :=
  match i with
  | .resetFrame => Sys2Proof.Machine.execResetFrame s
  | .emitByteCrc d => Sys2Proof.Machine.execEmitByteCrc d s
  | .emitByteNocrc d => Sys2Proof.Machine.execEmitByteNocrc d s
  | .emitByteRaw d => Sys2Proof.Machine.execEmitByteRaw d s
  | .emitChecksum => Sys2Proof.Machine.execEmitChecksum s
  | .finish => Sys2Proof.Machine.execFinish s

end Sys2Proof.Machine
end

