-- ==== Sys2Proof/Machine/HostPort.lean ====
section
/-! DEFINITION. What the host and the transmission path can do to the block (60 R212): deliver a command word (30 R82),
read and write the registers (20 R63), read the DATA port (20 R59), apply power-on reset (70 R230). -/

namespace Sys2Proof.Machine

/-- `Step(w)`: one delivered command word, executed to completion (42 R160). In FAULTED it is ignored (60 R204); a word
that is no command raises ILLEGAL_COMMAND before anything else (60 R202). -/
def deliver (w : Word) (s : State) : Host.Outcome State Fault Refusal :=
  if s.phase = .faulted then .next s
  else
    match decode w with
    | .error _ => .next (faultEntry .illegalCommand w s)
    | .ok i => exec i s

/-- A read of the DATA port: `buf[i]` while `phase = DONE` and `i < cursor`, and otherwise a free value (20 R59; log 8). An
element of the handed-off frame that holds no value stops the model (10 R40; log 4). -/
def readDataPort (i : Nat) (s : State) : Host.Outcome State Fault Refusal :=
  if s.phase = .done ∧ i < s.cursor.toNat then
    match Memory.read s.buf i with
    | some v => .next { s with reply := v }
    | none => .fault .unwrittenElement
  else .next { s with reply := Config.freeElement s.draws, draws := s.draws + 1 }

/-- One access (60 R212). A write to any register but CMD is ignored (20 R63). -/
def accept (a : Access) (s : State) : Host.Outcome State Fault Refusal :=
  match a with
  | .write offset w => if offset = 0 then deliver w s else .next s
  | .readRegister offset => .next { s with reply := s.register offset }
  | .readData i => readDataPort i s
  | .powerOnReset => .next (powerOnReset s)

/-- The block takes the oldest access waiting; with none it holds its state (60 R213, 70 R230). -/
def takeAccess (s : State) : Host.Outcome State Fault Refusal :=
  match s.inbox with
  | [] => .next s
  | a :: rest => accept a { s with inbox := rest }

end Sys2Proof.Machine
end

