-- ==== Sys2Proof/Machine/Step.lean ====
section
/-! DEFINITION. One step of the machine, and how the next command word is put before it. -/

namespace Sys2Proof.Machine

/-- One step: one access of the host or the path, atomically (30 R82, 20 R58). -/
def step (s : State) : Host.Outcome State Fault Refusal := takeAccess s

/-- `s` with the word of an instruction delivered next: a write to CMD at the head of the accesses waiting (30 R82). A
program comes to run by such writes and in no other way (log 9). -/
def State.withFetchWord (s : State) (nbits w : Nat) : State :=
  { s with inbox := .write 0 (BitVec.ofNat 16 (w % 2 ^ nbits)) :: s.inbox }

end Sys2Proof.Machine
end

