-- ==== Sys2Proof/Machine/Assembler.lean ====
section
/-! DEFINITION. Reading a line of assembler source (30 R79, R80): comment, mnemonic or alias, byte literals. -/

namespace Sys2Proof.Machine

/-- The mnemonics, the source's method names as aliases (30 R79), and the pseudo-instructions (30 R80). -/
def asmNames : List (String × AsmOp) :=
  [ ("RESET_FRAME", .resetFrame), ("EMIT_BYTE_CRC", .emitByteCrc), ("EMIT_BYTE_NOCRC", .emitByteNocrc),
    ("EMIT_BYTE_RAW", .emitByteRaw), ("EMIT_CHECKSUM", .emitChecksum), ("FINISH", .finish),
    ("reset_frame", .resetFrame), ("emit_byte_with_checksum", .emitByteCrc),
    ("emit_byte_without_checksum", .emitByteNocrc),
    ("emit_raw_byte_without_checksum_or_stuffing", .emitByteRaw), ("finish", .finish),
    (".word", .word), ("FRAME_END", .frameEnd), ("EMIT_SEQ_CRC", .emitSeqCrc),
    ("EMIT_SEQ_NOCRC", .emitSeqNocrc), ("EMIT_SEQ_RAW", .emitSeqRaw) ]

/-- The value of a digit in a base up to 16. -/
def digitValue (base : Nat) (c : Char) : Option Nat :=
  let v :=
    if '0' ≤ c ∧ c ≤ '9' then c.toNat - '0'.toNat
    else if 'a' ≤ c ∧ c ≤ 'f' then c.toNat - 'a'.toNat + 10
    else if 'A' ≤ c ∧ c ≤ 'F' then c.toNat - 'A'.toNat + 10
    else base
  if v < base then some v else none

/-- The number its digits spell after `acc`. -/
def readDigits (base : Nat) : List Char → Nat → Option Nat
  | [], acc => some acc
  | c :: cs, acc =>
    match digitValue base c with
    | some v => readDigits base cs (acc * base + v)
    | none => none

/-- A C-style integer literal: hexadecimal, binary, octal with a leading 0, or decimal (30 R79; the octal form is
DEDUCED from "C-style", log 15). -/
def readLiteral : List Char → Option Nat
  | [] => none
  | ['0'] => some 0
  | '0' :: 'x' :: c :: cs => readDigits 16 (c :: cs) 0
  | '0' :: 'X' :: c :: cs => readDigits 16 (c :: cs) 0
  | '0' :: 'b' :: c :: cs => readDigits 2 (c :: cs) 0
  | '0' :: 'B' :: c :: cs => readDigits 2 (c :: cs) 0
  | '0' :: c :: cs => readDigits 8 (c :: cs) 0
  | c :: cs => readDigits 10 (c :: cs) 0

/-- White space between the parts of a line. -/
def isBlank (c : Char) : Bool := c == ' ' || c == '\t' || c == '\r' || c == '\n'

/-- The part of a line before its comment (30 R79). -/
def withoutComment (cs : List Char) : List Char := cs.takeWhile (· ≠ ';')

/-- The words of a line, a comma being a word of its own. `cur` holds the word being read, last character first. -/
def splitWords : List Char → List Char → List (List Char)
  | [], cur => if cur = [] then [] else [cur.reverse]
  | c :: cs, cur =>
    if isBlank c then (if cur = [] then [] else [cur.reverse]) ++ splitWords cs []
    else if c = ',' then (if cur = [] then [] else [cur.reverse]) ++ [','] :: splitWords cs []
    else splitWords cs (c :: cur)

/-- Operands separated by commas (30 R80). -/
def readOperands : List (List Char) → Option (List Nat)
  | [] => some []
  | [w] => (readLiteral w).map fun n => [n]
  | w :: sep :: ws =>
    if sep = [','] ∧ ws ≠ [] then
      match readLiteral w, readOperands ws with
      | some n, some ns => some (n :: ns)
      | _, _ => none
    else none

/-- One line of source: `some none` for a blank or comment line, `none` where the line cannot be read. -/
def readLine (line : List Char) : Option (Option AsmLine) :=
  match splitWords (withoutComment line) [] with
  | [] => some none
  | name :: ws =>
    match asmNames.find? (fun e => e.1.toList == name), readOperands ws with
    | some e, some ns => some (some ⟨e.2, ns⟩)
    | _, _ => none

/-- The words a line of source assembles to, or `none` where the assembler rejects it (30 R79). -/
def assembleLine (line : List Char) : Option (List Word) :=
  match readLine line with
  | none => none
  | some none => some []
  | some (some l) => assemble l

end Sys2Proof.Machine
end

