-- ==== Sys2Proof/Safety.lean ====
section
/-! DEFINITION. The terms claims are stated in: the invariant of a run (10 R42), runs of commands, what a frame hands off
(00 R14), the bit and byte streams of a frame (00 R10), and the sizing bounds (70 R238, R239). -/

namespace Sys2Proof.Machine

/-! ## The frame in the buffer -/

/-- The elements below `cursor`, in order. -/
def State.frame (s : State) : List Word := (List.range s.cursor.toNat).filterMap (Memory.read s.buf)

/-- What a frame shows once it is handed off: LENGTH and the elements below it (00 R14, 20 R60). -/
def State.observation (s : State) : Option (Word × List Word) :=
  if s.phase = .done then some (s.lengthReg, s.frame) else none

/-- The duration units a pulse train takes: each element and its gap (40 R106). -/
def pulseTotal (vs : List Word) : Nat := (vs.map fun v => v.toNat + gap).sum

/-! ## The invariant -/

/-- A frame is open or handed off without a fault: the phases the invariants of 10 R42 speak of. -/
abbrev State.inFrame (s : State) : Prop := s.phase = .payload ∨ s.phase = .trailer ∨ s.phase = .done

/-- `cursor` never exceeds CAP (10 R23); the buffer is in canonical form, holds no element outside `0..CAP-1` (20 R50) and
none wider than ELEM_WIDTH (10 R22); every element below `cursor` has been written (10 R40). -/
abbrev BufferOk (s : State) : Prop :=
  s.cursor.toNat ≤ s.build.cap ∧ Memory.wf s.buf = true ∧
    (∀ c ∈ s.buf, c.1 < s.build.cap ∧ c.2.toNat < 2 ^ s.build.elemWidth) ∧
    ∀ i < s.cursor.toNat, (Memory.read s.buf i).isSome = true

/-- `cause` is NONE exactly outside FAULTED, where `fault_cmd` is 0 (10 R32, R33); nothing is emitted in IDLE (10 R40). -/
abbrev SequencerOk (s : State) : Prop :=
  (s.cause = .noFault ↔ s.phase ≠ .faulted) ∧ (s.phase ≠ .faulted → s.faultCmd = 0) ∧ (s.phase = .idle → s.cursor = 0)

/-- `ones <= STUFF_LIMIT - 1` in the stuffed configurations (10 R25, R42). -/
abbrev OnesOk (s : State) : Prop :=
  s.build.transport ≠ .escaped → s.inFrame → s.ones.toNat ≤ stuffLimit - 1

/-- `pk_byte < 2^pk_count` in SWTIMED_STUFFED (10 R27, R42), and a finished frame ends on a byte boundary (40 R109). -/
abbrev PackerOk (s : State) : Prop :=
  s.build.transport = .swtimedStuffed → s.inFrame →
    s.pkByte.toNat < 2 ^ s.pkCount.toNat ∧ (s.phase = .done → s.pkCount = 0)

/-- The period invariant of PULSE_STUFFED, before and after FINISH (10 R42), and the 16 pulses EMIT_CHECKSUM has put in
the buffer before TRAILER (42 R163). -/
abbrev PeriodOk (s : State) : Prop :=
  s.build.transport = .pulseStuffed →
    (s.phase = .payload ∨ s.phase = .trailer →
      1 ≤ s.rem.toNat ∧ s.rem.toNat + pulseTotal s.frame = s.build.halfPeriod) ∧
    (s.phase = .trailer → 16 ≤ s.cursor.toNat) ∧
    (s.phase = .done → s.rem = 0 ∧ pulseTotal s.frame = s.build.halfPeriod)

/-- The invariants of 10 R42, with R23, R32, R33 and R40's remark that no unwritten element is ever read. A state that
meets them is SAFE: no step from it stops the model. -/
abbrev Inv (s : State) : Prop := BufferOk s ∧ SequencerOk s ∧ OnesOk s ∧ PackerOk s ∧ PeriodOk s

/-! ## Runs of commands -/

/-- The commands executed one after the other, in delivery order (10 R37). -/
def runCommands : List Instr → State → Host.Outcome State Fault Refusal
  | [], s => .next s
  | i :: is, s =>
    match exec i s with
    | .next t => runCommands is t
    | .fault f => .fault f
    | .refused r => .refused r

/-- The DATA bytes of the EMIT_BYTE_CRC commands, in order: what the checksum covers (40 R103). -/
def crcBytes : List Instr → List Byte
  | [] => []
  | .emitByteCrc d :: is => d :: crcBytes is
  | _ :: is => crcBytes is

/-- An emit command that is legal before the checksum. -/
def Instr.isEmit : Instr → Bool
  | .emitByteCrc _ => true
  | .emitByteNocrc _ => true
  | .emitByteRaw _ => true
  | _ => false

/-- An emit command that is legal after the checksum. -/
def Instr.isTrailerEmit : Instr → Bool
  | .emitByteNocrc _ => true
  | .emitByteRaw _ => true
  | _ => false

/-- The grammar of a frame after its RESET_FRAME (42 R164). -/
def FrameGrammar (is : List Instr) : Prop :=
  ∃ payload trailer : List Instr,
    is = payload ++ .emitChecksum :: (trailer ++ [.finish]) ∧
      payload.all Instr.isEmit = true ∧ trailer.all Instr.isTrailerEmit = true

/-! ## Streams -/

/-- The 5-ones rule over a sequence of logical bits, from a count of ones (40 R111). -/
def stuff : Nat → List Bool → List Bool
  | _, [] => []
  | _, false :: bs => false :: stuff 0 bs
  | n, true :: bs => if n + 1 = stuffLimit then true :: false :: stuff 0 bs else true :: stuff (n + 1) bs

/-- The count of ones after that sequence (10 R25). -/
def onesAfter : Nat → List Bool → Nat
  | n, [] => n
  | _, false :: bs => onesAfter 0 bs
  | n, true :: bs => if n + 1 = stuffLimit then onesAfter 0 bs else onesAfter (n + 1) bs

/-- The inverse 5-ones rule: every 0 right after five consecutive 1s goes, the count starting at 0 and after each removed
0 (40 R113). -/
def destuff : Nat → List Bool → List Bool
  | _, [] => []
  | n, b :: bs =>
    if n = stuffLimit ∧ b = false then destuff 0 bs else b :: destuff (if b then n + 1 else 0) bs

/-- The inverse of the escape substitution, scanning left to right (40 R115). -/
def unescape : List Byte → List Byte
  | [] => []
  | [b] => [b]
  | a :: b :: bs =>
    if (a, b) = escFlagSeq then escFlag :: unescape bs
    else if (a, b) = escEscSeq then escEsc :: unescape bs
    else a :: unescape (b :: bs)

/-- The stuffed stream of a sequence of emit commands, from a count of ones: stuffed bytes under the 5-ones rule, raw bytes
as they are, leaving the count alone (00 R10, 40 R112). -/
def emittedStream : Nat → List Instr → List Bool
  | _, [] => []
  | n, .emitByteRaw d :: is => msbFirst d ++ emittedStream n is
  | n, .emitByteCrc d :: is => stuff n (msbFirst d) ++ emittedStream (onesAfter n (msbFirst d)) is
  | n, .emitByteNocrc d :: is => stuff n (msbFirst d) ++ emittedStream (onesAfter n (msbFirst d)) is
  | n, _ :: is => emittedStream n is

/-- A command that puts bits or bytes out only through StuffedBit in the stuffed transports (41 R141, R142; 42 R162). -/
def Instr.isStuffed : Instr → Bool
  | .emitByteCrc _ => true
  | .emitByteNocrc _ => true
  | .emitChecksum => true
  | .emitByteRaw _ => false
  | .resetFrame => false
  | .finish => false

/-- A command that appends elements only through EscAppend in ESCAPED (40 R115): the bytes of EMIT_BYTE_NOCRC and
EMIT_CHECKSUM go there only where ESC_NOCRC_ESCAPES is true (41 R142); FINISH appends nothing (42 R163). -/
def Instr.isEscaped (b : Build) : Instr → Bool
  | .emitByteCrc _ => true
  | .emitByteNocrc _ => b.escNocrcEscapes
  | .emitChecksum => b.escNocrcEscapes
  | .emitByteRaw _ => false
  | .resetFrame => false
  | .finish => true

/-- The logical bytes a sequence of commands puts out, raw bytes apart, with `acc` in the accumulator before it: DATA bytes
and the two checksum bytes (41 R141, R142; 42 R162). -/
def codedBytes (b : Build) : Word → List Instr → List Byte
  | _, [] => []
  | acc, .emitByteCrc d :: is => d :: codedBytes b (crcStep b acc d) is
  | acc, .emitByteNocrc d :: is => d :: codedBytes b acc is
  | acc, .emitChecksum :: is =>
    (checksumBytes b.crcOrder acc).1 :: (checksumBytes b.crcOrder acc).2 :: codedBytes b acc is
  | acc, _ :: is => codedBytes b acc is

/-- A byte from its bits, least significant first; missing bits are 0 (20 R54). -/
def lsbByte : List Bool → Byte
  | [] => 0
  | b :: bs => (lsbByte bs <<< 1) ||| (BitVec.ofBool b).setWidth 8

/-- The bits of a byte, least significant first. -/
def lsbFirst (d : Byte) : List Bool := (List.range 8).map fun k => d.getLsbD k

/-- The full bytes a sequence of physical bits packs into (20 R54). -/
def packBytes : List Bool → List Byte
  | b0 :: b1 :: b2 :: b3 :: b4 :: b5 :: b6 :: b7 :: bs => lsbByte [b0, b1, b2, b3, b4, b5, b6, b7] :: packBytes bs
  | _ => []

/-- The bits left over after the full bytes. -/
def packRest : List Bool → List Bool
  | _ :: _ :: _ :: _ :: _ :: _ :: _ :: _ :: bs => packRest bs
  | bs => bs

/-- The physical bits waiting in the packer, first packed first (10 R27). -/
def State.pending (s : State) : List Bool := (List.range s.pkCount.toNat).map fun k => s.pkByte.getLsbD k

/-- The physical bits of the frame so far: the bytes of the buffer, then the packer (20 R54). -/
def State.lineBits (s : State) : List Bool :=
  (s.frame.flatMap fun v => lsbFirst (v.setWidth 8)) ++ s.pending

/-- The stuffed stream as a PULSE_STUFFED frame shows it: a long pulse is a 1. -/
def State.pulseBits (s : State) : List Bool := s.frame.map fun v => v.toNat == s.build.durLong.val

/-- The elements of the frame as bytes. -/
def State.frameBytes (s : State) : List Byte := s.frame.map fun v => v.setWidth 8

/-! ## What emitting does when it fits -/

/-- The buffer with `vs` written from index `i` on. -/
def writeAll (m : Memory) (i : Nat) : List Word → Memory
  | [] => m
  | v :: vs => writeAll (Memory.write m i v) (i + 1) vs

/-- The state with `vs` appended. -/
def appendAll (vs : List Word) (s : State) : State :=
  { s with buf := writeAll s.buf s.cursor.toNat vs, cursor := s.cursor + BitVec.ofNat 16 vs.length }

/-- The duration units a stuffed stream costs (40 R104). -/
def pulseCost (b : Build) (bits : List Bool) : Nat := (bits.map fun v => pulseDuration b v + gap).sum

/-- The state after the pulse-duration encoder has emitted `bits` (40 R104). -/
def pulseEmitted (bits : List Bool) (s : State) : State :=
  { appendAll (bits.map fun v => BitVec.ofNat 16 (pulseDuration s.build v)) s with
    rem := BitVec.ofNat 16 (s.rem.toNat - pulseCost s.build bits) }

/-- There is room and time for `bits` in PULSE_STUFFED (70 R238, R239). -/
abbrev pulseFits (bits : List Bool) (s : State) : Prop :=
  s.cursor.toNat + bits.length ≤ s.build.cap ∧ pulseCost s.build bits < s.rem.toNat

/-- The physical bits in the packer followed by those of `bits` (40 R107, R108). -/
def physicalStream (bits : List Bool) (s : State) : List Bool := s.pending ++ bits.flatMap physicalBits

/-- The state after physical bits have been packed: full bytes appended, the rest in the packer (40 R107). -/
def swPacked (bits : List Bool) (s : State) : State :=
  { appendAll ((packBytes bits).map byteElement) s with
    pkByte := lsbByte (packRest bits)
    pkCount := BitVec.ofNat 3 (packRest bits).length }

/-- There is room for the full bytes of `bits` in SWTIMED_STUFFED (70 R238). -/
abbrev swFits (bits : List Bool) (s : State) : Prop := s.cursor.toNat + (packBytes bits).length ≤ s.build.cap

/-- The state after `bytes` have been appended in ESCAPED. -/
def escapedEmitted (bytes : List Byte) (s : State) : State := appendAll (bytes.map byteElement) s

/-- There is room for `bytes`. -/
abbrev escapedFits (bytes : List Byte) (s : State) : Prop := s.cursor.toNat + bytes.length ≤ s.build.cap

/-- The bytes NoCrcByte appends in ESCAPED (41 R142). -/
def noCrcBytes (b : Build) (d : Byte) : List Byte := if b.escNocrcEscapes then escapeBytes d else [d]

/-- The logical bits of the two checksum bytes (42 R162). -/
def checksumBits (s : State) : List Bool :=
  msbFirst (checksumBytes s.build.crcOrder s.crcAcc).1 ++ msbFirst (checksumBytes s.build.crcOrder s.crcAcc).2

/-! ## Sizing -/

/-- How many bytes a command sends through the bit-stuffer (70 R238). -/
def stuffedCount : List Instr → Nat
  | [] => 0
  | .emitByteCrc _ :: is => stuffedCount is + 1
  | .emitByteNocrc _ :: is => stuffedCount is + 1
  | .emitChecksum :: is => stuffedCount is + 2
  | _ :: is => stuffedCount is

/-- How many raw bytes it emits (70 R238). -/
def rawCount : List Instr → Nat
  | [] => 0
  | .emitByteRaw _ :: is => rawCount is + 1
  | _ :: is => rawCount is

/-- The worst-case number of elements of a frame (70 R238). In ESCAPED, `stuffedCount` is `n_c + n_n`. -/
def worstElements (b : Build) (is : List Instr) : Nat :=
  match b.transport with
  | .pulseStuffed => 8 * stuffedCount is + 8 * stuffedCount is / 5 + 8 * rawCount is
  | .swtimedStuffed =>
    (3 * (8 * stuffedCount is) + 2 * (8 * stuffedCount is / 5) + 24 * rawCount is + 7) / 8
  | .escaped =>
    2 * (crcBytes is).length +
      (if b.escNocrcEscapes then 2 else 1) * (stuffedCount is - (crcBytes is).length) + rawCount is

/-- The worst-case duration units of a PULSE_STUFFED frame (70 R239). -/
def worstPeriod (b : Build) (is : List Instr) : Nat :=
  (b.durLong.val + gap) * (8 * stuffedCount is + 8 * rawCount is) +
    (b.durShort.val + gap) * (8 * stuffedCount is / 5)

end Sys2Proof.Machine
end

