-- ==== Sys2Proof/Certificates/Slice0/Obligations.lean ====
section
/-! DEFINITION. The statements for the provers. Each docstring names the rules of spec/ it formalises; the word an access
writes to CMD is delivered to the block (30 R82), so `.write 0 w` at the head of `inbox` is the delivery of `w`. -/

open Sys2Proof Sys2Proof.Machine

/-! ## Encoding (30) -/

/-- 30 R71, R73, R74: decoding the word of a command gives the command back, at every operand. -/
def Obligations.DecodeOfEncodeIsTheCommand : Prop :=
  ∀ i : Instr, decode (encode i) = .ok i

/-- 30 R73, R74: a word decodes to at most the one command whose word it is. -/
def Obligations.EncodeOfDecodeIsTheWord : Prop :=
  ∀ (w : Word) (i : Instr), decode w = .ok i → encode i = w

/-- 30 R73, R74: the words that decode are exactly those that match a row of the opcode map, and there are
3 + 3 * 256 = 771 of them. -/
def Obligations.LegalWordsAreTheOpcodeTable : Prop :=
  (∀ w : Word, (∃ i, decode w = .ok i) ↔ wellFormedWord w = true) ∧
    ∃ words : List Word, words.Nodup ∧ words.length = 771 ∧ ∀ w, w ∈ words ↔ ∃ i, decode w = .ok i

/-- 30 R81: the encoding examples, word by word. -/
def Obligations.EncodingExamplesDecode : Prop :=
  decode 0x1000 = .ok .resetFrame ∧ decode 0x207E = .ok (.emitByteCrc 0x7E) ∧
    decode 0x30FF = .ok (.emitByteNocrc 0xFF) ∧ decode 0x407E = .ok (.emitByteRaw 0x7E) ∧
    decode 0x5000 = .ok .emitChecksum ∧ decode 0x6000 = .ok .finish ∧
    (∀ i, decode 0x0000 ≠ .ok i) ∧ (∀ i, decode 0x2100 ≠ .ok i) ∧ ∀ i, decode 0x6001 ≠ .ok i

/-- 30 R75, R76, R77 (with 60 R205 for what raising a fault writes): a reserved opcode, a nonzero RSV, or a nonzero DATA on
RESET_FRAME, EMIT_CHECKSUM or FINISH raises ILLEGAL_COMMAND in every phase but FAULTED, and has no other effect. -/
def Obligations.IllegalWordsRaiseIllegalCommand : Prop :=
  ∀ (s : State) (w : Word) (rest : List Access),
    s.inbox = .write 0 w :: rest → s.phase ≠ .faulted →
    (w.toNat / 4096 = 0 ∨ 7 ≤ w.toNat / 4096) ∨ w.toNat / 256 % 16 ≠ 0 ∨
      ((w.toNat / 4096 = 1 ∨ w.toNat / 4096 = 5 ∨ w.toNat / 4096 = 6) ∧ w.toNat % 256 ≠ 0) →
    step s = .next { s with inbox := rest, phase := .faulted, cause := .illegalCommand, faultCmd := w }

/-- 30 R79, R80: every word the assembler makes, but for `.word`, is the word of a command, and the pseudo-instructions
expand as listed. -/
def Obligations.AssembledWordsAreCommands : Prop :=
  ∀ (l : AsmLine) (ws : List Word), assemble l = some ws →
    (l.op ≠ .word → ∀ w ∈ ws, ∃ i, decode w = .ok i) ∧
    (l.op = .frameEnd → ws = [0x5000, 0x6000]) ∧
    (l.op = .emitSeqCrc → ws.map decode = l.operands.map fun n => .ok (.emitByteCrc (BitVec.ofNat 8 n))) ∧
    (l.op = .emitSeqNocrc → ws.map decode = l.operands.map fun n => .ok (.emitByteNocrc (BitVec.ofNat 8 n))) ∧
    (l.op = .emitSeqRaw → ws.map decode = l.operands.map fun n => .ok (.emitByteRaw (BitVec.ofNat 8 n)))

/-! ## Steps (42 R160, 60) -/

/-- 42 R160: a step that takes a legal word runs the command it decodes to, the word taken. -/
def Obligations.StepRunsTheDeliveredCommand : Prop :=
  ∀ (s : State) (w : Word) (rest : List Access) (i : Instr),
    s.inbox = .write 0 w :: rest → s.phase ≠ .faulted → decode w = .ok i →
    step s = exec i { s with inbox := rest }

/-- 60 R213, 70 R230: with nothing delivered the block holds its state. -/
def Obligations.StepWithNothingDeliveredHolds : Prop :=
  ∀ s : State, s.inbox = [] → step s = .next s

/-- 60 R204: in FAULTED every delivered word, legal or not, is accepted and ignored; FAULT reads 1 and VALID 0. -/
def Obligations.FaultedIgnoresEveryWord : Prop :=
  ∀ (s : State) (w : Word) (rest : List Access),
    s.inbox = .write 0 w :: rest → s.phase = .faulted →
    step s = .next { s with inbox := rest } ∧ s.status.getLsbD 7 = true ∧ s.status.getLsbD 3 = false

/-- 60 R206, R207: only power-on reset leaves FAULTED; any other step keeps the first fault's values and every field of
the datapath. -/
def Obligations.FaultLastsUntilPowerOnReset : Prop :=
  ∀ s t : State, s.phase = .faulted → step s = .next t →
    (∃ rest, s.inbox = .powerOnReset :: rest ∧ t.phase = .idle ∧ t.cause = .noFault ∧ t.faultCmd = 0) ∨
    (t.phase = .faulted ∧ t.cause = s.cause ∧ t.faultCmd = s.faultCmd ∧ t.cursor = s.cursor ∧ t.buf = s.buf ∧
      t.crcAcc = s.crcAcc ∧ t.ones = s.ones ∧ t.rem = s.rem ∧ t.pkByte = s.pkByte ∧ t.pkCount = s.pkCount)

/-- 70 R230, 10 R40: what power-on reset leaves, from every state (the fields the spec gives a value). -/
def Obligations.PowerOnResetLeavesIdle : Prop :=
  ∀ (s : State) (rest : List Access), s.inbox = .powerOnReset :: rest →
    ∃ t, step s = .next t ∧ t.phase = .idle ∧ t.cause = .noFault ∧ t.faultCmd = 0 ∧ t.cursor = 0 ∧
      t.build = s.build ∧ t.inbox = rest ∧
      t.register 1 = 0 ∧ t.register 2 = 0 ∧ t.register 3 = configWord s.build ∧ t.register 4 = 0

/-- 10 R40: the machine right after reset, in every build (the fields the spec gives a value). -/
def Obligations.ResetLeavesIdle : Prop :=
  State.reset.phase = .idle ∧ State.reset.cause = .noFault ∧ State.reset.faultCmd = 0 ∧ State.reset.cursor = 0 ∧
    ∀ b : Build, (State.powerOn b).build = b ∧ (State.powerOn b).phase = .idle ∧ (State.powerOn b).cause = .noFault ∧
      (State.powerOn b).faultCmd = 0 ∧ (State.powerOn b).cursor = 0 ∧ (State.powerOn b).register 3 = configWord b

/-! ## Registers and the DATA port (10 R34 to R39; 20 R59, R63) -/

/-- 10 R35, with the codes of R31 and 60 R200: STATUS bit by bit, its power-on value, that reading it has no side effect,
and that a write to it is ignored. -/
def Obligations.StatusReportsPhaseAndCause : Prop :=
  (∀ s : State,
    (s.register 1).extractLsb' 0 3 = (match s.phase with
      | .idle => 0#3 | .payload => 1#3 | .trailer => 2#3 | .done => 3#3 | .faulted => 4#3) ∧
    ((s.register 1).getLsbD 3 = true ↔ s.phase = .done) ∧
    (s.register 1).extractLsb' 4 3 = (match s.cause with
      | .noFault => 0#3 | .illegalCommand => 1#3 | .sequenceError => 2#3 | .bufferOverflow => 3#3
      | .periodExhausted => 4#3 | .finishEmpty => 5#3) ∧
    ((s.register 1).getLsbD 7 = true ↔ s.phase = .faulted) ∧
    (s.register 1).extractLsb' 8 8 = 0#8) ∧
  (∀ b : Build, (State.powerOn b).register 1 = 0x0000) ∧
  (∀ (s : State) (rest : List Access), s.inbox = .readRegister 1 :: rest →
    step s = .next { s with inbox := rest, reply := s.register 1 }) ∧
  ∀ (s : State) (v : Word) (rest : List Access), s.inbox = .write 1 v :: rest →
    step s = .next { s with inbox := rest }

/-- 10 R34, R20: CONFIG bit by bit; a write to it is ignored; reset does not affect it, and no step changes what it reads. -/
def Obligations.ConfigReportsTheBuild : Prop :=
  (∀ s : State,
    ((s.register 3).extractLsb' 0 2 = 0#2 ↔ s.build.transport = .pulseStuffed) ∧
    ((s.register 3).extractLsb' 0 2 = 1#2 ↔ s.build.transport = .swtimedStuffed) ∧
    ((s.register 3).extractLsb' 0 2 = 2#2 ↔ s.build.transport = .escaped) ∧
    ((s.register 3).getLsbD 2 = true ↔ s.build.crcOrder = .loFirst) ∧
    ((s.register 3).getLsbD 3 = true ↔ s.build.transport = .escaped ∧ s.build.escNocrcEscapes = true) ∧
    (s.register 3).extractLsb' 4 12 = 0#12) ∧
  (∀ (s : State) (v : Word) (rest : List Access), s.inbox = .write 3 v :: rest →
    step s = .next { s with inbox := rest }) ∧
  (∀ s : State, (powerOnReset s).register 3 = s.register 3) ∧
  ∀ s t : State, step s = .next t → t.register 3 = s.register 3

/-- 10 R36, R39: LENGTH reads `cursor`, which is the length handed off exactly when VALID is 1; FAULT_CMD reads
`fault_cmd`; both read 0 at power-on and ignore writes. -/
def Obligations.LengthAndFaultCmdReadTheirFields : Prop :=
  (∀ s : State, s.register 2 = s.cursor ∧ s.register 4 = s.faultCmd ∧
    (s.status.getLsbD 3 = true → s.observation = some (s.register 2, s.frame)) ∧
    (s.status.getLsbD 3 = false → s.observation = none)) ∧
  (∀ b : Build, (State.powerOn b).register 2 = 0 ∧ (State.powerOn b).register 4 = 0) ∧
  ∀ (s : State) (v : Word) (rest : List Access),
    s.inbox = .write 2 v :: rest ∨ s.inbox = .write 4 v :: rest → step s = .next { s with inbox := rest }

/-- 20 R63: the register map. A read answers with the register and changes nothing else; CMD and the reserved offsets read
0; a write to CMD delivers a command word and a write to any other offset is ignored. -/
def Obligations.RegisterMapReadsAndIgnoredWrites : Prop :=
  ∀ (s : State) (offset : BitVec 4) (v : Word) (rest : List Access),
    (s.inbox = .readRegister offset :: rest →
      step s = .next { s with inbox := rest, reply := s.register offset }) ∧
    (offset = 0 ∨ 5 ≤ offset.toNat → s.register offset = 0) ∧
    s.register 1 = s.status ∧ s.register 2 = s.cursor ∧ s.register 3 = configWord s.build ∧
    s.register 4 = s.faultCmd ∧
    (s.inbox = .write offset v :: rest → offset = 0 → step s = deliver v { s with inbox := rest }) ∧
    (s.inbox = .write offset v :: rest → offset ≠ 0 → step s = .next { s with inbox := rest })

/-- 20 R59: while `phase = DONE`, a DATA read below `cursor` returns the element of the frame, which is a byte where
elements are 8 bits wide, and changes nothing else. -/
def Obligations.DataPortReturnsTheHandedOffElement : Prop :=
  ∀ (s : State) (i : Nat) (rest : List Access), Inv s →
    s.inbox = .readData i :: rest → s.phase = .done → i < s.cursor.toNat →
    ∃ v : Word, s.frame[i]? = some v ∧ v.toNat < 2 ^ s.build.elemWidth ∧
      step s = .next { s with inbox := rest, reply := v }

/-- 20 R59, log 8: outside the handoff a DATA read answers with some value and changes no field of the block. -/
def Obligations.DataPortOutsideTheHandoffAnswersSomeValue : Prop :=
  ∀ (s : State) (i : Nat) (rest : List Access),
    s.inbox = .readData i :: rest → s.phase ≠ .done ∨ s.cursor.toNat ≤ i →
    ∃ v : Word, step s = .next { s with inbox := rest, reply := v, draws := s.draws + 1 }

/-! ## The phase machine (42 R160) and faults (60) -/

/-- 42 R160: where the table says SEQ the command raises SEQUENCE_ERROR and no datapath state changes. -/
def Obligations.IllegalPhaseRaisesSequenceError : Prop :=
  ∀ (i : Instr) (s : State), s.phase ≠ .faulted →
    (((∃ d, i = .emitByteCrc d) ∨ i = .emitChecksum) ∧ s.phase ≠ .payload) ∨
      (((∃ d, i = .emitByteNocrc d) ∨ ∃ d, i = .emitByteRaw d) ∧ s.phase ≠ .payload ∧ s.phase ≠ .trailer) ∨
      (i = .finish ∧ s.phase ≠ .trailer) →
    exec i s = .next { s with phase := .faulted, cause := .sequenceError, faultCmd := encode i }

/-- 42 R160, 10 R38: the phase after a command that does not fault: RESET_FRAME to PAYLOAD, EMIT_CHECKSUM from PAYLOAD to
TRAILER, FINISH from TRAILER to DONE, and the emit commands leave it. -/
def Obligations.PhaseChangesAsTheTableSays : Prop :=
  ∀ (i : Instr) (s t : State), s.phase ≠ .faulted → exec i s = .next t → t.phase ≠ .faulted →
    (i = .resetFrame → t.phase = .payload) ∧
    (∀ d, i = .emitByteCrc d → s.phase = .payload ∧ t.phase = .payload) ∧
    (∀ d, i = .emitByteNocrc d ∨ i = .emitByteRaw d →
      (s.phase = .payload ∨ s.phase = .trailer) ∧ t.phase = s.phase) ∧
    (i = .emitChecksum → s.phase = .payload ∧ t.phase = .trailer) ∧
    (i = .finish → s.phase = .trailer ∧ t.phase = .done)

/-- 60 R205, R200: a command that ends in FAULTED has recorded its word and a cause that is not NONE. -/
def Obligations.FaultEntryRecordsWordAndCause : Prop :=
  ∀ (i : Instr) (s t : State), s.phase ≠ .faulted → exec i s = .next t → t.phase = .faulted →
    t.faultCmd = encode i ∧ t.cause ≠ .noFault

/-- 60 R201: which commands can raise which fault. -/
def Obligations.FaultsByCommandAndTransport : Prop :=
  ∀ (i : Instr) (s t : State), s.phase ≠ .faulted → exec i s = .next t → t.phase = .faulted →
    i ≠ .resetFrame ∧
    (t.cause = .sequenceError ∨
      (t.cause = .bufferOverflow ∧ (i = .finish → s.build.transport = .swtimedStuffed)) ∨
      (t.cause = .periodExhausted ∧ i ≠ .finish ∧ s.build.transport = .pulseStuffed) ∨
      (t.cause = .finishEmpty ∧ i = .finish ∧ s.build.transport = .pulseStuffed))

/-- 60 R200: a BUFFER_OVERFLOW leaves LENGTH = CAP. -/
def Obligations.OverflowLeavesTheBufferFull : Prop :=
  ∀ (i : Instr) (s t : State), s.cursor.toNat ≤ s.build.cap → s.phase ≠ .faulted → exec i s = .next t →
    t.phase = .faulted → t.cause = .bufferOverflow → t.cursor.toNat = s.build.cap

/-- 40 R105, 42 R163: FINISH_EMPTY cannot happen through the phase machine. -/
def Obligations.FinishEmptyIsUnreachable : Prop :=
  ∀ s t : State, Inv s → s.cause ≠ .finishEmpty → step s = .next t → t.cause ≠ .finishEmpty

/-! ## Micro-operations (40) -/

/-- 40 R100: Append writes one element and advances the cursor, or raises BUFFER_OVERFLOW and writes nothing. -/
def Obligations.AppendWritesOneElementOrOverflows : Prop :=
  ∀ (v : Word) (s : State), s.cursor.toNat ≤ s.build.cap →
    (s.cursor.toNat = s.build.cap → append v s = .raised .bufferOverflow s) ∧
    (s.cursor.toNat < s.build.cap → ∃ t, append v s = .completed t ∧
      t = { s with buf := t.buf, cursor := t.cursor } ∧ t.cursor.toNat = s.cursor.toNat + 1 ∧
      Memory.read t.buf s.cursor.toNat = some v ∧
      ∀ a, a ≠ s.cursor.toNat → Memory.read t.buf a = Memory.read s.buf a)

/-- 40 R101: CrcUpdate in the rule's arithmetic; only `crc_acc` changes. -/
def Obligations.CrcUpdateShiftsAndLooksUp : Prop :=
  ∀ (b : Byte) (s : State),
    ∃ entry : Word, s.build.crcTable[(s.crcAcc.toNat / 256 ^^^ b.toNat) &&& 0xFF]? = some entry ∧
      crcUpdate b s = { s with crcAcc := BitVec.ofNat 16 (s.crcAcc.toNat * 256 % 65536 ^^^ entry.toNat) }

/-- 40 R104: PulseEmitBit appends the duration first, then charges it with the gap or raises PERIOD_EXHAUSTED with `rem`
kept; a full buffer raises BUFFER_OVERFLOW before `rem` is touched. -/
def Obligations.PulseEmitBitChargesDurationAndGap : Prop :=
  ∀ (v : Bool) (s : State),
    let d : Nat := if v = true then s.build.durLong.val else s.build.durShort.val
    let appended : State :=
      { s with buf := Memory.write s.buf s.cursor.toNat (BitVec.ofNat 16 d), cursor := s.cursor + 1 }
    s.cursor.toNat ≤ s.build.cap →
    (s.cursor.toNat = s.build.cap → pulseEmitBit v s = .raised .bufferOverflow s) ∧
    (s.cursor.toNat < s.build.cap → s.rem.toNat ≤ d + 1 →
      pulseEmitBit v s = .raised .periodExhausted appended) ∧
    (s.cursor.toNat < s.build.cap → d + 1 < s.rem.toNat →
      ∃ r : Word, r.toNat = s.rem.toNat - (d + 1) ∧ pulseEmitBit v s = .completed { appended with rem := r })

/-- 40 R107: SwPack puts the bit at position `pk_count` of `pk_byte`; the 8th bit appends the byte and resets the packer,
and on BUFFER_OVERFLOW the packed bit stays and the packer is not reset. -/
def Obligations.SwPackFillsTheByteLsbFirst : Prop :=
  ∀ (p : Bool) (s : State), s.cursor.toNat ≤ s.build.cap → s.pkByte.toNat < 2 ^ s.pkCount.toNat →
    ∃ byte : Byte, byte.toNat = s.pkByte.toNat + p.toNat * 2 ^ s.pkCount.toNat ∧
      (s.pkCount ≠ 7 → ∃ n : BitVec 3, n.toNat = s.pkCount.toNat + 1 ∧
        swPack p s = .completed { s with pkByte := byte, pkCount := n }) ∧
      (s.pkCount = 7 → s.cursor.toNat < s.build.cap →
        swPack p s = .completed { appendAll [byteElement byte] s with pkByte := 0, pkCount := 0 }) ∧
      (s.pkCount = 7 → s.cursor.toNat = s.build.cap →
        swPack p s = .raised .bufferOverflow { s with pkByte := byte })

/-- 40 R109: SwFinish appends nothing on a byte boundary, and otherwise exactly one byte, the packed bits padded with
highs; it raises BUFFER_OVERFLOW where that byte does not fit (then, by 40 R107, the packer holds the full byte). -/
def Obligations.SwFinishPadsWithHighs : Prop :=
  ∀ s : State, s.cursor.toNat ≤ s.build.cap →
    let byte : Byte := s.pkByte ||| (0xFF#8 <<< s.pkCount.toNat)
    (s.pkCount = 0 → swFinish s = .completed s) ∧
    (s.pkCount ≠ 0 → s.cursor.toNat < s.build.cap →
      swFinish s = .completed { appendAll [byteElement byte] s with pkByte := 0, pkCount := 0 }) ∧
    (s.pkCount ≠ 0 → s.cursor.toNat = s.build.cap →
      swFinish s = .raised .bufferOverflow { s with pkByte := byte, pkCount := 7 })

/-! ## What the commands do (41, 42) -/

/-- 42 R161, with 10 R21 for the frame-start values: RESET_FRAME from every phase but FAULTED; no effect in FAULTED; DATA
other than 0 raises ILLEGAL_COMMAND. -/
def Obligations.ResetFrameStartsAFrame : Prop :=
  encode .resetFrame = 0x1000 ∧
  (∀ s : State, s.phase ≠ .faulted →
    exec .resetFrame s = .next { s with
      cursor := 0
      crcAcc := 0
      ones := if s.build.transport = .escaped then s.ones else 0
      rem := if s.build.transport = .pulseStuffed then BitVec.ofNat 16 s.build.halfPeriod else s.rem
      pkByte := if s.build.transport = .swtimedStuffed then 0 else s.pkByte
      pkCount := if s.build.transport = .swtimedStuffed then 0 else s.pkCount
      phase := .payload }) ∧
  (∀ s : State, s.phase = .faulted → exec .resetFrame s = .next s) ∧
  ∀ (s : State) (w : Word), s.phase ≠ .faulted → w.toNat / 256 = 16 → w.toNat % 256 ≠ 0 →
    deliver w s = .next { s with phase := .faulted, cause := .illegalCommand, faultCmd := w }

/-- 41 R141, R142, R143 in PULSE_STUFFED (40 R104, R111, R112): with room and time for the stuffed stream, the three emit
commands complete, one duration per bit of the stream. -/
def Obligations.PulseEmitCompletes : Prop :=
  ∀ (d : Byte) (s : State), s.build.transport = .pulseStuffed →
    let stream := stuff s.ones.toNat (msbFirst d)
    let count : BitVec 3 := BitVec.ofNat 3 (onesAfter s.ones.toNat (msbFirst d))
    (s.phase = .payload → s.ones.toNat ≤ 4 → pulseFits stream s →
      exec (.emitByteCrc d) s =
        .next { pulseEmitted stream s with ones := count, crcAcc := crcStep s.build s.crcAcc d }) ∧
    (s.phase = .payload ∨ s.phase = .trailer → s.ones.toNat ≤ 4 → pulseFits stream s →
      exec (.emitByteNocrc d) s = .next { pulseEmitted stream s with ones := count }) ∧
    (s.phase = .payload ∨ s.phase = .trailer → pulseFits (msbFirst d) s →
      exec (.emitByteRaw d) s = .next (pulseEmitted (msbFirst d) s))

/-- 41 R141, R142, R143 in SWTIMED_STUFFED (40 R107, R108, R111, R112): with room for the full bytes, the three emit
commands complete, the physical bits packed least significant first behind those waiting. -/
def Obligations.SwtimedEmitCompletes : Prop :=
  ∀ (d : Byte) (s : State), s.build.transport = .swtimedStuffed → s.pkByte.toNat < 2 ^ s.pkCount.toNat →
    let stream := physicalStream (stuff s.ones.toNat (msbFirst d)) s
    let raw := physicalStream (msbFirst d) s
    let count : BitVec 3 := BitVec.ofNat 3 (onesAfter s.ones.toNat (msbFirst d))
    (s.phase = .payload → s.ones.toNat ≤ 4 → swFits stream s →
      exec (.emitByteCrc d) s =
        .next { swPacked stream s with ones := count, crcAcc := crcStep s.build s.crcAcc d }) ∧
    (s.phase = .payload ∨ s.phase = .trailer → s.ones.toNat ≤ 4 → swFits stream s →
      exec (.emitByteNocrc d) s = .next { swPacked stream s with ones := count }) ∧
    (s.phase = .payload ∨ s.phase = .trailer → swFits raw s →
      exec (.emitByteRaw d) s = .next (swPacked raw s))

/-- 41 R141, R142, R143 in ESCAPED (40 R114): with room, EMIT_BYTE_CRC appends the escaped byte, EMIT_BYTE_NOCRC escapes
only where ESC_NOCRC_ESCAPES is true, EMIT_BYTE_RAW never. -/
def Obligations.EscapedEmitCompletes : Prop :=
  ∀ (d : Byte) (s : State), s.build.transport = .escaped →
    (s.phase = .payload → escapedFits (escapeBytes d) s →
      exec (.emitByteCrc d) s =
        .next { escapedEmitted (escapeBytes d) s with crcAcc := crcStep s.build s.crcAcc d }) ∧
    (s.phase = .payload ∨ s.phase = .trailer → escapedFits (noCrcBytes s.build d) s →
      exec (.emitByteNocrc d) s = .next (escapedEmitted (noCrcBytes s.build d) s)) ∧
    (s.phase = .payload ∨ s.phase = .trailer → escapedFits [d] s →
      exec (.emitByteRaw d) s = .next (escapedEmitted [d] s))

/-- 42 R162 in PULSE_STUFFED: with room and time, the two checksum bytes are stuffed in CRC_ORDER and the phase becomes
TRAILER; `crc_acc` is unchanged. -/
def Obligations.PulseChecksumCompletes : Prop :=
  ∀ s : State, s.build.transport = .pulseStuffed → s.phase = .payload → s.ones.toNat ≤ 4 →
    let stream := stuff s.ones.toNat (checksumBits s)
    pulseFits stream s →
    exec .emitChecksum s = .next { pulseEmitted stream s with
      ones := BitVec.ofNat 3 (onesAfter s.ones.toNat (checksumBits s)), phase := .trailer }

/-- 42 R162 in SWTIMED_STUFFED. -/
def Obligations.SwtimedChecksumCompletes : Prop :=
  ∀ s : State, s.build.transport = .swtimedStuffed → s.phase = .payload → s.ones.toNat ≤ 4 →
    s.pkByte.toNat < 2 ^ s.pkCount.toNat →
    let stream := physicalStream (stuff s.ones.toNat (checksumBits s)) s
    swFits stream s →
    exec .emitChecksum s = .next { swPacked stream s with
      ones := BitVec.ofNat 3 (onesAfter s.ones.toNat (checksumBits s)), phase := .trailer }

/-- 42 R162, 20 R55 in ESCAPED: the high byte first with HI_FIRST, the low byte first with LO_FIRST. -/
def Obligations.EscapedChecksumCompletes : Prop :=
  ∀ (s : State) (hi lo : Byte), s.build.transport = .escaped → s.phase = .payload →
    hi.toNat = s.crcAcc.toNat / 256 → lo.toNat = s.crcAcc.toNat % 256 →
    let bytes := match s.build.crcOrder with
      | .hiFirst => noCrcBytes s.build hi ++ noCrcBytes s.build lo
      | .loFirst => noCrcBytes s.build lo ++ noCrcBytes s.build hi
    escapedFits bytes s →
    exec .emitChecksum s = .next { escapedEmitted bytes s with phase := .trailer }

/-- 42 R163 with 40 R105 and R109: FINISH in TRAILER, in each transport. -/
def Obligations.FinishCompletes : Prop :=
  ∀ s : State, s.phase = .trailer →
    (∀ v : Word, s.build.transport = .pulseStuffed → s.cursor ≠ 0 →
      Memory.read s.buf (s.cursor.toNat - 1) = some v → v.toNat + s.rem.toNat < 65536 →
      exec .finish s = .next { s with
        buf := Memory.write s.buf (s.cursor.toNat - 1) (BitVec.ofNat 16 (v.toNat + s.rem.toNat))
        rem := 0
        phase := .done }) ∧
    (s.build.transport = .swtimedStuffed → s.pkCount = 0 → exec .finish s = .next { s with phase := .done }) ∧
    (s.build.transport = .swtimedStuffed → s.pkCount ≠ 0 → s.cursor.toNat < s.build.cap →
      exec .finish s = .next { appendAll [byteElement (s.pkByte ||| (0xFF#8 <<< s.pkCount.toNat))] s with
        pkByte := 0, pkCount := 0, phase := .done }) ∧
    (s.build.transport = .escaped → exec .finish s = .next { s with phase := .done })

/-- 41 R141: EMIT_BYTE_CRC folds the byte into the checksum before any transformation, even where the emission then
faults. -/
def Obligations.CrcByteIsFoldedBeforeEmission : Prop :=
  ∀ (d : Byte) (s t : State), s.phase = .payload → exec (.emitByteCrc d) s = .next t →
    t.crcAcc = crcStep s.build s.crcAcc d

/-- 40 R114, 41 R142, 42 R162, 60 R203: in ESCAPED, a command whose escape of 0x7E or 0x7D has room for its 0x7D only
leaves that 0x7D, and whatever the command put out before it, appended and faults with BUFFER_OVERFLOW: EMIT_BYTE_CRC, and
where ESC_NOCRC_ESCAPES is true EMIT_BYTE_NOCRC, and EMIT_CHECKSUM at its first or at its second byte. -/
def Obligations.EscapedOverflowKeepsTheFirstByte : Prop :=
  ∀ s : State, s.build.transport = .escaped →
    (∀ d : Byte, d = 0x7E ∨ d = 0x7D → s.cursor.toNat + 1 = s.build.cap → s.phase = .payload →
      exec (.emitByteCrc d) s = .next { s with
        buf := Memory.write s.buf s.cursor.toNat 0x7D
        cursor := s.cursor + 1
        crcAcc := crcStep s.build s.crcAcc d
        phase := .faulted
        cause := .bufferOverflow
        faultCmd := encode (.emitByteCrc d) }) ∧
    (∀ d : Byte, d = 0x7E ∨ d = 0x7D → s.cursor.toNat + 1 = s.build.cap → s.build.escNocrcEscapes = true →
      s.phase = .payload ∨ s.phase = .trailer →
      exec (.emitByteNocrc d) s = .next { s with
        buf := Memory.write s.buf s.cursor.toNat 0x7D
        cursor := s.cursor + 1
        phase := .faulted
        cause := .bufferOverflow
        faultCmd := encode (.emitByteNocrc d) }) ∧
    (∀ first second : Byte, s.build.escNocrcEscapes = true → s.phase = .payload →
      (s.build.crcOrder = .hiFirst →
        first.toNat = s.crcAcc.toNat / 256 ∧ second.toNat = s.crcAcc.toNat % 256) →
      (s.build.crcOrder = .loFirst →
        first.toNat = s.crcAcc.toNat % 256 ∧ second.toNat = s.crcAcc.toNat / 256) →
      (first = 0x7E ∨ first = 0x7D → s.cursor.toNat + 1 = s.build.cap →
        exec .emitChecksum s = .next { s with
          buf := Memory.write s.buf s.cursor.toNat 0x7D
          cursor := s.cursor + 1
          phase := .faulted
          cause := .bufferOverflow
          faultCmd := 0x5000 }) ∧
      (second = 0x7E ∨ second = 0x7D → s.cursor.toNat + (escapeBytes first).length + 1 = s.build.cap →
        exec .emitChecksum s = .next { escapedEmitted (escapeBytes first ++ [0x7D]) s with
          phase := .faulted
          cause := .bufferOverflow
          faultCmd := 0x5000 }))

/-- 40 R104, 60 R203: in PULSE_STUFFED, EMIT_BYTE_RAW whose first pulse exhausts the period has appended it, keeps `rem`
and faults with PERIOD_EXHAUSTED. -/
def Obligations.PulseExhaustionKeepsTheAppendedDuration : Prop :=
  ∀ (d : Byte) (s : State), s.build.transport = .pulseStuffed → s.phase = .payload ∨ s.phase = .trailer →
    s.cursor.toNat < s.build.cap → s.rem.toNat ≤ pulseDuration s.build (d.getLsbD 7) + 1 →
    exec (.emitByteRaw d) s = .next { s with
      buf := Memory.write s.buf s.cursor.toNat (BitVec.ofNat 16 (pulseDuration s.build (d.getLsbD 7)))
      cursor := s.cursor + 1
      phase := .faulted
      cause := .periodExhausted
      faultCmd := encode (.emitByteRaw d) }

/-- 42 R163, 40 R105, R109: where FINISH in TRAILER raises a fault. In PULSE_STUFFED with nothing emitted it raises
FINISH_EMPTY and the encoder writes nothing; in SWTIMED_STUFFED a pad byte that does not fit raises BUFFER_OVERFLOW. -/
def Obligations.FinishFaultsOnAnEmptyTrainOrAFullPad : Prop :=
  ∀ s : State, s.phase = .trailer →
    (s.build.transport = .pulseStuffed → s.cursor = 0 →
      exec .finish s = .next { s with
        phase := .faulted
        cause := .finishEmpty
        faultCmd := 0x6000 }) ∧
    (s.build.transport = .swtimedStuffed → s.pkCount ≠ 0 → s.cursor.toNat = s.build.cap →
      exec .finish s = .next { s with
        pkByte := s.pkByte ||| (0xFF#8 <<< s.pkCount.toNat)
        pkCount := 7
        phase := .faulted
        cause := .bufferOverflow
        faultCmd := 0x6000 })

/-- 41 R144: how much one emit command that does not fault puts out, in each transport. -/
def Obligations.EmitSizesByTransport : Prop :=
  ∀ (i : Instr) (d : Byte) (s t : State), s.phase ≠ .faulted → exec i s = .next t → t.phase ≠ .faulted →
    (i = .emitByteCrc d ∨ i = .emitByteNocrc d → s.build.transport = .pulseStuffed → s.ones.toNat ≤ 4 →
      ∃ k ≤ 2, t.cursor.toNat = s.cursor.toNat + 8 + k) ∧
    (i = .emitByteCrc d ∨ i = .emitByteNocrc d → s.build.transport = .swtimedStuffed → s.ones.toNat ≤ 4 →
      ∃ p, p = 2 * (stuff s.ones.toNat (msbFirst d)).count false + 3 * (stuff s.ones.toNat (msbFirst d)).count true ∧
        16 ≤ p ∧ p ≤ 28 ∧
        8 * t.cursor.toNat + t.pkCount.toNat = 8 * s.cursor.toNat + s.pkCount.toNat + p ∧
        t.cursor.toNat ≤ s.cursor.toNat + 4) ∧
    (i = .emitByteCrc d → s.build.transport = .escaped →
      t.cursor.toNat = s.cursor.toNat + if d = 0x7E ∨ d = 0x7D then 2 else 1) ∧
    (i = .emitByteNocrc d → s.build.transport = .escaped →
      t.cursor.toNat = s.cursor.toNat + if s.build.escNocrcEscapes = true ∧ (d = 0x7E ∨ d = 0x7D) then 2 else 1) ∧
    (i = .emitByteRaw d → s.build.transport = .pulseStuffed → t.cursor.toNat = s.cursor.toNat + 8) ∧
    (i = .emitByteRaw d → s.build.transport = .swtimedStuffed →
      8 * t.cursor.toNat + t.pkCount.toNat =
        8 * s.cursor.toNat + s.pkCount.toNat + 16 + (msbFirst d).count true ∧
      t.cursor.toNat ≤ s.cursor.toNat + 4) ∧
    (i = .emitByteRaw d → s.build.transport = .escaped → t.cursor.toNat = s.cursor.toNat + 1)

/-! ## Frames -/

/-- 41 R140 to R143, 42 R162, 20 R51, 10 R24, R25: what the three emit commands and EMIT_CHECKSUM leave unchanged,
whether they complete or fault. They store to the elements from `cursor` before to `cursor` after. -/
def Obligations.EmitCommandsFrame : Prop :=
  ∀ (i : Instr) (s t : State), i ≠ .resetFrame → i ≠ .finish → exec i s = .next t →
    t.build = s.build ∧ t.inbox = s.inbox ∧ t.reply = s.reply ∧ t.draws = s.draws ∧
    s.cursor.toNat ≤ t.cursor.toNat ∧
    (∀ a, ¬(s.cursor.toNat ≤ a ∧ a < t.cursor.toNat) → Memory.read t.buf a = Memory.read s.buf a) ∧
    ((∀ d, i ≠ .emitByteCrc d) → t.crcAcc = s.crcAcc) ∧
    ((∃ d, i = .emitByteRaw d) ∨ s.build.transport = .escaped → t.ones = s.ones) ∧
    (s.build.transport ≠ .pulseStuffed → t.rem = s.rem) ∧
    (s.build.transport ≠ .swtimedStuffed → t.pkByte = s.pkByte ∧ t.pkCount = s.pkCount) ∧
    (t.phase ≠ .faulted → t.cause = s.cause ∧ t.faultCmd = s.faultCmd ∧ (i ≠ .emitChecksum → t.phase = s.phase))

/-- 42 R163, 20 R51: what FINISH leaves unchanged. In PULSE_STUFFED it stores to the last element only, in SWTIMED_STUFFED
to the elements from `cursor` before to `cursor` after, in ESCAPED to none. -/
def Obligations.FinishFrame : Prop :=
  ∀ s t : State, exec .finish s = .next t →
    t.build = s.build ∧ t.inbox = s.inbox ∧ t.reply = s.reply ∧ t.draws = s.draws ∧
    t.crcAcc = s.crcAcc ∧ t.ones = s.ones ∧
    (t.phase ≠ .faulted → t.cause = s.cause ∧ t.faultCmd = s.faultCmd) ∧
    (s.build.transport = .pulseStuffed →
      t.cursor = s.cursor ∧ t.pkByte = s.pkByte ∧ t.pkCount = s.pkCount ∧
      ∀ a, a ≠ s.cursor.toNat - 1 → Memory.read t.buf a = Memory.read s.buf a) ∧
    (s.build.transport = .swtimedStuffed →
      t.rem = s.rem ∧ s.cursor.toNat ≤ t.cursor.toNat ∧ t.cursor.toNat ≤ s.cursor.toNat + 1 ∧
      ∀ a, ¬(s.cursor.toNat ≤ a ∧ a < t.cursor.toNat) → Memory.read t.buf a = Memory.read s.buf a) ∧
    (s.build.transport = .escaped →
      t.cursor = s.cursor ∧ t.rem = s.rem ∧ t.pkByte = s.pkByte ∧ t.pkCount = s.pkCount ∧ t.buf = s.buf)

/-- 10 R20: no step writes a build parameter. -/
def Obligations.StepNeverChangesTheBuild : Prop :=
  ∀ s t : State, step s = .next t → t.build = s.build

/-- 10 R23: only RESET_FRAME and power-on reset lower the cursor. -/
def Obligations.OnlyResetsLowerTheCursor : Prop :=
  ∀ s t : State, step s = .next t → t.cursor.toNat < s.cursor.toNat →
    ∃ rest, (s.inbox = .write 0 0x1000 :: rest ∨ s.inbox = .powerOnReset :: rest) ∧ t.cursor = 0

/-- 20 R60: once handed off, a frame stays as it is until a RESET_FRAME, a fault or power-on reset. -/
def Obligations.HandoffLastsUntilResetOrFault : Prop :=
  ∀ s t : State, s.phase = .done → step s = .next t →
    (t.phase = .done ∧ t.buf = s.buf ∧ t.cursor = s.cursor ∧ t.observation = s.observation) ∨
    (t.phase = .faulted ∧ ∃ w rest, s.inbox = .write 0 w :: rest ∧ w ≠ 0x1000) ∨
    (t.phase = .payload ∧ ∃ rest, s.inbox = .write 0 0x1000 :: rest) ∨
    (t.phase = .idle ∧ ∃ rest, s.inbox = .powerOnReset :: rest)

/-! ## Invariants (10 R42) -/

/-- The invariant holds right after power-on reset, in every build. -/
def Obligations.ResetMeetsTheInvariant : Prop :=
  Inv State.reset ∧ ∀ b : Build, Inv (State.powerOn b)

/-- 10 R42, with R22, R23, R25, R27, R28, R32, R33: every step from a state that meets the invariant leads to one that
meets it. -/
def Obligations.StepKeepsTheInvariant : Prop :=
  ∀ s t : State, Inv s → step s = .next t → Inv t

/-- 10 R40, 40 R105: from a state that meets the invariant a step always answers a next state: no unwritten element is
ever read, and the last duration always fits. -/
def Obligations.StepFromTheInvariantNeverStops : Prop :=
  ∀ s : State, Inv s → ∃ t, step s = .next t

/-! ## Laws of a whole frame -/

/-- 40 R103: after RESET_FRAME and any commands, `crc_acc` is the fold over exactly the EMIT_BYTE_CRC bytes. -/
def Obligations.ChecksumCoversExactlyTheCrcBytes : Prop :=
  ∀ (is : List Instr) (s t : State), .resetFrame ∉ is → s.phase ≠ .faulted →
    runCommands (.resetFrame :: is) s = .next t → t.phase ≠ .faulted →
    t.crcAcc = (crcBytes is).foldl (crcStep s.build) 0

/-- 41 R145: the checksum does not depend on the transport or any parameter but the table. -/
def Obligations.ChecksumIsIndependentOfTheTransport : Prop :=
  ∀ (is : List Instr) (s₁ s₂ t₁ t₂ : State), .resetFrame ∉ is →
    s₁.build.crcTable = s₂.build.crcTable → s₁.phase ≠ .faulted → s₂.phase ≠ .faulted →
    runCommands (.resetFrame :: is) s₁ = .next t₁ → runCommands (.resetFrame :: is) s₂ = .next t₂ →
    t₁.phase ≠ .faulted → t₂.phase ≠ .faulted → t₁.crcAcc = t₂.crcAcc

/-- 40 R106: in PULSE_STUFFED a finished frame takes exactly HALF_PERIOD, whatever bits were emitted. -/
def Obligations.FinishedPulseFrameTakesTheHalfPeriod : Prop :=
  ∀ (is : List Instr) (s t : State), Inv s → s.build.transport = .pulseStuffed → s.phase ≠ .faulted →
    runCommands (.resetFrame :: (is ++ [.finish])) s = .next t → t.phase = .done →
    (t.frame.map BitVec.toNat).sum + t.cursor.toNat * 1 = s.build.halfPeriod

/-- 40 R113 on the machine, in PULSE_STUFFED: of a frame of stuffed bytes alone, each from either command, and the
checksum, the bit pattern has no six consecutive 1s, and the inverse 5-ones rule gives the logical bits back. -/
def Obligations.PulseFrameDestuffsToItsBytes : Prop :=
  ∀ (is : List Instr) (s t : State), s.build.transport = .pulseStuffed →
    s.build.durShort ≠ s.build.durLong → s.phase ≠ .faulted → is.all Instr.isStuffed = true →
    runCommands (.resetFrame :: is) s = .next t → t.phase ≠ .faulted →
    ¬ List.replicate 6 true <:+: t.pulseBits ∧
      destuff 0 t.pulseBits = (codedBytes s.build 0 is).flatMap msbFirst

/-- 40 R104, R112, 10 R25: in PULSE_STUFFED the durations of an open frame are those of its stuffed stream, raw bytes
among it. -/
def Obligations.PulseFrameIsItsStuffedStream : Prop :=
  ∀ (is : List Instr) (s t : State), s.build.transport = .pulseStuffed → s.phase ≠ .faulted →
    is.all Instr.isEmit = true → runCommands (.resetFrame :: is) s = .next t → t.phase = .payload →
    t.frame.map BitVec.toNat =
      (emittedStream 0 is).map fun v => if v = true then s.build.durLong.val else s.build.durShort.val

/-- 40 R107, R108, R112, 20 R53, R54: in SWTIMED_STUFFED the line bits of an open frame, the buffer's bytes least
significant bit first and then the packer, are the expansion of its stuffed stream. -/
def Obligations.SwtimedFrameIsItsExpandedStream : Prop :=
  ∀ (is : List Instr) (s t : State), s.build.transport = .swtimedStuffed → s.phase ≠ .faulted →
    is.all Instr.isEmit = true → runCommands (.resetFrame :: is) s = .next t → t.phase = .payload →
    t.lineBits = (emittedStream 0 is).flatMap fun v => if v = true then [false, false, true] else [false, true]

/-- 40 R115 on the machine, in ESCAPED: a frame of EMIT_BYTE_CRC bytes, and where ESC_NOCRC_ESCAPES is true of
EMIT_BYTE_NOCRC and checksum bytes too, holds no 0x7E, holds 0x7D only before 0x5E or 0x5D, and unescapes to those bytes.
Any other byte stands in the frame literally (90 C3) and is not covered. -/
def Obligations.EscapedFrameUnescapesToItsBytes : Prop :=
  ∀ (is : List Instr) (s t : State), s.build.transport = .escaped → s.phase ≠ .faulted →
    is.all (Instr.isEscaped s.build) = true →
    runCommands (.resetFrame :: is) s = .next t → t.phase ≠ .faulted →
    0x7E#8 ∉ t.frameBytes ∧
    (∀ k, t.frameBytes[k]? = some 0x7D#8 →
      t.frameBytes[k + 1]? = some 0x5E#8 ∨ t.frameBytes[k + 1]? = some 0x5D#8) ∧
    unescape t.frameBytes = codedBytes s.build 0 is

/-- 42 R164: after a RESET_FRAME, the commands lead to DONE exactly when they have the form of a frame and no fault
occurs. -/
def Obligations.DoneExactlyByTheFrameGrammar : Prop :=
  ∀ (is : List Instr) (s t : State), .resetFrame ∉ is → s.phase ≠ .faulted →
    runCommands (.resetFrame :: is) s = .next t →
    (t.phase = .done ↔ FrameGrammar is ∧ t.phase ≠ .faulted)

/-- 70 R238: a frame whose worst-case expansion fits CAP never raises BUFFER_OVERFLOW. -/
def Obligations.SizedFramesNeverOverflow : Prop :=
  ∀ (is : List Instr) (s t : State), .resetFrame ∉ is → s.phase ≠ .faulted →
    worstElements s.build is ≤ s.build.cap → runCommands (.resetFrame :: is) s = .next t →
    ¬(t.phase = .faulted ∧ t.cause = .bufferOverflow)

/-- 70 R239: a frame whose worst-case cost leaves HALF_PERIOD at least one unit never raises PERIOD_EXHAUSTED, where a 1
costs no less than a 0. -/
def Obligations.SizedFramesNeverExhaustThePeriod : Prop :=
  ∀ (is : List Instr) (s t : State), .resetFrame ∉ is → s.phase ≠ .faulted → s.build.transport = .pulseStuffed →
    s.build.durShort ≤ s.build.durLong → worstPeriod s.build is + 1 ≤ s.build.halfPeriod →
    runCommands (.resetFrame :: is) s = .next t → ¬(t.phase = .faulted ∧ t.cause = .periodExhausted)
end

