-- ==== Sys2Proof/Laws/Memory.lean ====
section
/-! SUPPORT. The laws of the output buffer: a read after a write, and that every operation keeps the canonical form. -/

namespace Sys2Proof.Machine

@[simp] theorem Memory.read_nil (i : Nat) : Memory.read [] i = none := rfl

theorem Memory.read_cons (a : Nat) (v : Word) (m : Memory) (i : Nat) :
    Memory.read ((a, v) :: m) i = if i = a then some v else Memory.read m i := rfl

/-- Reading the element just written gives the value written, in every list of cells. -/
@[simp] theorem Memory.read_write_same (m : Memory) (i : Nat) (v : Word) :
    Memory.read (Memory.write m i v) i = some v := by
  induction m with
  | nil => simp [Memory.write, Memory.read]
  | cons c m ih =>
    obtain ⟨a, x⟩ := c
    by_cases h1 : i < a
    · simp [Memory.write, Memory.read, h1]
    · by_cases h2 : i = a
      · simp [Memory.write, Memory.read, h2]
      · simp [Memory.write, Memory.read, h1, h2, ih]

/-- A write leaves every other element alone, in every list of cells. -/
theorem Memory.read_write_other (m : Memory) {i j : Nat} (v : Word) (h : j ≠ i) :
    Memory.read (Memory.write m i v) j = Memory.read m j := by
  induction m with
  | nil => simp [Memory.write, Memory.read, h]
  | cons c m ih =>
    obtain ⟨a, x⟩ := c
    by_cases h1 : i < a
    · simp [Memory.write, Memory.read, h1, h]
    · by_cases h2 : i = a
      · subst h2
        simp [Memory.write, Memory.read, h]
      · simp [Memory.write, Memory.read, h1, h2, ih]

theorem Memory.read_write (m : Memory) (i j : Nat) (v : Word) :
    Memory.read (Memory.write m i v) j = if j = i then some v else Memory.read m j := by
  by_cases h : j = i
  · simp [h]
  · simp [h, Memory.read_write_other m v h]

/-- The canonical form, said with the first index: what the induction over `write` needs. -/
theorem Memory.wf_cons (a : Nat) (v : Word) (m : Memory) :
    Memory.wf ((a, v) :: m) = true ↔ (∀ c ∈ m.head?, a < c.1) ∧ Memory.wf m = true := by
  cases m with
  | nil => simp [Memory.wf]
  | cons c m => obtain ⟨b, x⟩ := c; simp [Memory.wf]

/-- A write never puts an index below both the written one and the first listed one at the head. -/
theorem Memory.head_write (m : Memory) (i : Nat) (v : Word) (a : Nat) (hi : a < i) (hm : ∀ c ∈ m.head?, a < c.1) :
    ∀ c ∈ (Memory.write m i v).head?, a < c.1 := by
  cases m with
  | nil => simpa [Memory.write] using hi
  | cons c m =>
    obtain ⟨b, x⟩ := c
    have hb : a < b := hm (b, x) (by simp)
    by_cases h1 : i < b
    · simpa [Memory.write, h1] using hi
    · by_cases h2 : i = b
      · simpa [Memory.write, h2] using hb
      · simpa [Memory.write, h1, h2] using hb

/-- A write keeps the canonical form. -/
theorem Memory.wf_write (m : Memory) (i : Nat) (v : Word) (h : Memory.wf m = true) :
    Memory.wf (Memory.write m i v) = true := by
  induction m with
  | nil => rfl
  | cons c m ih =>
    obtain ⟨a, x⟩ := c
    obtain ⟨hhead, hm⟩ := (Memory.wf_cons a x m).1 h
    by_cases h1 : i < a
    · simp [Memory.write, Memory.wf, h1, h]
    · by_cases h2 : i = a
      · have : Memory.write ((a, x) :: m) i v = (a, v) :: m := by simp [Memory.write, h2]
        exact this ▸ (Memory.wf_cons a v m).2 ⟨hhead, hm⟩
      · have hw : Memory.write ((a, x) :: m) i v = (a, x) :: Memory.write m i v := by simp [Memory.write, h1, h2]
        exact hw ▸ (Memory.wf_cons a x _).2 ⟨Memory.head_write m i v a (by omega) hhead, ih hm⟩

/-- The cells after a write: the written one, and cells that were there before. -/
theorem Memory.mem_write {m : Memory} {i : Nat} {v : Word} {c : Cell} (h : c ∈ Memory.write m i v) :
    c = (i, v) ∨ c ∈ m := by
  induction m with
  | nil => simpa [Memory.write] using h
  | cons d m ih =>
    obtain ⟨a, x⟩ := d
    by_cases h1 : i < a
    · simpa [Memory.write, h1] using h
    · by_cases h2 : i = a
      · rw [Memory.write, if_neg h1, if_pos h2] at h
        rcases List.mem_cons.1 h with h | h
        · exact .inl h
        · exact .inr (List.mem_cons_of_mem _ h)
      · rw [Memory.write, if_neg h1, if_neg h2] at h
        rcases List.mem_cons.1 h with h | h
        · exact .inr (h ▸ List.mem_cons_self)
        · exact (ih h).imp_right (List.mem_cons_of_mem _)

/-- An element that reads as a value is listed. -/
theorem Memory.mem_of_read {m : Memory} {i : Nat} {v : Word} (h : Memory.read m i = some v) : (i, v) ∈ m := by
  induction m with
  | nil => simp at h
  | cons c m ih =>
    obtain ⟨a, x⟩ := c
    by_cases ha : i = a
    · rw [Memory.read_cons, if_pos ha] at h
      obtain rfl := Option.some.inj h
      exact ha ▸ List.mem_cons_self
    · rw [Memory.read_cons, if_neg ha] at h
      exact List.mem_cons_of_mem _ (ih h)

/-- Writing a list of elements keeps the canonical form. -/
theorem Memory.wf_writeAll (vs : List Word) (m : Memory) (i : Nat) (h : Memory.wf m = true) :
    Memory.wf (writeAll m i vs) = true := by
  induction vs generalizing m i with
  | nil => exact h
  | cons v vs ih => exact ih _ _ (Memory.wf_write m i v h)

/-- Elements outside those a list of writes covers read as before. -/
theorem Memory.read_writeAll_other (vs : List Word) (m : Memory) (i j : Nat) (h : j < i ∨ i + vs.length ≤ j) :
    Memory.read (writeAll m i vs) j = Memory.read m j := by
  induction vs generalizing m i with
  | nil => rfl
  | cons v vs ih =>
    have hl : (v :: vs).length = vs.length + 1 := rfl
    rw [writeAll, ih _ _ (by omega), Memory.read_write_other _ _ (by omega)]

/-- Element `k` of a list of writes reads as the `k`-th value. -/
theorem Memory.read_writeAll (vs : List Word) (m : Memory) (i k : Nat) (h : k < vs.length) :
    Memory.read (writeAll m i vs) (i + k) = vs[k]? := by
  induction vs generalizing m i k with
  | nil => simp at h
  | cons v vs ih =>
    cases k with
    | zero => rw [writeAll, Memory.read_writeAll_other _ _ _ _ (by omega)]; simp
    | succ k =>
      have := ih (Memory.write m i v) (i + 1) k (by simpa using h)
      rw [writeAll, show i + (k + 1) = i + 1 + k by omega, this]
      simp

/-- Writing two lists one after the other is writing their concatenation. -/
theorem writeAll_append (us vs : List Word) (m : Memory) (i : Nat) :
    writeAll m i (us ++ vs) = writeAll (writeAll m i us) (i + us.length) vs := by
  induction us generalizing m i with
  | nil => rfl
  | cons u us ih => simp [writeAll, ih, Nat.add_assoc, Nat.add_comm 1]

/-- The memory right after power-on is in canonical form. -/
theorem Memory.wf_powerOn (b : Build) : Memory.wf (State.powerOn b).buf = true := rfl

/-- So is that of the machine right after reset. -/
theorem Memory.wf_reset : Memory.wf State.reset.buf = true := rfl

end Sys2Proof.Machine
end

