-- ==== Sys2Proof/Laws/State.lean ====
section
/-! SUPPORT. One lemma per field per named update of the state, true by `rfl`. -/

namespace Sys2Proof.Machine

section
variable (s : State)

/-! Fault entry (60 R205). -/

@[simp] theorem faultEntry_build (c : Cause) (w : Word) : (faultEntry c w s).build = s.build := rfl
@[simp] theorem faultEntry_phase (c : Cause) (w : Word) : (faultEntry c w s).phase = .faulted := rfl
@[simp] theorem faultEntry_cause (c : Cause) (w : Word) : (faultEntry c w s).cause = c := rfl
@[simp] theorem faultEntry_faultCmd (c : Cause) (w : Word) : (faultEntry c w s).faultCmd = w := rfl
@[simp] theorem faultEntry_cursor (c : Cause) (w : Word) : (faultEntry c w s).cursor = s.cursor := rfl
@[simp] theorem faultEntry_buf (c : Cause) (w : Word) : (faultEntry c w s).buf = s.buf := rfl
@[simp] theorem faultEntry_crcAcc (c : Cause) (w : Word) : (faultEntry c w s).crcAcc = s.crcAcc := rfl
@[simp] theorem faultEntry_ones (c : Cause) (w : Word) : (faultEntry c w s).ones = s.ones := rfl
@[simp] theorem faultEntry_rem (c : Cause) (w : Word) : (faultEntry c w s).rem = s.rem := rfl
@[simp] theorem faultEntry_pkByte (c : Cause) (w : Word) : (faultEntry c w s).pkByte = s.pkByte := rfl
@[simp] theorem faultEntry_pkCount (c : Cause) (w : Word) : (faultEntry c w s).pkCount = s.pkCount := rfl
@[simp] theorem faultEntry_inbox (c : Cause) (w : Word) : (faultEntry c w s).inbox = s.inbox := rfl
@[simp] theorem faultEntry_reply (c : Cause) (w : Word) : (faultEntry c w s).reply = s.reply := rfl
@[simp] theorem faultEntry_draws (c : Cause) (w : Word) : (faultEntry c w s).draws = s.draws := rfl

/-! CrcUpdate (40 R101). -/

@[simp] theorem crcUpdate_build (b : Byte) : (crcUpdate b s).build = s.build := rfl
@[simp] theorem crcUpdate_phase (b : Byte) : (crcUpdate b s).phase = s.phase := rfl
@[simp] theorem crcUpdate_cause (b : Byte) : (crcUpdate b s).cause = s.cause := rfl
@[simp] theorem crcUpdate_faultCmd (b : Byte) : (crcUpdate b s).faultCmd = s.faultCmd := rfl
@[simp] theorem crcUpdate_cursor (b : Byte) : (crcUpdate b s).cursor = s.cursor := rfl
@[simp] theorem crcUpdate_buf (b : Byte) : (crcUpdate b s).buf = s.buf := rfl
@[simp] theorem crcUpdate_crcAcc (b : Byte) : (crcUpdate b s).crcAcc = crcStep s.build s.crcAcc b := rfl
@[simp] theorem crcUpdate_ones (b : Byte) : (crcUpdate b s).ones = s.ones := rfl
@[simp] theorem crcUpdate_rem (b : Byte) : (crcUpdate b s).rem = s.rem := rfl
@[simp] theorem crcUpdate_pkByte (b : Byte) : (crcUpdate b s).pkByte = s.pkByte := rfl
@[simp] theorem crcUpdate_pkCount (b : Byte) : (crcUpdate b s).pkCount = s.pkCount := rfl
@[simp] theorem crcUpdate_inbox (b : Byte) : (crcUpdate b s).inbox = s.inbox := rfl
@[simp] theorem crcUpdate_reply (b : Byte) : (crcUpdate b s).reply = s.reply := rfl
@[simp] theorem crcUpdate_draws (b : Byte) : (crcUpdate b s).draws = s.draws := rfl

/-! The start of a frame (42 R161). -/

@[simp] theorem startFrame_build : (startFrame s).build = s.build := rfl
@[simp] theorem startFrame_phase : (startFrame s).phase = .payload := rfl
@[simp] theorem startFrame_cause : (startFrame s).cause = s.cause := rfl
@[simp] theorem startFrame_faultCmd : (startFrame s).faultCmd = s.faultCmd := rfl
@[simp] theorem startFrame_cursor : (startFrame s).cursor = 0 := rfl
@[simp] theorem startFrame_buf : (startFrame s).buf = s.buf := rfl
@[simp] theorem startFrame_crcAcc : (startFrame s).crcAcc = 0 := rfl
@[simp] theorem startFrame_ones : (startFrame s).ones = if s.build.transport = .pulseStuffed ∨ s.build.transport = .swtimedStuffed then 0 else s.ones := rfl
@[simp] theorem startFrame_rem : (startFrame s).rem = if s.build.transport = .pulseStuffed then BitVec.ofNat 16 s.build.halfPeriod else s.rem := rfl
@[simp] theorem startFrame_pkByte : (startFrame s).pkByte = if s.build.transport = .swtimedStuffed then 0 else s.pkByte := rfl
@[simp] theorem startFrame_pkCount : (startFrame s).pkCount = if s.build.transport = .swtimedStuffed then 0 else s.pkCount := rfl
@[simp] theorem startFrame_inbox : (startFrame s).inbox = s.inbox := rfl
@[simp] theorem startFrame_reply : (startFrame s).reply = s.reply := rfl
@[simp] theorem startFrame_draws : (startFrame s).draws = s.draws := rfl

/-! Power-on reset (70 R230). -/

@[simp] theorem powerOnReset_build : (powerOnReset s).build = s.build := rfl
@[simp] theorem powerOnReset_phase : (powerOnReset s).phase = .idle := rfl
@[simp] theorem powerOnReset_cause : (powerOnReset s).cause = .noFault := rfl
@[simp] theorem powerOnReset_faultCmd : (powerOnReset s).faultCmd = 0 := rfl
@[simp] theorem powerOnReset_cursor : (powerOnReset s).cursor = 0 := rfl
@[simp] theorem powerOnReset_buf : (powerOnReset s).buf = [] := rfl
@[simp] theorem powerOnReset_crcAcc : (powerOnReset s).crcAcc = 0 := rfl
@[simp] theorem powerOnReset_ones : (powerOnReset s).ones = 0 := rfl
@[simp] theorem powerOnReset_rem : (powerOnReset s).rem = 0 := rfl
@[simp] theorem powerOnReset_pkByte : (powerOnReset s).pkByte = 0 := rfl
@[simp] theorem powerOnReset_pkCount : (powerOnReset s).pkCount = 0 := rfl
@[simp] theorem powerOnReset_inbox : (powerOnReset s).inbox = s.inbox := rfl
@[simp] theorem powerOnReset_reply : (powerOnReset s).reply = s.reply := rfl
@[simp] theorem powerOnReset_draws : (powerOnReset s).draws = s.draws := rfl

/-! The next command word. -/

@[simp] theorem withFetchWord_build (nbits w : Nat) : (s.withFetchWord nbits w).build = s.build := rfl
@[simp] theorem withFetchWord_phase (nbits w : Nat) : (s.withFetchWord nbits w).phase = s.phase := rfl
@[simp] theorem withFetchWord_cause (nbits w : Nat) : (s.withFetchWord nbits w).cause = s.cause := rfl
@[simp] theorem withFetchWord_faultCmd (nbits w : Nat) : (s.withFetchWord nbits w).faultCmd = s.faultCmd := rfl
@[simp] theorem withFetchWord_cursor (nbits w : Nat) : (s.withFetchWord nbits w).cursor = s.cursor := rfl
@[simp] theorem withFetchWord_buf (nbits w : Nat) : (s.withFetchWord nbits w).buf = s.buf := rfl
@[simp] theorem withFetchWord_crcAcc (nbits w : Nat) : (s.withFetchWord nbits w).crcAcc = s.crcAcc := rfl
@[simp] theorem withFetchWord_ones (nbits w : Nat) : (s.withFetchWord nbits w).ones = s.ones := rfl
@[simp] theorem withFetchWord_rem (nbits w : Nat) : (s.withFetchWord nbits w).rem = s.rem := rfl
@[simp] theorem withFetchWord_pkByte (nbits w : Nat) : (s.withFetchWord nbits w).pkByte = s.pkByte := rfl
@[simp] theorem withFetchWord_pkCount (nbits w : Nat) : (s.withFetchWord nbits w).pkCount = s.pkCount := rfl
@[simp] theorem withFetchWord_inbox (nbits w : Nat) : (s.withFetchWord nbits w).inbox = .write 0 (BitVec.ofNat 16 (w % 2 ^ nbits)) :: s.inbox := rfl
@[simp] theorem withFetchWord_reply (nbits w : Nat) : (s.withFetchWord nbits w).reply = s.reply := rfl
@[simp] theorem withFetchWord_draws (nbits w : Nat) : (s.withFetchWord nbits w).draws = s.draws := rfl

/-! Appending a list of elements. -/

@[simp] theorem appendAll_build (vs : List Word) : (appendAll vs s).build = s.build := rfl
@[simp] theorem appendAll_phase (vs : List Word) : (appendAll vs s).phase = s.phase := rfl
@[simp] theorem appendAll_cause (vs : List Word) : (appendAll vs s).cause = s.cause := rfl
@[simp] theorem appendAll_faultCmd (vs : List Word) : (appendAll vs s).faultCmd = s.faultCmd := rfl
@[simp] theorem appendAll_cursor (vs : List Word) : (appendAll vs s).cursor = s.cursor + BitVec.ofNat 16 vs.length := rfl
@[simp] theorem appendAll_buf (vs : List Word) : (appendAll vs s).buf = writeAll s.buf s.cursor.toNat vs := rfl
@[simp] theorem appendAll_crcAcc (vs : List Word) : (appendAll vs s).crcAcc = s.crcAcc := rfl
@[simp] theorem appendAll_ones (vs : List Word) : (appendAll vs s).ones = s.ones := rfl
@[simp] theorem appendAll_rem (vs : List Word) : (appendAll vs s).rem = s.rem := rfl
@[simp] theorem appendAll_pkByte (vs : List Word) : (appendAll vs s).pkByte = s.pkByte := rfl
@[simp] theorem appendAll_pkCount (vs : List Word) : (appendAll vs s).pkCount = s.pkCount := rfl
@[simp] theorem appendAll_inbox (vs : List Word) : (appendAll vs s).inbox = s.inbox := rfl
@[simp] theorem appendAll_reply (vs : List Word) : (appendAll vs s).reply = s.reply := rfl
@[simp] theorem appendAll_draws (vs : List Word) : (appendAll vs s).draws = s.draws := rfl

end

/-! The state right after power-on (10 R40). -/

@[simp] theorem powerOn_build (b : Build) : (State.powerOn b).build = b := rfl
@[simp] theorem powerOn_phase (b : Build) : (State.powerOn b).phase = .idle := rfl
@[simp] theorem powerOn_cause (b : Build) : (State.powerOn b).cause = .noFault := rfl
@[simp] theorem powerOn_faultCmd (b : Build) : (State.powerOn b).faultCmd = 0 := rfl
@[simp] theorem powerOn_cursor (b : Build) : (State.powerOn b).cursor = 0 := rfl
@[simp] theorem powerOn_buf (b : Build) : (State.powerOn b).buf = [] := rfl
@[simp] theorem powerOn_crcAcc (b : Build) : (State.powerOn b).crcAcc = 0 := rfl
@[simp] theorem powerOn_ones (b : Build) : (State.powerOn b).ones = 0 := rfl
@[simp] theorem powerOn_rem (b : Build) : (State.powerOn b).rem = 0 := rfl
@[simp] theorem powerOn_pkByte (b : Build) : (State.powerOn b).pkByte = 0 := rfl
@[simp] theorem powerOn_pkCount (b : Build) : (State.powerOn b).pkCount = 0 := rfl
@[simp] theorem powerOn_inbox (b : Build) : (State.powerOn b).inbox = [] := rfl
@[simp] theorem powerOn_reply (b : Build) : (State.powerOn b).reply = 0 := rfl
@[simp] theorem powerOn_draws (b : Build) : (State.powerOn b).draws = 0 := rfl

end Sys2Proof.Machine
end

