-- ==== Sys2Proof/Laws/Ops.lean ====
section
/-! SUPPORT. One lemma per shared operation, saying once everything it can do, and the induction over sequences of
micro-operations packaged once (`Micro.Keeps`). -/

namespace Sys2Proof.Machine

/-! ## Sequencing -/

@[simp] theorem andThen_completed (s : State) (k : State → Micro) : (Micro.completed s).andThen k = k s := rfl

@[simp] theorem andThen_raised (c : Cause) (s : State) (k : State → Micro) :
    (Micro.raised c s).andThen k = .raised c s := rfl

@[simp] theorem andThen_stopped (f : Fault) (k : State → Micro) : (Micro.stopped f).andThen k = .stopped f := rfl

theorem andThen_assoc (m : Micro) (k l : State → Micro) :
    (m.andThen k).andThen l = m.andThen fun s => (k s).andThen l := by
  cases m <;> rfl

/-- A sequence completes exactly when both parts do. -/
theorem andThen_eq_completed {m : Micro} {k : State → Micro} {t : State} :
    m.andThen k = .completed t ↔ ∃ s, m = .completed s ∧ k s = .completed t := by
  cases m <;> simp

/-- A sequence raises a fault in its first part, or in its second after the first completed. -/
theorem andThen_eq_raised {m : Micro} {k : State → Micro} {c : Cause} {t : State} :
    m.andThen k = .raised c t ↔ m = .raised c t ∨ ∃ s, m = .completed s ∧ k s = .raised c t := by
  cases m <;> simp

variable {α : Type}

@[simp] theorem forEach_nil (op : α → State → Micro) (s : State) : forEach op [] s = .completed s := rfl

theorem forEach_cons (op : α → State → Micro) (v : α) (vs : List α) (s : State) :
    forEach op (v :: vs) s = (op v s).andThen (forEach op vs) := rfl

theorem forEach_append (op : α → State → Micro) (us vs : List α) (s : State) :
    forEach op (us ++ vs) s = (forEach op us s).andThen (forEach op vs) := by
  induction us generalizing s with
  | nil => rfl
  | cons u us ih =>
    simp only [List.cons_append, forEach_cons, andThen_assoc]
    congr 1
    funext t
    exact ih t

/-- `m` ends, whether it completes or raises a fault, in a state that satisfies `P`. -/
def Micro.Keeps (P : State → Prop) (m : Micro) : Prop :=
  match m with
  | .completed s => P s
  | .raised _ s => P s
  | .stopped _ => True

theorem Micro.Keeps.andThen {P : State → Prop} {m : Micro} {k : State → Micro} (hm : m.Keeps P)
    (hk : ∀ s, P s → (k s).Keeps P) : (m.andThen k).Keeps P := by
  cases m with
  | completed s => exact hk s hm
  | raised c s => exact hm
  | stopped f => trivial

theorem Micro.Keeps.mono {P Q : State → Prop} {m : Micro} (hm : m.Keeps P) (h : ∀ s, P s → Q s) : m.Keeps Q := by
  cases m with
  | completed s => exact h s hm
  | raised c s => exact h s hm
  | stopped f => trivial

/-- What each turn of a loop keeps, the loop keeps. -/
theorem keeps_forEach {P : State → Prop} {op : α → State → Micro} (h : ∀ v s, P s → (op v s).Keeps P) (vs : List α)
    {s : State} (hs : P s) : (forEach op vs s).Keeps P := by
  induction vs generalizing s with
  | nil => exact hs
  | cons v vs ih => exact (h v s hs).andThen fun _ ht => ih ht

/-! ## The buffer and the encoders -/

/-- Append either finds the buffer full and writes nothing, or writes one element (40 R100). -/
theorem append_cases (v : Word) (s : State) :
    (s.build.cap ≤ s.cursor.toNat ∧ append v s = .raised .bufferOverflow s) ∨
    (s.cursor.toNat < s.build.cap ∧
      append v s = .completed { s with buf := Memory.write s.buf s.cursor.toNat v, cursor := s.cursor + 1 }) := by
  by_cases h : s.build.cap ≤ s.cursor.toNat
  · exact .inl ⟨h, if_pos h⟩
  · exact .inr ⟨by omega, if_neg h⟩

theorem build_cap_le (b : Build) : b.cap ≤ 65535 := b.capPred.isLt

theorem build_cap_pos (b : Build) : 1 ≤ b.cap := Nat.succ_pos _

theorem build_halfPeriod_le (b : Build) : b.halfPeriod ≤ 65535 := b.halfPeriodPred.isLt

theorem build_halfPeriod_pos (b : Build) : 1 ≤ b.halfPeriod := Nat.succ_pos _

theorem pulseDuration_lt (b : Build) (v : Bool) : pulseDuration b v < 65535 := by
  cases v
  · exact b.durShort.isLt
  · exact b.durLong.isLt

/-- The cursor never wraps: below CAP its successor is one more. -/
theorem cursor_succ {s : State} (h : s.cursor.toNat < s.build.cap) : (s.cursor + 1).toNat = s.cursor.toNat + 1 := by
  have := build_cap_le s.build
  rw [BitVec.toNat_add]
  exact Nat.mod_eq_of_lt (by simp; omega)

/-- PulseEmitBit: no room; appended but no time left; or appended and charged (40 R104). -/
theorem pulseEmitBit_cases (v : Bool) (s : State) :
    let appended : State :=
      { s with
        buf := Memory.write s.buf s.cursor.toNat (BitVec.ofNat 16 (pulseDuration s.build v)), cursor := s.cursor + 1 }
    (s.build.cap ≤ s.cursor.toNat ∧ pulseEmitBit v s = .raised .bufferOverflow s) ∨
    (s.cursor.toNat < s.build.cap ∧ s.rem.toNat ≤ pulseDuration s.build v + gap ∧
      pulseEmitBit v s = .raised .periodExhausted appended) ∨
    (s.cursor.toNat < s.build.cap ∧ pulseDuration s.build v + gap < s.rem.toNat ∧
      pulseEmitBit v s =
        .completed { appended with rem := BitVec.ofNat 16 (s.rem.toNat - (pulseDuration s.build v + gap)) }) := by
  intro appended
  rcases append_cases (BitVec.ofNat 16 (pulseDuration s.build v)) s with ⟨hc, ha⟩ | ⟨hc, ha⟩
  · exact .inl ⟨hc, by rw [pulseEmitBit, ha]; rfl⟩
  · by_cases hr : s.rem.toNat ≤ pulseDuration s.build v + gap
    · exact .inr (.inl ⟨hc, hr, by rw [pulseEmitBit, ha]; exact if_pos hr⟩)
    · exact .inr (.inr ⟨hc, by omega, by rw [pulseEmitBit, ha]; exact if_neg hr⟩)

/-- PulseFinish: nothing emitted, the model's two stops, or the last element absorbs `rem` (40 R105). -/
theorem pulseFinish_cases (s : State) :
    (s.cursor = 0 ∧ pulseFinish s = .raised .finishEmpty s) ∨
    (s.cursor ≠ 0 ∧ Memory.read s.buf (s.cursor.toNat - 1) = none ∧ pulseFinish s = .stopped .unwrittenElement) ∨
    (s.cursor ≠ 0 ∧ ∃ v, Memory.read s.buf (s.cursor.toNat - 1) = some v ∧ 65536 ≤ v.toNat + s.rem.toNat ∧
      pulseFinish s = .stopped .durationDoesNotFit) ∨
    (s.cursor ≠ 0 ∧ ∃ v, Memory.read s.buf (s.cursor.toNat - 1) = some v ∧ v.toNat + s.rem.toNat < 65536 ∧
      pulseFinish s =
        .completed { s with buf := Memory.write s.buf (s.cursor.toNat - 1) (v + s.rem), rem := 0 }) := by
  by_cases hc : s.cursor = 0
  · exact .inl ⟨hc, if_pos hc⟩
  · cases hv : Memory.read s.buf (s.cursor.toNat - 1) with
    | none => exact .inr (.inl ⟨hc, rfl, by rw [pulseFinish, if_neg hc, hv]⟩)
    | some v =>
      by_cases hf : v.toNat + s.rem.toNat < 65536
      · exact .inr (.inr (.inr ⟨hc, v, rfl, hf, by rw [pulseFinish, if_neg hc, hv]; exact if_pos hf⟩))
      · exact .inr (.inr (.inl ⟨hc, v, rfl, by omega, by rw [pulseFinish, if_neg hc, hv]; exact if_neg hf⟩))

/-- The byte in progress after one more physical bit (40 R107). -/
def packedByte (p : Bool) (s : State) : Byte := s.pkByte ||| ((BitVec.ofBool p).setWidth 8 <<< s.pkCount.toNat)

/-- SwPack: the bit is packed; or the 8th bit flushes the byte; or the flush finds no room (40 R107). -/
theorem swPack_cases (p : Bool) (s : State) :
    (s.pkCount ≠ 7 ∧ swPack p s = .completed { s with pkByte := packedByte p s, pkCount := s.pkCount + 1 }) ∨
    (s.pkCount = 7 ∧ s.build.cap ≤ s.cursor.toNat ∧
      swPack p s = .raised .bufferOverflow { s with pkByte := packedByte p s }) ∨
    (s.pkCount = 7 ∧ s.cursor.toNat < s.build.cap ∧
      swPack p s = .completed { s with
        buf := Memory.write s.buf s.cursor.toNat (byteElement (packedByte p s))
        cursor := s.cursor + 1
        pkByte := 0
        pkCount := 0 }) := by
  by_cases h7 : s.pkCount = 7
  · rcases append_cases (byteElement (packedByte p s)) { s with pkByte := packedByte p s } with ⟨hc, ha⟩ | ⟨hc, ha⟩
    · refine .inr (.inl ⟨h7, hc, ?_⟩)
      simp only [swPack, h7, if_true]
      simp only [packedByte, h7] at ha ⊢
      rw [ha]
      rfl
    · refine .inr (.inr ⟨h7, hc, ?_⟩)
      simp only [swPack, h7, if_true]
      simp only [packedByte, h7] at ha ⊢
      rw [ha]
      rfl
  · exact .inl ⟨h7, if_neg h7⟩

/-- PbeEmitBit in each transport (40 R110). -/
theorem pbeEmitBit_pulse {s : State} (h : s.build.transport = .pulseStuffed) (v : Bool) :
    pbeEmitBit v s = pulseEmitBit v s := by
  simp [pbeEmitBit, h]

theorem pbeEmitBit_swtimed {s : State} (h : s.build.transport = .swtimedStuffed) (v : Bool) :
    pbeEmitBit v s = swEmitBit v s := by
  simp [pbeEmitBit, h]

/-- StuffedBit of a 0: the bit, and the count is cleared (40 R111). -/
theorem stuffedBit_false (s : State) :
    stuffedBit false s = (pbeEmitBit false s).andThen fun s1 => .completed { s1 with ones := 0 } := rfl

/-- StuffedBit of a 1: the bit, and the fifth in a row is followed by a stuffed 0 (40 R111). -/
theorem stuffedBit_true (s : State) :
    stuffedBit true s = (pbeEmitBit true s).andThen fun s1 =>
      if s1.ones.toNat = 4 then (pbeEmitBit false s1).andThen fun s2 => .completed { s2 with ones := 0 }
      else .completed { s1 with ones := s1.ones + 1 } := rfl

/-- NoCrcByte in each transport (41 R142). -/
theorem noCrcByte_cases (d : Byte) (s : State) :
    (s.build.transport = .escaped ∧ noCrcByte d s = forEach appendByte (noCrcBytes s.build d) s) ∨
    (s.build.transport ≠ .escaped ∧ noCrcByte d s = stuffByte d s) := by
  cases h : s.build.transport with
  | pulseStuffed => exact .inr ⟨by simp, by simp [noCrcByte, h]⟩
  | swtimedStuffed => exact .inr ⟨by simp, by simp [noCrcByte, h]⟩
  | escaped =>
    refine .inl ⟨rfl, ?_⟩
    cases he : s.build.escNocrcEscapes with
    | true => simp [noCrcByte, h, he, noCrcBytes, escAppend]
    | false =>
      simp only [noCrcByte, h, he, noCrcBytes]
      cases hd : appendByte d s <;> simp [forEach_cons, hd]

/-! ## What every micro-operation leaves alone -/

/-- The fields no micro-operation writes: the build, the sequencer's fields and the model's own. -/
def SameOutside (s t : State) : Prop :=
  t.build = s.build ∧ t.phase = s.phase ∧ t.cause = s.cause ∧ t.faultCmd = s.faultCmd ∧ t.crcAcc = s.crcAcc ∧
    t.inbox = s.inbox ∧ t.reply = s.reply ∧ t.draws = s.draws

theorem SameOutside.refl (s : State) : SameOutside s s := ⟨rfl, rfl, rfl, rfl, rfl, rfl, rfl, rfl⟩

theorem SameOutside.trans {s t u : State} (h : SameOutside s t) (k : SameOutside t u) : SameOutside s u := by
  obtain ⟨h1, h2, h3, h4, h5, h6, h7, h8⟩ := h
  obtain ⟨k1, k2, k3, k4, k5, k6, k7, k8⟩ := k
  exact ⟨k1.trans h1, k2.trans h2, k3.trans h3, k4.trans h4, k5.trans h5, k6.trans h6, k7.trans h7, k8.trans h8⟩

/-- A micro-operation that keeps those fields from its own start keeps them from any earlier one. -/
theorem Micro.Keeps.since {s u : State} {m : Micro} (hu : SameOutside s u) (hm : m.Keeps (SameOutside u)) :
    m.Keeps (SameOutside s) :=
  hm.mono fun _ h => hu.trans h

theorem append_sameOutside (v : Word) (s : State) : (append v s).Keeps (SameOutside s) := by
  rcases append_cases v s with ⟨_, h⟩ | ⟨_, h⟩ <;> rw [h] <;> exact ⟨rfl, rfl, rfl, rfl, rfl, rfl, rfl, rfl⟩

theorem pulseEmitBit_sameOutside (v : Bool) (s : State) : (pulseEmitBit v s).Keeps (SameOutside s) := by
  rcases pulseEmitBit_cases v s with ⟨_, h⟩ | ⟨_, _, h⟩ | ⟨_, _, h⟩ <;> rw [h] <;>
    exact ⟨rfl, rfl, rfl, rfl, rfl, rfl, rfl, rfl⟩

theorem swPack_sameOutside (p : Bool) (s : State) : (swPack p s).Keeps (SameOutside s) := by
  rcases swPack_cases p s with ⟨_, h⟩ | ⟨_, _, h⟩ | ⟨_, _, h⟩ <;> rw [h] <;>
    exact ⟨rfl, rfl, rfl, rfl, rfl, rfl, rfl, rfl⟩

/-- A loop over an operation that keeps those fields keeps them. -/
theorem forEach_sameOutside {op : α → State → Micro} (h : ∀ v s, (op v s).Keeps (SameOutside s)) (vs : List α)
    (s : State) : (forEach op vs s).Keeps (SameOutside s) :=
  keeps_forEach (fun v t ht => (h v t).since ht) vs (SameOutside.refl s)

theorem swEmitBit_sameOutside (v : Bool) (s : State) : (swEmitBit v s).Keeps (SameOutside s) :=
  forEach_sameOutside swPack_sameOutside _ s

theorem pbeEmitBit_sameOutside (v : Bool) (s : State) : (pbeEmitBit v s).Keeps (SameOutside s) := by
  unfold pbeEmitBit
  split
  · exact pulseEmitBit_sameOutside v s
  · exact swEmitBit_sameOutside v s
  · exact SameOutside.refl s

theorem stuffedBit_sameOutside (b : Bool) (s : State) : (stuffedBit b s).Keeps (SameOutside s) := by
  cases b with
  | false =>
    rw [stuffedBit_false]
    exact (pbeEmitBit_sameOutside false s).andThen fun _ h => h
  | true =>
    rw [stuffedBit_true]
    refine (pbeEmitBit_sameOutside true s).andThen fun t ht => ?_
    by_cases h4 : t.ones.toNat = 4
    · rw [if_pos h4]
      exact ((pbeEmitBit_sameOutside false t).since ht).andThen fun _ h => h
    · rw [if_neg h4]
      exact ht

theorem stuffByte_sameOutside (d : Byte) (s : State) : (stuffByte d s).Keeps (SameOutside s) :=
  forEach_sameOutside stuffedBit_sameOutside _ s

theorem rawByte_sameOutside (d : Byte) (s : State) : (rawByte d s).Keeps (SameOutside s) :=
  forEach_sameOutside pbeEmitBit_sameOutside _ s

theorem escAppend_sameOutside (b : Byte) (s : State) : (escAppend b s).Keeps (SameOutside s) :=
  forEach_sameOutside (fun d t => append_sameOutside (byteElement d) t) _ s

theorem noCrcByte_sameOutside (d : Byte) (s : State) : (noCrcByte d s).Keeps (SameOutside s) := by
  rcases noCrcByte_cases d s with ⟨_, h⟩ | ⟨_, h⟩ <;> rw [h]
  · exact forEach_sameOutside (fun d t => append_sameOutside (byteElement d) t) _ s
  · exact stuffByte_sameOutside d s

theorem swPad_sameOutside (n : Nat) (s : State) : (swPad n s).Keeps (SameOutside s) := by
  induction n generalizing s with
  | zero => exact SameOutside.refl s
  | succ n ih =>
    rw [swPad]
    split
    · exact SameOutside.refl s
    · exact (swPack_sameOutside true s).andThen fun t ht => (ih t).since ht

theorem pulseFinish_sameOutside (s : State) : (pulseFinish s).Keeps (SameOutside s) := by
  rcases pulseFinish_cases s with ⟨_, h⟩ | ⟨_, _, h⟩ | ⟨_, v, _, _, h⟩ | ⟨_, v, _, _, h⟩ <;> rw [h]
  · exact SameOutside.refl s
  · trivial
  · trivial
  · exact ⟨rfl, rfl, rfl, rfl, rfl, rfl, rfl, rfl⟩

/-! ## Commands, accesses and steps -/

/-- How a command ends: it completes, its fault is entered, or the model stops (60 R205). -/
theorem settle_eq_next {w : Word} {m : Micro} {t : State} :
    settle w m = .next t ↔ m = .completed t ∨ ∃ c s, m = .raised c s ∧ t = faultEntry c w s := by
  cases m <;> simp [settle, eq_comm]

/-- What running a command can do: nothing in FAULTED, SEQUENCE_ERROR, or its own micro-operations (42 R160). -/
theorem runCommand_cases (i : Instr) (body : State → Micro) (s : State) :
    (s.phase = .faulted ∧ runCommand i body s = .next s) ∨
    (s.phase ≠ .faulted ∧ legal i s.phase = false ∧
      runCommand i body s = .next (faultEntry .sequenceError (encode i) s)) ∨
    (s.phase ≠ .faulted ∧ legal i s.phase = true ∧ runCommand i body s = settle (encode i) (body s)) := by
  by_cases hp : s.phase = .faulted
  · exact .inl ⟨hp, if_pos hp⟩
  · by_cases hl : legal i s.phase = false
    · exact .inr (.inl ⟨hp, hl, by rw [runCommand, if_neg hp, if_pos hl]⟩)
    · exact .inr (.inr ⟨hp, by simpa using hl, by rw [runCommand, if_neg hp, if_neg hl]⟩)

/-- The micro-operations of each command, so that one lemma about `runCommand` serves them all. -/
def commandBody : Instr → State → Micro
  | .resetFrame => fun s => .completed (startFrame s)
  | .emitByteCrc d => emitByteCrcBody d
  | .emitByteNocrc d => noCrcByte d
  | .emitByteRaw d => emitByteRawBody d
  | .emitChecksum => emitChecksumBody
  | .finish => finishBody

/-- Every command is its micro-operations behind the phase check. -/
theorem exec_eq (i : Instr) (s : State) : exec i s = runCommand i (commandBody i) s := by
  cases i <;> rfl

/-- No command is refused. -/
theorem exec_ne_refused (i : Instr) (s : State) (r : Refusal) : exec i s ≠ .refused r := by
  rw [exec_eq]
  rcases runCommand_cases i (commandBody i) s with ⟨_, h⟩ | ⟨_, _, h⟩ | ⟨_, _, h⟩ <;> rw [h] <;> simp
  cases commandBody i s <;> simp [settle]

/-- What delivering a word can do (42 R160). -/
theorem deliver_cases (w : Word) (s : State) :
    (s.phase = .faulted ∧ deliver w s = .next s) ∨
    (s.phase ≠ .faulted ∧ (∃ e, decode w = .error e) ∧ deliver w s = .next (faultEntry .illegalCommand w s)) ∨
    (s.phase ≠ .faulted ∧ ∃ i, decode w = .ok i ∧ deliver w s = exec i s) := by
  by_cases hp : s.phase = .faulted
  · exact .inl ⟨hp, if_pos hp⟩
  · cases hd : decode w with
    | error e => exact .inr (.inl ⟨hp, ⟨e, rfl⟩, by rw [deliver, if_neg hp, hd]⟩)
    | ok i => exact .inr (.inr ⟨hp, i, rfl, by rw [deliver, if_neg hp, hd]⟩)

/-- What a DATA read can do (20 R59). -/
theorem readDataPort_cases (i : Nat) (s : State) :
    (s.phase = .done ∧ i < s.cursor.toNat ∧ ∃ v, Memory.read s.buf i = some v ∧
      readDataPort i s = .next { s with reply := v }) ∨
    (s.phase = .done ∧ i < s.cursor.toNat ∧ Memory.read s.buf i = none ∧
      readDataPort i s = .fault .unwrittenElement) ∨
    (¬(s.phase = .done ∧ i < s.cursor.toNat) ∧
      readDataPort i s = .next { s with reply := Config.freeElement s.draws, draws := s.draws + 1 }) := by
  by_cases h : s.phase = .done ∧ i < s.cursor.toNat
  · cases hv : Memory.read s.buf i with
    | none => exact .inr (.inl ⟨h.1, h.2, rfl, by rw [readDataPort, if_pos h, hv]⟩)
    | some v => exact .inl ⟨h.1, h.2, v, rfl, by rw [readDataPort, if_pos h, hv]⟩
  · exact .inr (.inr ⟨h, if_neg h⟩)

/-- What a step can do: nothing waiting, or the oldest access taken (60 R212). -/
theorem step_cases (s : State) :
    (s.inbox = [] ∧ step s = .next s) ∨
    (∃ offset w rest, s.inbox = .write offset w :: rest ∧ offset ≠ 0 ∧ step s = .next { s with inbox := rest }) ∨
    (∃ w rest, s.inbox = .write 0 w :: rest ∧ step s = deliver w { s with inbox := rest }) ∨
    (∃ offset rest, s.inbox = .readRegister offset :: rest ∧
      step s = .next { s with inbox := rest, reply := s.register offset }) ∨
    (∃ i rest, s.inbox = .readData i :: rest ∧ step s = readDataPort i { s with inbox := rest }) ∨
    (∃ rest, s.inbox = .powerOnReset :: rest ∧ step s = .next (powerOnReset { s with inbox := rest })) := by
  unfold step takeAccess
  cases h : s.inbox with
  | nil => exact .inl ⟨rfl, rfl⟩
  | cons a rest =>
    refine .inr ?_
    cases a with
    | write offset w =>
      by_cases ho : offset = 0
      · subst ho
        exact .inr (.inl ⟨w, rest, rfl, rfl⟩)
      · exact .inl ⟨offset, w, rest, rfl, ho, if_neg ho⟩
    | readRegister offset => exact .inr (.inr (.inl ⟨offset, rest, rfl, rfl⟩))
    | readData i => exact .inr (.inr (.inr (.inl ⟨i, rest, rfl, rfl⟩)))
    | powerOnReset => exact .inr (.inr (.inr (.inr ⟨rest, rfl, rfl⟩)))

end Sys2Proof.Machine
end

