-- ==== Sys2Proof/Laws/PerInstr.lean ====
section
/-! SUPPORT. The encoding fields of every command, one lemma per constructor. -/

namespace Sys2Proof.Laws

/-- What the word of a command shows: its opcode is assigned (30 R73), RSV is 0 (30 R76), and DATA is 0 where the command
takes no operand and the operand where it takes one (30 R72, R77). -/
def RoundTrip.Statement (i : Instr) : Prop :=
  opcodeAssigned (opField (encode i)) = true ∧ rsvField (encode i) = 0 ∧
    opcodeMeaning (opField (encode i)) (dataField (encode i)) = .ok i

/-- The value of a command word: opcode, four zero bits, DATA (30 R71). -/
theorem commandWord_toNat (op : BitVec 4) (d : Byte) : (commandWord op d).toNat = op.toNat * 4096 + d.toNat := by
  have h : (commandWord op d).toNat = ((op ++ 0#4) ++ d).toNat := rfl
  rw [h, BitVec.toNat_append, BitVec.toNat_append, ← Nat.shiftLeft_add_eq_or_of_lt d.isLt,
    ← Nat.shiftLeft_add_eq_or_of_lt (by decide : (0#4).toNat < 2 ^ 4)]
  simp only [Nat.shiftLeft_eq, BitVec.toNat_ofNat]
  omega

/-- The fields of a word by their values (30 R71). -/
theorem opField_toNat (w : Word) : (opField w).toNat = w.toNat / 4096 := by
  have := w.isLt
  simp only [opField, BitVec.extractLsb'_toNat, Nat.shiftRight_eq_div_pow]
  omega

theorem rsvField_toNat (w : Word) : (rsvField w).toNat = w.toNat / 256 % 16 := by
  simp [rsvField, BitVec.extractLsb'_toNat, Nat.shiftRight_eq_div_pow]

theorem dataField_toNat (w : Word) : (dataField w).toNat = w.toNat % 256 := by
  simp [dataField, BitVec.extractLsb'_toNat]

/-- The fields of an assembled command word (30 R71). -/
theorem opField_commandWord (op : BitVec 4) (d : Byte) : opField (commandWord op d) = op := by
  have := d.isLt
  apply BitVec.eq_of_toNat_eq
  rw [opField_toNat, commandWord_toNat]
  omega

theorem rsvField_commandWord (op : BitVec 4) (d : Byte) : rsvField (commandWord op d) = 0 := by
  have := d.isLt
  apply BitVec.eq_of_toNat_eq
  rw [rsvField_toNat, commandWord_toNat, show (0 : BitVec 4).toNat = 0 from rfl]
  omega

theorem dataField_commandWord (op : BitVec 4) (d : Byte) : dataField (commandWord op d) = d := by
  have := d.isLt
  apply BitVec.eq_of_toNat_eq
  rw [dataField_toNat, commandWord_toNat]
  omega

theorem RoundTrip.resetFrame : RoundTrip.Statement .resetFrame := by
  exact ⟨by decide, by decide, by decide⟩

theorem RoundTrip.emitByteCrc (d : Byte) : RoundTrip.Statement (.emitByteCrc d) := by
  simp only [RoundTrip.Statement, encode, opField_commandWord, rsvField_commandWord, dataField_commandWord]
  exact ⟨rfl, trivial, rfl⟩

theorem RoundTrip.emitByteNocrc (d : Byte) : RoundTrip.Statement (.emitByteNocrc d) := by
  simp only [RoundTrip.Statement, encode, opField_commandWord, rsvField_commandWord, dataField_commandWord]
  exact ⟨rfl, trivial, rfl⟩

theorem RoundTrip.emitByteRaw (d : Byte) : RoundTrip.Statement (.emitByteRaw d) := by
  simp only [RoundTrip.Statement, encode, opField_commandWord, rsvField_commandWord, dataField_commandWord]
  exact ⟨rfl, trivial, rfl⟩

theorem RoundTrip.emitChecksum : RoundTrip.Statement .emitChecksum := by
  exact ⟨by decide, by decide, by decide⟩

theorem RoundTrip.finish : RoundTrip.Statement .finish := by
  exact ⟨by decide, by decide, by decide⟩

end Sys2Proof.Laws
end

