-- ==== Sys2Proof/Laws/Streams.lean ====
section
/-! SUPPORT. The laws of the bit and byte streams: the 5-ones rule and its inverse (40 R113), the escape substitution and
its inverse (40 R115), and packing (20 R54). -/

namespace Sys2Proof.Machine

/-! ## The 5-ones rule -/

theorem stuff_append (n : Nat) (as bs : List Bool) :
    stuff n (as ++ bs) = stuff n as ++ stuff (onesAfter n as) bs := by
  induction as generalizing n with
  | nil => rfl
  | cons a as ih =>
    cases a with
    | false => simp [stuff, onesAfter, ih]
    | true => by_cases h : n + 1 = stuffLimit <;> simp [stuff, onesAfter, h, ih]

theorem onesAfter_append (n : Nat) (as bs : List Bool) :
    onesAfter n (as ++ bs) = onesAfter (onesAfter n as) bs := by
  induction as generalizing n with
  | nil => rfl
  | cons a as ih =>
    cases a with
    | false => simp [onesAfter, ih]
    | true => by_cases h : n + 1 = stuffLimit <;> simp [onesAfter, h, ih]

/-- The count of ones stays below STUFF_LIMIT (10 R25). -/
theorem onesAfter_lt (n : Nat) (bs : List Bool) (h : n < stuffLimit) : onesAfter n bs < stuffLimit := by
  induction bs generalizing n with
  | nil => exact h
  | cons b bs ih =>
    cases b with
    | false => exact ih 0 (by decide)
    | true =>
      by_cases h5 : n + 1 = stuffLimit
      · rw [onesAfter, if_pos h5]
        exact ih 0 (by decide)
      · rw [onesAfter, if_neg h5]
        exact ih (n + 1) (by omega)

/-- The inverse rule undoes the rule, from any count below STUFF_LIMIT. -/
theorem destuff_stuff (n : Nat) (bs : List Bool) (h : n < stuffLimit) : destuff n (stuff n bs) = bs := by
  induction bs generalizing n with
  | nil => rfl
  | cons b bs ih =>
    have hn : n ≠ stuffLimit := by omega
    cases b with
    | false => simp [stuff, destuff, hn, ih 0 (by decide)]
    | true =>
      by_cases h5 : n + 1 = stuffLimit
      · simp [stuff, destuff, hn, h5, ih 0 (by decide)]
      · simp [stuff, destuff, hn, h5, ih (n + 1) (by omega)]

/-- A run of 1s at the start of a stuffed stream fits between the count and STUFF_LIMIT. -/
theorem stuff_head_run (n : Nat) (bs : List Bool) (h : n < stuffLimit) {k : Nat}
    (hk : List.replicate k true <+: stuff n bs) : n + k ≤ stuffLimit := by
  induction bs generalizing n k with
  | nil =>
    have : k = 0 := by simpa [stuff] using hk
    omega
  | cons b bs ih =>
    cases k with
    | zero => omega
    | succ k =>
      cases b with
      | false => simp [stuff, List.replicate_succ] at hk
      | true =>
        by_cases h5 : n + 1 = stuffLimit
        · cases k with
          | zero => omega
          | succ k => simp [stuff, h5, List.replicate_succ] at hk
        · rw [stuff, if_neg h5, List.replicate_succ, List.cons_prefix_cons] at hk
          have := ih (n + 1) (by omega) hk.2
          omega

/-- A stuffed stream has no six consecutive 1s (40 R113). -/
theorem stuff_no_six_ones (n : Nat) (bs : List Bool) (h : n < stuffLimit) :
    ¬ List.replicate 6 true <:+: stuff n bs := by
  have head : ∀ (m : Nat) (cs : List Bool), m < stuffLimit → ¬ List.replicate 6 true <+: stuff m cs := by
    intro m cs hm hp
    have := stuff_head_run m cs hm hp
    simp only [stuffLimit] at this
    omega
  induction bs generalizing n with
  | nil => simp [stuff]
  | cons b bs ih =>
    intro hi
    cases b with
    | false =>
      rw [stuff] at hi
      rcases List.infix_cons_iff.1 hi with hp | hi
      · exact head n (false :: bs) h (by rw [stuff]; exact hp)
      · exact ih 0 (by decide) hi
    | true =>
      have hp := head n (true :: bs) h
      by_cases h5 : n + 1 = stuffLimit
      · rw [stuff, if_pos h5] at hi hp
        rcases List.infix_cons_iff.1 hi with hq | hi
        · exact hp hq
        · rcases List.infix_cons_iff.1 hi with hq | hi
          · simp [List.replicate_succ] at hq
          · exact ih 0 (by decide) hi
      · rw [stuff, if_neg h5] at hi hp
        rcases List.infix_cons_iff.1 hi with hq | hi
        · exact hp hq
        · exact ih (n + 1) (by omega) hi

/-! ## The escape substitution -/

theorem escapeBytes_cases (b : Byte) :
    (b = 0x7E ∧ escapeBytes b = [0x7D, 0x5E]) ∨ (b = 0x7D ∧ escapeBytes b = [0x7D, 0x5D]) ∨
    (b ≠ 0x7E ∧ b ≠ 0x7D ∧ escapeBytes b = [b]) := by
  by_cases h1 : b = 0x7E
  · exact .inl ⟨h1, by subst h1; rfl⟩
  · by_cases h2 : b = 0x7D
    · exact .inr (.inl ⟨h2, by subst h2; rfl⟩)
    · exact .inr (.inr ⟨h1, h2, (if_neg h1).trans (if_neg h2)⟩)

/-- An unreserved byte passes the inverse transform as it is. -/
theorem unescape_cons (b : Byte) (bs : List Byte) (h : b ≠ 0x7D) : unescape (b :: bs) = b :: unescape bs := by
  cases bs with
  | nil => rfl
  | cons c cs =>
    have h' : b ≠ 0x7D#8 := h
    simp [unescape, escFlagSeq, escEscSeq, h']

/-- The inverse transform undoes the substitution (40 R115). -/
theorem unescape_escape (ds : List Byte) : unescape (ds.flatMap escapeBytes) = ds := by
  induction ds with
  | nil => rfl
  | cons d ds ih =>
    rw [List.flatMap_cons]
    rcases escapeBytes_cases d with ⟨hd, he⟩ | ⟨hd, he⟩ | ⟨_, hd, he⟩ <;> rw [he]
    · simp [unescape, escFlagSeq, escFlag, ih, hd]
    · simp [unescape, escFlagSeq, escEscSeq, escEsc, ih, hd]
    · rw [List.singleton_append, unescape_cons d _ hd, ih]

/-- No flag byte comes out of the substitution (40 R115). -/
theorem flag_not_mem_escape (ds : List Byte) : 0x7E#8 ∉ ds.flatMap escapeBytes := by
  intro h
  obtain ⟨d, _, hd⟩ := List.mem_flatMap.1 h
  rcases escapeBytes_cases d with ⟨_, he⟩ | ⟨_, he⟩ | ⟨hne, _, he⟩ <;> rw [he] at hd
  · revert hd; decide
  · revert hd; decide
  · exact hne (List.mem_singleton.1 hd).symm

/-! ## Packing -/

/-- Packing eight bits at a time, whatever is left going on into what follows (20 R54). -/
theorem pack_append (as bs : List Bool) :
    packBytes (as ++ bs) = packBytes as ++ packBytes (packRest as ++ bs) ∧
      packRest (as ++ bs) = packRest (packRest as ++ bs) := by
  induction as using packBytes.induct with
  | case1 b0 b1 b2 b3 b4 b5 b6 b7 as ih =>
    simp only [List.cons_append, packBytes, packRest]
    exact ⟨by rw [ih.1], ih.2⟩
  | case2 as h =>
    have h1 : packBytes as = [] := by
      unfold packBytes
      split
      · exact absurd rfl (h _ _ _ _ _ _ _ _ _)
      · rfl
    have h2 : packRest as = as := by
      unfold packRest
      split
      · exact absurd rfl (h _ _ _ _ _ _ _ _ _)
      · rfl
    simp [h1, h2]

/-- Fewer than eight bits are left over. -/
theorem packRest_length_lt (as : List Bool) : (packRest as).length < 8 := by
  induction as using packRest.induct with
  | case1 b0 b1 b2 b3 b4 b5 b6 b7 as ih => simpa [packRest] using ih
  | case2 as h =>
    unfold packRest
    split
    · exact absurd rfl (h _ _ _ _ _ _ _ _ _)
    · match as, h with
      | [], _ => decide
      | [_], _ => simp
      | [_, _], _ => simp
      | [_, _, _], _ => simp
      | [_, _, _, _], _ => simp
      | [_, _, _, _, _], _ => simp
      | [_, _, _, _, _, _], _ => simp
      | [_, _, _, _, _, _, _], _ => simp
      | _ :: _ :: _ :: _ :: _ :: _ :: _ :: _ :: _, h => exact absurd rfl (h _ _ _ _ _ _ _ _ _)

/-- No bit is lost: eight per full byte and the rest. -/
theorem packBytes_length (as : List Bool) : 8 * (packBytes as).length + (packRest as).length = as.length := by
  induction as using packBytes.induct with
  | case1 b0 b1 b2 b3 b4 b5 b6 b7 as ih =>
    simp only [packBytes, packRest, List.length_cons]
    omega
  | case2 as h =>
    unfold packBytes packRest
    split
    · exact absurd rfl (h _ _ _ _ _ _ _ _ _)
    · simp

end Sys2Proof.Machine
end

