-- ==== Sys2Proof/Laws/Runs.lean ====
section
/-! SUPPORT. Sequences of micro-operations as one step: what the pulse encoder and Append do to a whole list, the bit
stuffer as the encoder over the stuffed stream, and commands run one after the other. -/

namespace Sys2Proof.Machine

/-! ## Appending -/

theorem cursor_add {s : State} {n : Nat} (h : s.cursor.toNat + n ≤ s.build.cap) :
    (s.cursor + BitVec.ofNat 16 n).toNat = s.cursor.toNat + n := by
  have := build_cap_le s.build
  rw [BitVec.toNat_add, BitVec.toNat_ofNat]
  omega

/-- Appending one element and then others is appending them all. -/
theorem appendAll_cons (v : Word) (vs : List Word) {s : State} (h : s.cursor.toNat < s.build.cap) :
    appendAll (v :: vs) s =
      appendAll vs { s with buf := Memory.write s.buf s.cursor.toNat v, cursor := s.cursor + 1 } := by
  have hc : (s.cursor + 1#16).toNat = s.cursor.toNat + 1 := cursor_succ h
  have ha : s.cursor + BitVec.ofNat 16 (vs.length + 1) = s.cursor + 1 + BitVec.ofNat 16 vs.length := by
    apply BitVec.eq_of_toNat_eq
    show (s.cursor + BitVec.ofNat 16 (vs.length + 1)).toNat = (s.cursor + 1#16 + BitVec.ofNat 16 vs.length).toNat
    rw [BitVec.toNat_add, BitVec.toNat_add (s.cursor + 1#16), hc, BitVec.toNat_ofNat, BitVec.toNat_ofNat]
    omega
  simp only [appendAll, writeAll, List.length_cons]
  congr 1
  exact congrArg (writeAll _ · vs) hc.symm

/-- Bytes that fit are appended one after the other. -/
theorem forEach_appendByte (bytes : List Byte) (s : State) (h : escapedFits bytes s) :
    forEach appendByte bytes s = .completed (escapedEmitted bytes s) := by
  induction bytes generalizing s with
  | nil => simp [escapedEmitted, appendAll, writeAll]
  | cons b bs ih =>
    have hl : (b :: bs).length = bs.length + 1 := rfl
    have hc : s.cursor.toNat < s.build.cap := by omega
    have ha : appendByte b s = .completed
        { s with buf := Memory.write s.buf s.cursor.toNat (byteElement b), cursor := s.cursor + 1 } :=
      if_neg (by omega)
    have hf : escapedFits bs
        { s with buf := Memory.write s.buf s.cursor.toNat (byteElement b), cursor := s.cursor + 1 } := by
      have := cursor_succ hc
      show (s.cursor + 1).toNat + bs.length ≤ s.build.cap
      omega
    rw [forEach_cons, ha, andThen_completed, ih _ hf, escapedEmitted, escapedEmitted, List.map_cons,
      appendAll_cons _ _ hc]

/-! ## The pulse encoder over a list of bits -/

theorem pulseCost_cons (b : Build) (v : Bool) (bits : List Bool) :
    pulseCost b (v :: bits) = pulseDuration b v + gap + pulseCost b bits := by
  simp [pulseCost]

/-- Bits that fit are emitted one after the other (40 R104). -/
theorem forEach_pulseEmitBit (bits : List Bool) (s : State) (h : pulseFits bits s) :
    forEach pulseEmitBit bits s = .completed (pulseEmitted bits s) := by
  induction bits generalizing s with
  | nil =>
    have : BitVec.ofNat 16 s.rem.toNat = s.rem := by simp
    simp [pulseEmitted, appendAll, writeAll, pulseCost]
  | cons v bits ih =>
    obtain ⟨hroom, htime⟩ := h
    rw [pulseCost_cons] at htime
    have hl : (v :: bits).length = bits.length + 1 := rfl
    have hc : s.cursor.toNat < s.build.cap := by omega
    have hr := s.rem.isLt
    rcases pulseEmitBit_cases v s with ⟨hx, _⟩ | ⟨_, hx, _⟩ | ⟨_, _, hstep⟩
    · omega
    · omega
    · have hrem : (BitVec.ofNat 16 (s.rem.toNat - (pulseDuration s.build v + gap))).toNat =
          s.rem.toNat - (pulseDuration s.build v + gap) := by
        rw [BitVec.toNat_ofNat]
        omega
      have hcur := cursor_succ hc
      rw [forEach_cons, hstep, andThen_completed, ih]
      · simp only [pulseEmitted, List.map_cons, appendAll_cons _ _ hc, pulseCost_cons]
        congr 2
        rw [hrem, Nat.sub_sub]
      · exact ⟨by show (s.cursor + 1).toNat + bits.length ≤ s.build.cap; omega, by
          show pulseCost s.build bits < (BitVec.ofNat 16 (s.rem.toNat - (pulseDuration s.build v + gap))).toNat
          omega⟩

/-! ## The bit stuffer -/

/-- Micro-operations that neither read nor write `ones` may be run with any count. -/
theorem pulseEmitBit_ones (v : Bool) (s : State) (n : BitVec 3) :
    pulseEmitBit v { s with ones := n } =
      (match pulseEmitBit v s with
        | .completed t => .completed { t with ones := n }
        | .raised c t => .raised c { t with ones := n }
        | .stopped f => .stopped f) := by
  rcases pulseEmitBit_cases v s with ⟨hc, h⟩ | ⟨hc, hr, h⟩ | ⟨hc, hr, h⟩ <;> rw [h]
  · rcases pulseEmitBit_cases v { s with ones := n } with ⟨_, k⟩ | ⟨hx, _, _⟩ | ⟨hx, _, _⟩
    · exact k
    · exact absurd hx (Nat.not_lt.2 hc)
    · exact absurd hx (Nat.not_lt.2 hc)
  · rcases pulseEmitBit_cases v { s with ones := n } with ⟨hx, _⟩ | ⟨_, _, k⟩ | ⟨_, hx, _⟩
    · exact absurd hc (Nat.not_lt.2 hx)
    · exact k
    · exact absurd hx (Nat.not_lt.2 hr)
  · rcases pulseEmitBit_cases v { s with ones := n } with ⟨hx, _⟩ | ⟨_, hx, _⟩ | ⟨_, _, k⟩
    · exact absurd hc (Nat.not_lt.2 hx)
    · exact absurd hr (Nat.not_lt.2 hx)
    · exact k

/-! ## Commands one after the other -/

@[simp] theorem runCommands_nil (s : State) : runCommands [] s = .next s := rfl

/-- A run of commands that answers a next state has answered one after each command. -/
theorem runCommands_cons_eq_next {i : Instr} {is : List Instr} {s t : State} :
    runCommands (i :: is) s = .next t ↔ ∃ u, exec i s = .next u ∧ runCommands is u = .next t := by
  rw [runCommands]
  cases exec i s <;> simp

theorem runCommands_append_eq_next {is js : List Instr} {s t : State} :
    runCommands (is ++ js) s = .next t ↔ ∃ u, runCommands is s = .next u ∧ runCommands js u = .next t := by
  induction is generalizing s with
  | nil => simp
  | cons i is ih =>
    rw [List.cons_append, runCommands_cons_eq_next]
    constructor
    · rintro ⟨u, hu, h⟩
      obtain ⟨v, hv, h⟩ := ih.1 h
      exact ⟨v, runCommands_cons_eq_next.2 ⟨u, hu, hv⟩, h⟩
    · rintro ⟨v, hv, h⟩
      obtain ⟨u, hu, hv⟩ := runCommands_cons_eq_next.1 hv
      exact ⟨u, hu, ih.2 ⟨v, hv, h⟩⟩

/-- In FAULTED commands do nothing (60 R204). -/
theorem runCommands_faulted (is : List Instr) {s : State} (h : s.phase = .faulted) : runCommands is s = .next s := by
  induction is with
  | nil => rfl
  | cons i is ih =>
    refine runCommands_cons_eq_next.2 ⟨s, ?_, ih⟩
    rw [exec_eq]
    exact if_pos h

end Sys2Proof.Machine
end

