-- ==== Sys2Proof/Tests/Slice0.lean ====
section
/-! SUPPORT. The model's own tests: the encodings and vectors of spec/ (30 R81, 95_test_vectors.md) with the expected values
the spec gives, and a witness for the hypotheses of every statement. -/

namespace Sys2Proof.Tests

open Sys2Proof.Machine

/-! ## Helpers -/

/-- An outcome is a next state with property `p`. -/
def nextWith (o : Host.Outcome State Fault Refusal) (p : State → Bool) : Bool :=
  match o with
  | .next t => p t
  | .fault _ => false
  | .refused _ => false

theorem nextWith_spec {o : Host.Outcome State Fault Refusal} {p : State → Bool} (h : nextWith o p = true) :
    ∃ t, o = .next t ∧ p t = true := by
  cases o with
  | next t => exact ⟨t, rfl, h⟩
  | fault f => cases h
  | refused r => cases h

/-- One entry of the table 95 §0.1 assumes: eight rounds of the polynomial 0x1021, most significant bit first. -/
def crcRounds : Nat → Word → Word
  | 0, c => c
  | n + 1, c => crcRounds n (if c.getLsbD 15 then (c <<< 1) ^^^ 0x1021 else c <<< 1)

/-- The illustrative table of 95 §0.1. -/
def sampleTable : Vector Word 256 :=
  ⟨((List.range 256).map fun k => crcRounds 8 (BitVec.ofNat 16 (k * 256))).toArray, by simp⟩

/-- A build with the parameters of 95 §0: HALF_PERIOD 18000, durations 31 and 47, HI_FIRST, no NOCRC escapes, CAP 64. -/
def sampleBuild (tr : Transport) : Build where
  transport := tr
  capPred := 63
  crcTable := sampleTable
  halfPeriodPred := 17999
  durShort := 31
  durLong := 47
  crcOrder := .hiFirst
  escNocrcEscapes := false

/-- 00 R7: the values of the parameters that are not OPEN, in the build of `State.reset`. -/
theorem test_default_parameters :
    Config.build.durShort.val = 31 ∧ Config.build.durLong.val = 47 ∧ Config.build.crcOrder = .hiFirst ∧
      Config.build.escNocrcEscapes = false ∧ pulseDuration Config.build false = 31 ∧
      pulseDuration Config.build true = 47 := ⟨rfl, rfl, rfl, rfl, rfl, rfl⟩

/-- Power-on of that build. -/
def on (tr : Transport) : State := State.powerOn (sampleBuild tr)

/-- "Fresh": power-on reset followed by RESET_FRAME (95 §0). -/
def fresh (tr : Transport) : State := startFrame (on tr)

/-- A state with the accesses `as` waiting. -/
def waiting (s : State) (as : List Access) : State := { s with inbox := as }

/-- The same block with CAP `n + 1`. -/
def capped (n : Fin 65535) (s : State) : State := { s with build := { s.build with capPred := n } }

/-- Elements 0.. of a buffer. -/
def cells (vs : List Word) : Memory := writeAll [] 0 vs

/-- A frame handed off in ESCAPED with the elements `vs`. -/
def handedOff (vs : List Word) : State :=
  { fresh .escaped with phase := .done, buf := cells vs, cursor := BitVec.ofNat 16 vs.length }

/-- The state in TRAILER. -/
def inTrailer (s : State) : State := { s with phase := .trailer }

/-! ## Decoding: words written out from 30 R71, R73 bit by bit -/

theorem test_decode_resetFrame : decode 0b0001000000000000#16 = .ok .resetFrame := by decide

theorem test_decode_emitByteCrc : decode 0b0010000001111110#16 = .ok (.emitByteCrc 0x7E) := by decide

theorem test_decode_emitByteNocrc : decode 0b0011000011111111#16 = .ok (.emitByteNocrc 0xFF) := by decide

theorem test_decode_emitByteRaw : decode 0b0100000010000001#16 = .ok (.emitByteRaw 0x81) := by decide

theorem test_decode_emitChecksum : decode 0b0101000000000000#16 = .ok .emitChecksum := by decide

theorem test_decode_finish : decode 0b0110000000000000#16 = .ok .finish := by decide

/-- 30 R75 to R77: each kind of illegal word is refused under its own name. -/
theorem test_decode_refuses_by_name :
    decode 0x0000 = .error .reservedOpcode ∧ decode 0x7000 = .error .reservedOpcode ∧
      decode 0x2100 = .error .reservedField ∧ decode 0x6001 = .error .operandNotZero := by decide

theorem test_decodeTableWord :
    decodeTableWord 16 0x407E = some (.emitByteRaw 0x7E) ∧ decodeTableWord 16 0x4100 = none := by decide

/-- 95 §0.1: the table entries the spec lists. -/
theorem test_sampleTable_entries :
    sampleTable[0x01] = 0x1021 ∧ sampleTable[0x44] = 0x0840 ∧ sampleTable[0x7E] = 0x9F59 ∧
      sampleTable[0xFF] = 0x1EF0 := by decide +kernel

/-! ## Well-formedness: an ill-formed term for each check -/

/-- 30 R73: words outside every row. -/
theorem test_wellFormedWord_refuses :
    wellFormedWord 0x0000 = false ∧ wellFormedWord 0x2100 = false ∧ wellFormedWord 0x6001 = false ∧
      wellFormedWord 0x7000 = false ∧ wellFormedWord 0x20FF = true := by decide

/-- 30 R79: an operand outside 0..255, an operand on FINISH, none on EMIT_BYTE_RAW, a `.word` of 17 bits, an empty
sequence. -/
theorem test_asmLine_refuses :
    AsmLine.wellFormed ⟨.emitByteCrc, [256]⟩ = false ∧ AsmLine.wellFormed ⟨.finish, [0]⟩ = false ∧
      AsmLine.wellFormed ⟨.emitByteRaw, []⟩ = false ∧ AsmLine.wellFormed ⟨.word, [65536]⟩ = false ∧
      AsmLine.wellFormed ⟨.emitSeqCrc, []⟩ = false ∧ AsmLine.wellFormed ⟨.emitSeqRaw, [1, 256]⟩ = false ∧
      AsmLine.wellFormed ⟨.emitByteCrc, [255]⟩ = true := by decide

/-- 30 R79, R80: a comment, an alias, the three literal forms, `.word` and the pseudo-instructions, as 95 P12 writes
them. -/
theorem test_assembleLine :
    assembleLine "EMIT_BYTE_RAW 0x7E     ; trailer".toList = some [0x407E] ∧
      assembleLine "emit_byte_with_checksum 0b01111110".toList = some [0x207E] ∧
      assembleLine "EMIT_SEQ_CRC 0x41, 66".toList = some [0x2041, 0x2042] ∧
      assembleLine "FRAME_END".toList = some [0x5000, 0x6000] ∧
      assembleLine ".word 0x0000 ; reserved".toList = some [0x0000] ∧
      assembleLine "EMIT_BYTE_CRC 256".toList = none ∧ assembleLine "RESET_FRAME 1".toList = none := by decide

/-! ## Micro-operations (95 L2.3 to L2.8) -/

/-- 95 L2.3. -/
theorem test_crcStep :
    crcStep (sampleBuild .escaped) 0x1234 0x56 = 0x3C40 ∧ crcStep (sampleBuild .escaped) 0xFFFF 0xFF = 0xFF00 ∧
      crcStep (sampleBuild .escaped) 0x9F59 0x01 = 0x3B77 := by decide

/-- 95 L2.6: the full byte is flushed; SwFinish of (0b101, 3) appends 0xFD. -/
theorem test_swPack_and_swFinish :
    swPack true { fresh .swtimedStuffed with pkByte := 0x7F, pkCount := 7 } =
        .completed { fresh .swtimedStuffed with buf := [(0, 0xFF)], cursor := 1 } ∧
      swFinish { fresh .swtimedStuffed with pkByte := 5, pkCount := 3 } =
        .completed { fresh .swtimedStuffed with buf := [(0, 0xFD)], cursor := 1 } := by
  exact ⟨rfl, rfl⟩

/-- 95 L2.7: 0xFF from four ones gives two stuffed 0s. -/
theorem test_stuff : stuff 4 (msbFirst 0xFF) = [true, false, true, true, true, true, true, false, true, true] ∧
    onesAfter 4 (msbFirst 0xFF) = 2 := by decide

/-- 95 L1.1: the inverse of the escape substitution on the source's own output. -/
theorem test_unescape : unescape [0x7D, 0x5E, 0x01, 0x7D, 0x5D] = [0x7E, 0x01, 0x7D] := by decide

/-! ## Commands (95 L2.9, L2.10, L3) -/

/-- 95 L2.10: reset mid-frame. -/
theorem test_resetFrame_midFrame :
    nextWith (exec .resetFrame { fresh .pulseStuffed with cursor := 9, rem := 17584, ones := 3 })
      (fun t => t.status == 0x0001 && t.cursor == 0 && t.rem == 18000 && t.ones == 0) = true := by decide

/-- 95 P5: no effect in FAULTED. -/
theorem test_resetFrame_faulted :
    nextWith (exec .resetFrame (faultEntry .sequenceError 0x207E (on .escaped))) (fun t => t.status == 0x00A4) = true := by
  decide

/-- 95 L2.9, row 0x20FF in SWTIMED_STUFFED. -/
theorem test_emitByteCrc_swtimed :
    nextWith (exec (.emitByteCrc 0xFF) (fresh .swtimedStuffed))
      (fun t => t.frame == [0x24, 0x49, 0x49] && t.ones == 3 && t.pkByte == 2 && t.pkCount == 2 && t.crcAcc == 0x1EF0) =
      true := by decide +kernel

/-- 95 L2.9, row 0x207E in ESCAPED. -/
theorem test_emitByteCrc_escaped :
    nextWith (exec (.emitByteCrc 0x7E) (fresh .escaped))
      (fun t => t.frame == [0x7D, 0x5E] && t.crcAcc == 0x9F59 && t.status == 0x0001) = true := by decide

/-- 95 L2.9, row 0x30FF in PULSE_STUFFED. -/
theorem test_emitByteNocrc_pulse :
    nextWith (exec (.emitByteNocrc 0xFF) (fresh .pulseStuffed))
      (fun t => t.frame == [47, 47, 47, 47, 47, 31, 47, 47, 47] && t.ones == 3 && t.rem == 17584 && t.crcAcc == 0) =
      true := by decide

/-- 95 P8: the third pulse exhausts a period of 100; its duration stays, `rem` is kept. -/
theorem test_emitByteNocrc_exhausted :
    nextWith (exec (.emitByteNocrc 0x80) { fresh .pulseStuffed with rem := 100 })
      (fun t => t.status == 0x00C4 && t.faultCmd == 0x3080 && t.cursor == 3 && t.rem == 20) = true := by decide

/-- 95 L2.9, row 0x407E in SWTIMED_STUFFED. -/
theorem test_emitByteRaw_swtimed :
    nextWith (exec (.emitByteRaw 0x7E) (fresh .swtimedStuffed))
      (fun t => t.frame == [0x92, 0x24] && t.ones == 0 && t.pkByte == 41 && t.pkCount == 6) = true := by decide

/-- 95 L2.9, row 0x407E in PULSE_STUFFED: six long pulses in a row. -/
theorem test_emitByteRaw_pulse :
    nextWith (exec (.emitByteRaw 0x7E) (fresh .pulseStuffed))
      (fun t => t.frame == [31, 47, 47, 47, 47, 47, 47, 31] && t.rem == 17648) = true := by decide

/-- 95 L2.10, checksum order: 5F 02 with HI_FIRST. -/
theorem test_emitChecksum_escaped :
    nextWith (exec .emitChecksum { fresh .escaped with crcAcc := 0x5F02 })
      (fun t => t.frame == [0x5F, 0x02] && t.status == 0x0002 && t.crcAcc == 0x5F02) = true := by decide

/-- 95 P6, P7: with ESC_NOCRC_ESCAPES a checksum byte 0x7E is escaped; with LO_FIRST the low byte leads. -/
theorem test_emitChecksum_escapes_loFirst :
    nextWith (exec .emitChecksum { fresh .escaped with
        build := { sampleBuild .escaped with escNocrcEscapes := true, crcOrder := .loFirst }, crcAcc := 0x7E97 })
      (fun t => t.frame == [0x97, 0x7D, 0x5E]) = true := by decide

/-- 42 R163, its example: the last duration 31 absorbs 17072. -/
theorem test_finish_pulse :
    nextWith (exec .finish { inTrailer (fresh .pulseStuffed) with buf := [(0, 31)], cursor := 1, rem := 17072 })
      (fun t => t.frame == [17103] && t.rem == 0 && t.status == 0x000B) = true := by decide

/-- 95 L2.6, overflow on the pad: `st = 0xB4`, FAULT_CMD 0x6000. -/
theorem test_finish_swtimed_overflow :
    nextWith (exec .finish { inTrailer (capped 5 (fresh .swtimedStuffed)) with cursor := 6, pkByte := 42, pkCount := 6 })
      (fun t => t.status == 0x00B4 && t.faultCmd == 0x6000 && t.cursor == 6) = true := by decide

/-! ## Steps and registers -/

/-- 95 L2.1: 0x2F00 in IDLE reports ILLEGAL_COMMAND, and FAULT_CMD reads the word. -/
theorem test_step_illegal_before_sequence :
    nextWith (step ((on .escaped).withFetchWord 16 0x2F00)) (fun t => t.status == 0x0094 && t.register 4 == 0x2F00) =
      true := by decide

/-- 95 L2.1: EMIT_CHECKSUM in IDLE is a SEQUENCE_ERROR. -/
theorem test_step_sequence_error :
    nextWith (step ((on .escaped).withFetchWord 16 0x5000)) (fun t => t.status == 0x00A4 && t.cursor == 0) = true := by
  decide

/-- The machine right after reset takes RESET_FRAME in every build. -/
theorem test_step_from_reset :
    nextWith (step (State.reset.withFetchWord 16 0x1000)) (fun t => t.status == 0x0001 && t.cursor == 0) = true := by
  decide

/-- 95 L2.12: a DATA read of a handed-off element. -/
theorem test_data_port :
    nextWith (step (waiting (handedOff [0x7D, 0x5E]) [.readData 1])) (fun t => t.reply == 0x5E) = true := by decide

/-- 10 R34: CONFIG of an ESCAPED build with LO_FIRST and ESC_NOCRC_ESCAPES; bit 3 reads 0 in PULSE_STUFFED. -/
theorem test_config :
    configWord { sampleBuild .escaped with escNocrcEscapes := true, crcOrder := .loFirst } = 0b1110 ∧
      configWord { sampleBuild .pulseStuffed with escNocrcEscapes := true } = 0 := by decide

/-! ## Witnesses: the hypotheses of each statement, met together -/

theorem witness_EncodeOfDecodeIsTheWord : decode 0x5000 = .ok .emitChecksum := by decide

/-- One word for each clause, at the edges of its range. -/
theorem witness_IllegalWordsRaiseIllegalCommand :
    (waiting (on .escaped) [.write 0 0x0FFF]).inbox = .write 0 0x0FFF :: [] ∧ (on .escaped).phase ≠ .faulted ∧
      (0x0FFF#16).toNat / 4096 = 0 ∧ 7 ≤ (0x7000#16).toNat / 4096 ∧ 7 ≤ (0xFFFF#16).toNat / 4096 ∧
      (0x2100#16).toNat / 256 % 16 ≠ 0 ∧
      ((0x1001#16).toNat / 4096 = 1 ∧ (0x1001#16).toNat % 256 ≠ 0) ∧
      ((0x50FF#16).toNat / 4096 = 5 ∧ (0x50FF#16).toNat % 256 ≠ 0) ∧
      ((0x6001#16).toNat / 4096 = 6 ∧ (0x6001#16).toNat % 256 ≠ 0) := by decide

theorem witness_AssembledWordsAreCommands :
    assemble ⟨.emitByteRaw, [255]⟩ = some [0x40FF] ∧ AsmOp.emitByteRaw ≠ .word ∧
      assemble ⟨.frameEnd, []⟩ = some [0x5000, 0x6000] ∧ assemble ⟨.emitSeqCrc, [0]⟩ = some [0x2000] ∧
      assemble ⟨.emitSeqNocrc, [255]⟩ = some [0x30FF] ∧ assemble ⟨.emitSeqRaw, [1]⟩ = some [0x4001] := by decide

theorem witness_StepRunsTheDeliveredCommand :
    (waiting (fresh .escaped) [.write 0 0x20FF]).inbox = .write 0 0x20FF :: [] ∧ (fresh .escaped).phase ≠ .faulted ∧
      decode 0x20FF = .ok (.emitByteCrc 0xFF) := by decide

theorem witness_StepWithNothingDeliveredHolds : (on .pulseStuffed).inbox = [] := rfl

/-- A faulted block with a word waiting. -/
def faultedWith (a : Access) : State := waiting (faultEntry .sequenceError 0x207E (on .escaped)) [a]

theorem witness_FaultedIgnoresEveryWord :
    (faultedWith (.write 0 0x1000)).inbox = .write 0 0x1000 :: [] ∧ (faultedWith (.write 0 0x1000)).phase = .faulted := by
  decide

/-- Both cases: a word ignored, and power-on reset. -/
theorem witness_FaultLastsUntilPowerOnReset :
    (faultedWith (.write 0 0)).phase = .faulted ∧ (∃ t, step (faultedWith (.write 0 0)) = .next t) ∧
      ∃ t, step (faultedWith .powerOnReset) = .next t :=
  ⟨rfl, ⟨_, rfl⟩, ⟨_, rfl⟩⟩

theorem witness_PowerOnResetLeavesIdle : (faultedWith .powerOnReset).inbox = .powerOnReset :: [] := rfl

theorem witness_StatusReportsPhaseAndCause :
    (waiting (on .escaped) [.readRegister 1]).inbox = .readRegister 1 :: [] ∧
      (waiting (on .escaped) [.write 1 0xFFFF]).inbox = .write 1 0xFFFF :: [] := ⟨rfl, rfl⟩

/-- A write to CONFIG, and a step that changes other registers. -/
theorem witness_ConfigReportsTheBuild :
    (waiting (on .escaped) [.write 3 5]).inbox = .write 3 5 :: [] ∧
      ∃ t, step (waiting (on .escaped) [.write 0 0x1000]) = .next t := ⟨rfl, _, rfl⟩

/-- VALID is 1 in DONE and 0 elsewhere; a write to either register. -/
theorem witness_LengthAndFaultCmdReadTheirFields :
    (handedOff [1]).status.getLsbD 3 = true ∧ (on .escaped).status.getLsbD 3 = false ∧
      (waiting (on .escaped) [.write 2 1]).inbox = .write 2 1 :: [] ∧
      (waiting (on .escaped) [.write 4 1]).inbox = .write 4 1 :: [] := by decide

/-- A read, the two ends of the reserved range, an ignored write and a delivered word. -/
theorem witness_RegisterMapReadsAndIgnoredWrites :
    (waiting (on .escaped) [.readRegister 4]).inbox = .readRegister 4 :: [] ∧ 5 ≤ (5#4).toNat ∧ 5 ≤ (15#4).toNat ∧
      (waiting (on .escaped) [.write 15 7]).inbox = .write 15 7 :: [] ∧ (15#4) ≠ 0 ∧
      (waiting (on .escaped) [.write 0 7]).inbox = .write 0 7 :: [] := by decide

/-- A handed-off frame meets the invariant. -/
theorem handedOff_inv : Inv (waiting (handedOff [0x7D, 0x5E]) [.readData 1]) :=
  ⟨by decide, by decide, by decide, by decide, by decide⟩

theorem witness_DataPortReturnsTheHandedOffElement :
    Inv (waiting (handedOff [0x7D, 0x5E]) [.readData 1]) ∧
      (waiting (handedOff [0x7D, 0x5E]) [.readData 1]).inbox = .readData 1 :: [] ∧
      (handedOff [0x7D, 0x5E]).phase = .done ∧ 1 < (handedOff [0x7D, 0x5E]).cursor.toNat :=
  ⟨handedOff_inv, rfl, rfl, by decide⟩

/-- Before the handoff, and at LENGTH after it. -/
theorem witness_DataPortOutsideTheHandoffAnswersSomeValue :
    (waiting (fresh .escaped) [.readData 0]).inbox = .readData 0 :: [] ∧ (fresh .escaped).phase ≠ .done ∧
      (handedOff [1]).cursor.toNat ≤ 1 := by decide

/-- One state for each line of the table. -/
theorem witness_IllegalPhaseRaisesSequenceError :
    (inTrailer (fresh .escaped)).phase ≠ .faulted ∧ (inTrailer (fresh .escaped)).phase ≠ .payload ∧
      (handedOff []).phase ≠ .payload ∧ (handedOff []).phase ≠ .trailer ∧ (handedOff []).phase ≠ .faulted ∧
      (fresh .escaped).phase ≠ .trailer ∧ (fresh .escaped).phase ≠ .faulted := by decide

/-- A command that does not fault, for each of the six. -/
theorem witness_PhaseChangesAsTheTableSays :
    (∃ t, exec .resetFrame (on .escaped) = .next t ∧ t.phase ≠ .faulted) ∧
      (∃ t, exec (.emitByteCrc 1) (fresh .escaped) = .next t ∧ t.phase ≠ .faulted) ∧
      (∃ t, exec (.emitByteNocrc 1) (inTrailer (fresh .escaped)) = .next t ∧ t.phase ≠ .faulted) ∧
      (∃ t, exec (.emitByteRaw 1) (fresh .escaped) = .next t ∧ t.phase ≠ .faulted) ∧
      (∃ t, exec .emitChecksum (fresh .escaped) = .next t ∧ t.phase ≠ .faulted) ∧
      ∃ t, exec .finish (inTrailer (fresh .escaped)) = .next t ∧ t.phase ≠ .faulted :=
  ⟨⟨_, rfl, by decide⟩, ⟨_, rfl, by decide⟩, ⟨_, rfl, by decide⟩, ⟨_, rfl, by decide⟩, ⟨_, rfl, by decide⟩,
    ⟨_, rfl, by decide⟩⟩

theorem witness_FaultEntryRecordsWordAndCause :
    (on .escaped).phase ≠ .faulted ∧ ∃ t, exec .finish (on .escaped) = .next t ∧ t.phase = .faulted :=
  ⟨by decide, _, rfl, rfl⟩

/-- A full block in each transport. -/
def full (tr : Transport) : State := { capped 0 (fresh tr) with cursor := 1, buf := [(0, 1)] }

/-- Each fault of 60 R201: SEQUENCE_ERROR, BUFFER_OVERFLOW of an emit and of FINISH, PERIOD_EXHAUSTED, FINISH_EMPTY. -/
theorem witness_FaultsByCommandAndTransport :
    (∃ t, exec .finish (fresh .escaped) = .next t ∧ (t.phase = .faulted ∧ t.cause = .sequenceError)) ∧
      (∃ t, exec (.emitByteRaw 0) (full .escaped) = .next t ∧ (t.phase = .faulted ∧ t.cause = .bufferOverflow)) ∧
      (∃ t, exec .finish { inTrailer (full .swtimedStuffed) with pkCount := 1 } = .next t ∧
        (t.phase = .faulted ∧ t.cause = .bufferOverflow)) ∧
      (∃ t, exec (.emitByteRaw 0) { fresh .pulseStuffed with rem := 32 } = .next t ∧
        (t.phase = .faulted ∧ t.cause = .periodExhausted)) ∧
      ∃ t, exec .finish (inTrailer (fresh .pulseStuffed)) = .next t ∧ (t.phase = .faulted ∧ t.cause = .finishEmpty) :=
  ⟨⟨_, rfl, by decide⟩, ⟨_, rfl, by decide⟩, ⟨_, rfl, by decide⟩, ⟨_, rfl, by decide⟩, ⟨_, rfl, by decide⟩⟩

theorem witness_OverflowLeavesTheBufferFull :
    (full .escaped).cursor.toNat ≤ (full .escaped).build.cap ∧ (full .escaped).phase ≠ .faulted ∧
      ∃ t, exec (.emitByteRaw 0) (full .escaped) = .next t ∧ t.phase = .faulted ∧ t.cause = .bufferOverflow :=
  ⟨by decide, by decide, _, rfl, rfl, rfl⟩

/-- Power-on meets the invariant in a concrete build. -/
theorem on_inv_nil : Inv (on .pulseStuffed) := ⟨by decide, by decide, by decide, by decide, by decide⟩

/-- The invariant says nothing of the accesses waiting. -/
theorem on_inv (as : List Access) : Inv (waiting (on .pulseStuffed) as) := on_inv_nil

theorem witness_FinishEmptyIsUnreachable :
    Inv (waiting (on .pulseStuffed) [.write 0 0x6000]) ∧ (on .pulseStuffed).cause ≠ .finishEmpty ∧
      ∃ t, step (waiting (on .pulseStuffed) [.write 0 0x6000]) = .next t :=
  ⟨on_inv _, by decide, _, rfl⟩

/-- The last free element, and none. -/
theorem witness_AppendWritesOneElementOrOverflows :
    (capped 0 (fresh .escaped)).cursor.toNat + 1 = (capped 0 (fresh .escaped)).build.cap ∧
      (full .escaped).cursor.toNat = (full .escaped).build.cap := by decide

/-- 95 L2.5: `rem` 48 and 49 before a 1. -/
theorem witness_PulseEmitBitChargesDurationAndGap :
    (fresh .pulseStuffed).cursor.toNat < (fresh .pulseStuffed).build.cap ∧
      (full .pulseStuffed).cursor.toNat = (full .pulseStuffed).build.cap ∧
      (48#16).toNat ≤ (fresh .pulseStuffed).build.durLong.val + 1 ∧
      (fresh .pulseStuffed).build.durLong.val + 1 < (49#16).toNat := by decide

/-- The packer below, at and at a full buffer's eighth bit. -/
theorem witness_SwPackFillsTheByteLsbFirst :
    (0x7F#8).toNat < 2 ^ (7#3).toNat ∧ (0x3F#8).toNat < 2 ^ (6#3).toNat ∧ (6#3) ≠ 7 ∧
      (fresh .swtimedStuffed).cursor.toNat < (fresh .swtimedStuffed).build.cap ∧
      (full .swtimedStuffed).cursor.toNat = (full .swtimedStuffed).build.cap := by decide

theorem witness_SwFinishPadsWithHighs :
    (fresh .swtimedStuffed).cursor.toNat ≤ (fresh .swtimedStuffed).build.cap ∧ (fresh .swtimedStuffed).pkCount = 0 ∧
      (7#3) ≠ 0 ∧ (full .swtimedStuffed).cursor.toNat = (full .swtimedStuffed).build.cap := by decide

theorem witness_ResetFrameStartsAFrame :
    (on .escaped).phase ≠ .faulted ∧ (faultedWith .powerOnReset).phase = .faulted ∧
      (0x1001#16).toNat / 256 = 16 ∧ (0x1001#16).toNat % 256 ≠ 0 := by decide

/-- PULSE_STUFFED with four ones, room for exactly ten elements and exactly one unit left over. -/
def tightPulse : State := { capped 9 (fresh .pulseStuffed) with ones := 4, rem := 449 }

theorem witness_PulseEmitCompletes :
    tightPulse.build.transport = .pulseStuffed ∧ tightPulse.phase = .payload ∧
      (inTrailer tightPulse).phase = .trailer ∧ tightPulse.ones.toNat ≤ 4 ∧
      pulseFits (stuff tightPulse.ones.toNat (msbFirst 0xFF)) tightPulse ∧
      pulseFits (stuff tightPulse.ones.toNat (msbFirst 0xFF)) (inTrailer tightPulse) ∧
      pulseFits (msbFirst 0xFF) (inTrailer tightPulse) := by decide

/-- SWTIMED_STUFFED with seven bits packed, four ones, and room for exactly the bytes of 0xFF. -/
def tightSwtimed : State := { capped 3 (fresh .swtimedStuffed) with ones := 4, pkByte := 0x7F, pkCount := 7 }

theorem witness_SwtimedEmitCompletes :
    tightSwtimed.build.transport = .swtimedStuffed ∧ tightSwtimed.phase = .payload ∧
      tightSwtimed.pkByte.toNat < 2 ^ tightSwtimed.pkCount.toNat ∧ tightSwtimed.ones.toNat ≤ 4 ∧
      swFits (physicalStream (stuff tightSwtimed.ones.toNat (msbFirst 0xFF)) tightSwtimed) tightSwtimed ∧
      swFits (physicalStream (stuff tightSwtimed.ones.toNat (msbFirst 0xFF)) (inTrailer tightSwtimed))
        (inTrailer tightSwtimed) ∧
      swFits (physicalStream (msbFirst 0xFF) tightSwtimed) tightSwtimed := by decide

/-- ESCAPED with room for exactly the two bytes of an escape. -/
theorem witness_EscapedEmitCompletes :
    (capped 1 (fresh .escaped)).build.transport = .escaped ∧ (capped 1 (fresh .escaped)).phase = .payload ∧
      escapedFits (escapeBytes 0x7E) (capped 1 (fresh .escaped)) ∧
      escapedFits (noCrcBytes (sampleBuild .escaped) 0x7E) (inTrailer (capped 0 (fresh .escaped))) ∧
      escapedFits [0x7E] (capped 0 (fresh .escaped)) := by decide

theorem witness_PulseChecksumCompletes :
    (fresh .pulseStuffed).build.transport = .pulseStuffed ∧ (fresh .pulseStuffed).phase = .payload ∧
      (fresh .pulseStuffed).ones.toNat ≤ 4 ∧
      pulseFits (stuff (fresh .pulseStuffed).ones.toNat (checksumBits (fresh .pulseStuffed))) (fresh .pulseStuffed) := by
  decide

theorem witness_SwtimedChecksumCompletes :
    (fresh .swtimedStuffed).build.transport = .swtimedStuffed ∧ (fresh .swtimedStuffed).phase = .payload ∧
      (fresh .swtimedStuffed).ones.toNat ≤ 4 ∧
      (fresh .swtimedStuffed).pkByte.toNat < 2 ^ (fresh .swtimedStuffed).pkCount.toNat ∧
      swFits (physicalStream (stuff (fresh .swtimedStuffed).ones.toNat (checksumBits (fresh .swtimedStuffed)))
        (fresh .swtimedStuffed)) (fresh .swtimedStuffed) := by decide

/-- In either order, 95 L2.10's accumulator and exactly two free elements. -/
theorem witness_EscapedChecksumCompletes :
    (capped 1 (fresh .escaped)).build.transport = .escaped ∧ (capped 1 (fresh .escaped)).phase = .payload ∧
      (0x5F#8).toNat = (0x5F02#16).toNat / 256 ∧ (0x02#8).toNat = (0x5F02#16).toNat % 256 ∧
      escapedFits (noCrcBytes (sampleBuild .escaped) 0x5F ++ noCrcBytes (sampleBuild .escaped) 0x02)
        (capped 1 (fresh .escaped)) ∧
      escapedFits (noCrcBytes { sampleBuild .escaped with crcOrder := .loFirst } 0x02 ++
        noCrcBytes { sampleBuild .escaped with crcOrder := .loFirst } 0x5F) (capped 1 (fresh .escaped)) := by decide

/-- TRAILER in each transport, with the last element and `rem` adding up to 65535 in PULSE_STUFFED. -/
theorem witness_FinishCompletes :
    (inTrailer (full .pulseStuffed)).phase = .trailer ∧ (full .pulseStuffed).build.transport = .pulseStuffed ∧
      (full .pulseStuffed).cursor ≠ 0 ∧
      Memory.read (full .pulseStuffed).buf ((full .pulseStuffed).cursor.toNat - 1) = some 1 ∧
      (1#16).toNat + (65534#16).toNat < 65536 ∧
      (inTrailer (fresh .swtimedStuffed)).build.transport = .swtimedStuffed ∧ (fresh .swtimedStuffed).pkCount = 0 ∧
      (7#3) ≠ 0 ∧ (capped 0 (fresh .swtimedStuffed)).cursor.toNat < (capped 0 (fresh .swtimedStuffed)).build.cap ∧
      (inTrailer (fresh .escaped)).build.transport = .escaped := by decide

/-- Also where the emission faults. -/
theorem witness_CrcByteIsFoldedBeforeEmission :
    (full .escaped).phase = .payload ∧ (∃ t, exec (.emitByteCrc 1) (fresh .escaped) = .next t) ∧
      ∃ t, exec (.emitByteCrc 1) (full .escaped) = .next t :=
  ⟨rfl, ⟨_, rfl⟩, ⟨_, rfl⟩⟩

/-- An ESCAPED block with ESC_NOCRC_ESCAPES, in either CRC_ORDER, with room for `n + 1` elements. -/
def escaping (o : CrcOrder) (n : Fin 65535) (acc : Word) : State :=
  { fresh .escaped with
    build := { sampleBuild .escaped with escNocrcEscapes := true, crcOrder := o, capPred := n }, crcAcc := acc }

/-- One free element, in either phase; a checksum whose first byte is reserved in either order; one whose second is, with
one and with two elements of the first byte before it. -/
theorem witness_EscapedOverflowKeepsTheFirstByte :
    (escaping .hiFirst 0 0x7E00).build.transport = .escaped ∧ (escaping .hiFirst 0 0x7E00).phase = .payload ∧
      (inTrailer (escaping .hiFirst 0 0x7E00)).phase = .trailer ∧
      (escaping .hiFirst 0 0x7E00).cursor.toNat + 1 = (escaping .hiFirst 0 0x7E00).build.cap ∧
      (escaping .hiFirst 0 0x7E00).build.escNocrcEscapes = true ∧
      ((0x7E#8).toNat = (0x7E00#16).toNat / 256 ∧ (0x00#8).toNat = (0x7E00#16).toNat % 256) ∧
      ((0x7D#8).toNat = (0x017D#16).toNat % 256 ∧ (0x01#8).toNat = (0x017D#16).toNat / 256) ∧
      (escaping .loFirst 0 0x017D).cursor.toNat + 1 = (escaping .loFirst 0 0x017D).build.cap ∧
      (escaping .hiFirst 1 0x017D).cursor.toNat + (escapeBytes 0x01).length + 1 =
        (escaping .hiFirst 1 0x017D).build.cap ∧
      (escaping .hiFirst 2 0x7E7D).cursor.toNat + (escapeBytes 0x7E).length + 1 =
        (escaping .hiFirst 2 0x7E7D).build.cap := by decide

/-- `rem` exactly the cost of a 1, and of a 0. -/
theorem witness_PulseExhaustionKeepsTheAppendedDuration :
    (fresh .pulseStuffed).build.transport = .pulseStuffed ∧ (fresh .pulseStuffed).phase = .payload ∧
      (inTrailer (fresh .pulseStuffed)).phase = .trailer ∧
      (fresh .pulseStuffed).cursor.toNat < (fresh .pulseStuffed).build.cap ∧
      (48#16).toNat ≤ pulseDuration (fresh .pulseStuffed).build ((0x80#8).getLsbD 7) + 1 ∧
      (32#16).toNat ≤ pulseDuration (fresh .pulseStuffed).build ((0x7F#8).getLsbD 7) + 1 := by decide

theorem witness_FinishFaultsOnAnEmptyTrainOrAFullPad :
    (inTrailer (fresh .pulseStuffed)).phase = .trailer ∧
      (inTrailer (fresh .pulseStuffed)).build.transport = .pulseStuffed ∧
      (inTrailer (fresh .pulseStuffed)).cursor = 0 ∧
      (inTrailer (full .swtimedStuffed)).build.transport = .swtimedStuffed ∧
      (inTrailer (full .swtimedStuffed)).phase = .trailer ∧ (1#3) ≠ 0 ∧
      (full .swtimedStuffed).cursor.toNat = (full .swtimedStuffed).build.cap := by decide

/-- An emit command that completes, in each transport: stuffed at the largest size, raw, and both escape settings. -/
theorem witness_EmitSizesByTransport :
    (∃ t, exec (.emitByteCrc 0xFF) tightPulse = .next t ∧ t.phase ≠ .faulted) ∧
      (∃ t, exec (.emitByteNocrc 0xFF) tightSwtimed = .next t ∧ t.phase ≠ .faulted) ∧
      (∃ t, exec (.emitByteCrc 0x7E) (fresh .escaped) = .next t ∧ t.phase ≠ .faulted) ∧
      (∃ t, exec (.emitByteNocrc 0x7E) (fresh .escaped) = .next t ∧ t.phase ≠ .faulted) ∧
      (∃ t, exec (.emitByteRaw 0xFF) (fresh .pulseStuffed) = .next t ∧ t.phase ≠ .faulted) ∧
      (∃ t, exec (.emitByteRaw 0xFF) (fresh .swtimedStuffed) = .next t ∧ t.phase ≠ .faulted) ∧
      ∃ t, exec (.emitByteRaw 0x7E) (fresh .escaped) = .next t ∧ t.phase ≠ .faulted :=
  ⟨⟨_, rfl, by decide⟩, ⟨_, rfl, by decide⟩, ⟨_, rfl, by decide⟩, ⟨_, rfl, by decide⟩, ⟨_, rfl, by decide⟩,
    ⟨_, rfl, by decide⟩, ⟨_, rfl, by decide⟩⟩

/-- A command that completes and one that faults. -/
theorem witness_EmitCommandsFrame :
    Instr.emitChecksum ≠ .resetFrame ∧ Instr.emitChecksum ≠ .finish ∧
      (∃ t, exec .emitChecksum (fresh .escaped) = .next t) ∧ ∃ t, exec (.emitByteRaw 0) (full .escaped) = .next t :=
  ⟨by decide, by decide, ⟨_, rfl⟩, ⟨_, rfl⟩⟩

/-- FINISH in each transport. -/
theorem witness_FinishFrame :
    (∃ t, exec .finish { inTrailer (fresh .pulseStuffed) with buf := [(0, 31)], cursor := 1 } = .next t) ∧
      (∃ t, exec .finish { inTrailer (fresh .swtimedStuffed) with pkCount := 7 } = .next t) ∧
      ∃ t, exec .finish (inTrailer (fresh .escaped)) = .next t :=
  ⟨⟨_, rfl⟩, ⟨_, rfl⟩, ⟨_, rfl⟩⟩

theorem witness_StepNeverChangesTheBuild : ∃ t, step (faultedWith .powerOnReset) = .next t := ⟨_, rfl⟩

/-- RESET_FRAME of a frame with two elements, and power-on reset. -/
theorem witness_OnlyResetsLowerTheCursor :
    (∃ t, step (waiting (handedOff [1, 2]) [.write 0 0x1000]) = .next t ∧ t.cursor.toNat < (handedOff [1, 2]).cursor.toNat) ∧
      ∃ t, step (waiting (handedOff [1, 2]) [.powerOnReset]) = .next t ∧
        t.cursor.toNat < (handedOff [1, 2]).cursor.toNat :=
  ⟨⟨_, rfl, by decide⟩, ⟨_, rfl, by decide⟩⟩

/-- Each of the four cases: a read, a second FINISH, RESET_FRAME, power-on reset. -/
theorem witness_HandoffLastsUntilResetOrFault :
    (handedOff [1]).phase = .done ∧ (∃ t, step (waiting (handedOff [1]) [.readData 0]) = .next t ∧ t.phase = .done) ∧
      (∃ t, step (waiting (handedOff [1]) [.write 0 0x6000]) = .next t ∧ t.phase = .faulted) ∧
      (∃ t, step (waiting (handedOff [1]) [.write 0 0x1000]) = .next t ∧ t.phase = .payload) ∧
      ∃ t, step (waiting (handedOff [1]) [.powerOnReset]) = .next t ∧ t.phase = .idle :=
  ⟨rfl, ⟨_, rfl, rfl⟩, ⟨_, rfl, rfl⟩, ⟨_, rfl, rfl⟩, ⟨_, rfl, rfl⟩⟩

/-- A state of the invariant in which a step does more than hold. -/
theorem witness_StepKeepsTheInvariant :
    Inv (waiting (on .pulseStuffed) [.write 0 0x1000]) ∧
      ∃ t, step (waiting (on .pulseStuffed) [.write 0 0x1000]) = .next t :=
  ⟨on_inv _, _, rfl⟩

theorem witness_StepFromTheInvariantNeverStops : Inv (waiting (handedOff [0x7D, 0x5E]) [.readData 1]) := handedOff_inv

/-- The commands of 95 L2.9 as one-command frames. -/
theorem witness_ChecksumCoversExactlyTheCrcBytes :
    .resetFrame ∉ [Instr.emitByteCrc 0x7E] ∧ (on .escaped).phase ≠ .faulted ∧
      ∃ t, runCommands [.resetFrame, .emitByteCrc 0x7E] (on .escaped) = .next t ∧ t.phase ≠ .faulted :=
  ⟨by decide, by decide, _, rfl, by decide⟩

theorem witness_ChecksumIsIndependentOfTheTransport :
    (on .escaped).build.crcTable = (on .swtimedStuffed).build.crcTable ∧
      (∃ t, runCommands [.resetFrame, .emitByteCrc 0x7E] (on .escaped) = .next t ∧ t.phase ≠ .faulted) ∧
      ∃ t, runCommands [.resetFrame, .emitByteCrc 0x7E] (on .swtimedStuffed) = .next t ∧ t.phase ≠ .faulted :=
  ⟨rfl, ⟨_, rfl, by decide⟩, ⟨_, rfl, by decide⟩⟩

/-- 95 L2.10: the empty frame. -/
theorem witness_FinishedPulseFrameTakesTheHalfPeriod :
    Inv (on .pulseStuffed) ∧ (on .pulseStuffed).build.transport = .pulseStuffed ∧ (on .pulseStuffed).phase ≠ .faulted ∧
      ∃ t, runCommands (.resetFrame :: ([.emitChecksum] ++ [.finish])) (on .pulseStuffed) = .next t ∧ t.phase = .done := by
  refine ⟨on_inv [], rfl, by decide, ?_⟩
  obtain ⟨t, ht, hp⟩ := nextWith_spec
    (o := runCommands (.resetFrame :: ([.emitChecksum] ++ [.finish])) (on .pulseStuffed))
    (p := fun t => t.phase == .done) (by decide)
  exact ⟨t, ht, by simpa using hp⟩

/-- Ones running across bytes of both commands, then the checksum and a byte after it. -/
theorem witness_PulseFrameDestuffsToItsBytes :
    (on .pulseStuffed).build.transport = .pulseStuffed ∧
      (on .pulseStuffed).build.durShort ≠ (on .pulseStuffed).build.durLong ∧ (on .pulseStuffed).phase ≠ .faulted ∧
      [Instr.emitByteCrc 0x0F, .emitByteNocrc 0xFF, .emitChecksum, .emitByteNocrc 1].all Instr.isStuffed = true ∧
      ∃ t, runCommands [.resetFrame, .emitByteCrc 0x0F, .emitByteNocrc 0xFF, .emitChecksum, .emitByteNocrc 1]
        (on .pulseStuffed) = .next t ∧ t.phase ≠ .faulted :=
  ⟨by decide, by decide, by decide, by decide, _, rfl, by decide⟩

theorem witness_PulseFrameIsItsStuffedStream :
    [Instr.emitByteRaw 0x7E].all Instr.isEmit = true ∧
      ∃ t, runCommands [.resetFrame, .emitByteRaw 0x7E] (on .pulseStuffed) = .next t ∧ t.phase = .payload :=
  ⟨by decide, _, rfl, rfl⟩

theorem witness_SwtimedFrameIsItsExpandedStream :
    (on .swtimedStuffed).build.transport = .swtimedStuffed ∧ [Instr.emitByteCrc 0xFF].all Instr.isEmit = true ∧
      ∃ t, runCommands [.resetFrame, .emitByteCrc 0xFF] (on .swtimedStuffed) = .next t ∧ t.phase = .payload :=
  ⟨rfl, by decide, _, rfl, rfl⟩

/-- 95 L1.1 at command level; and a handed-off frame of the other commands, where ESC_NOCRC_ESCAPES is true. -/
theorem witness_EscapedFrameUnescapesToItsBytes :
    (on .escaped).build.transport = .escaped ∧ (on .escaped).phase ≠ .faulted ∧
      ([0x7E, 0x01, 0x7D].map Instr.emitByteCrc).all (Instr.isEscaped (on .escaped).build) = true ∧
      (∃ t, runCommands (.resetFrame :: [0x7E, 0x01, 0x7D].map .emitByteCrc) (on .escaped) = .next t ∧
        t.phase ≠ .faulted) ∧
      [Instr.emitByteNocrc 0x7D, .emitChecksum, .finish].all (Instr.isEscaped (escaping .loFirst 9 0).build) = true ∧
      ∃ t, runCommands [.resetFrame, .emitByteNocrc 0x7D, .emitChecksum, .finish] (escaping .loFirst 9 0) = .next t ∧
        t.phase ≠ .faulted :=
  ⟨rfl, by decide, by decide, ⟨_, rfl, by decide⟩, by decide, _, rfl, by decide⟩

/-- Both sides: a frame, and commands that are none. -/
theorem witness_DoneExactlyByTheFrameGrammar :
    .resetFrame ∉ [Instr.emitChecksum, .finish] ∧ FrameGrammar [.emitChecksum, .finish] ∧
      (∃ t, runCommands [.resetFrame, .emitChecksum, .finish] (on .escaped) = .next t ∧ t.phase = .done) ∧
      ∃ t, runCommands [.resetFrame, .finish] (on .escaped) = .next t ∧ t.phase = .faulted :=
  ⟨by decide, ⟨[], [], rfl, rfl, rfl⟩, ⟨_, rfl, rfl⟩, ⟨_, rfl, rfl⟩⟩

/-- CAP exactly the bound for one EMIT_BYTE_CRC, in each transport. -/
theorem witness_SizedFramesNeverOverflow :
    .resetFrame ∉ [Instr.emitByteCrc 0xFF] ∧
      worstElements (capped 8 (on .pulseStuffed)).build [.emitByteCrc 0xFF] = (capped 8 (on .pulseStuffed)).build.cap ∧
      worstElements (capped 3 (on .swtimedStuffed)).build [.emitByteCrc 0xFF] =
        (capped 3 (on .swtimedStuffed)).build.cap ∧
      worstElements (capped 1 (on .escaped)).build [.emitByteCrc 0x7E] = (capped 1 (on .escaped)).build.cap ∧
      (∃ t, runCommands [.resetFrame, .emitByteCrc 0xFF] (capped 8 (on .pulseStuffed)) = .next t) ∧
      ∃ t, runCommands [.resetFrame, .emitByteCrc 0x7E] (capped 1 (on .escaped)) = .next t :=
  ⟨by decide, by decide, by decide, by decide, ⟨_, rfl⟩, ⟨_, rfl⟩⟩

/-- HALF_PERIOD exactly one more than the cost of 0xFF: 8 * 48 + 32. -/
theorem witness_SizedFramesNeverExhaustThePeriod :
    let s : State := { on .pulseStuffed with build := { sampleBuild .pulseStuffed with halfPeriodPred := 416 } }
    s.build.transport = .pulseStuffed ∧ s.build.durShort ≤ s.build.durLong ∧ s.phase ≠ .faulted ∧
      worstPeriod s.build [.emitByteNocrc 0xFF] + 1 = s.build.halfPeriod ∧
      ∃ t, runCommands [.resetFrame, .emitByteNocrc 0xFF] s = .next t :=
  ⟨rfl, by decide, by decide, by decide, _, rfl⟩

end Sys2Proof.Tests
end

namespace Sys2Proof.Machine

/-! ## Commands that keep the invariant (10 R42) -/

/-- `m` does not stop the model, and completes only in states with `P`. Where it raises a fault it owes only the buffer's
part of the invariant: a pulse appended and not charged (40 R104) breaks the period equation, which FAULTED does not ask
for. -/
def Micro.Safe (P : State → Prop) (m : Micro) : Prop :=
  match m with
  | .completed s => P s
  | .raised c s => c ≠ .noFault ∧ BufferOk s
  | .stopped _ => False

theorem Micro.Safe.andThen {P Q : State → Prop} {m : Micro} {k : State → Micro} (hm : m.Safe P)
    (hk : ∀ s, P s → (k s).Safe Q) : (m.andThen k).Safe Q := by
  cases m with
  | completed s => exact hk s hm
  | raised c s => exact hm
  | stopped f => exact hm

theorem Micro.Safe.mono {P Q : State → Prop} {m : Micro} (hm : m.Safe P) (h : ∀ s, P s → Q s) : m.Safe Q := by
  cases m with
  | completed s => exact h s hm
  | raised c s => exact hm
  | stopped f => exact hm

/-- A loop whose every turn leads from `P n` to `P (n + 1)` leads from `P n` to `P` at `n` plus its turns. -/
theorem safe_forEach {α : Type} {P : Nat → State → Prop} {op : α → State → Micro}
    (h : ∀ n v s, P n s → (op v s).Safe (P (n + 1))) (vs : List α) {n : Nat} {s : State} (hs : P n s) :
    (forEach op vs s).Safe (P (n + vs.length)) := by
  induction vs generalizing n s with
  | nil => exact hs
  | cons v vs ih =>
    rw [forEach_cons, List.length_cons, Nat.add_comm vs.length, ← Nat.add_assoc]
    exact (h n v s hs).andThen fun _ ht => ih ht

/-! ### The buffer and the frame in it -/

/-- Writing element `i` keeps the buffer's canonical form and bounds (10 R22, 20 R50). -/
theorem bufferOk_write {s : State} (h : BufferOk s) {i : Nat} {v cursor : Word} (hi : i < s.build.cap)
    (hv : v.toNat < 2 ^ s.build.elemWidth) (hcap : cursor.toNat ≤ s.build.cap)
    (hcur : ∀ j < cursor.toNat, j = i ∨ j < s.cursor.toNat) :
    BufferOk { s with buf := Memory.write s.buf i v, cursor := cursor } := by
  obtain ⟨_, hwf, hcells, hwritten⟩ := h
  refine ⟨hcap, Memory.wf_write _ _ _ hwf, fun c hc => ?_, fun j hj => ?_⟩
  · rcases Memory.mem_write hc with rfl | hc
    · exact ⟨hi, hv⟩
    · exact hcells c hc
  · rw [Memory.read_write]
    split
    · rfl
    · next hji => exact hwritten j ((hcur j hj).resolve_left hji)

/-- What Append writes keeps the buffer's part of the invariant. -/
theorem bufferOk_append {s : State} (h : BufferOk s) {v : Word} (hc : s.cursor.toNat < s.build.cap)
    (hv : v.toNat < 2 ^ s.build.elemWidth) :
    BufferOk { s with buf := Memory.write s.buf s.cursor.toNat v, cursor := s.cursor + 1 } := by
  have hs := cursor_succ hc
  exact bufferOk_write h hc hv (by omega) (by omega)

/-- The elements below `n`, of which the frame is those below `cursor`. -/
def Memory.below (m : Memory) (n : Nat) : List Word := (List.range n).filterMap (Memory.read m)

theorem frame_eq_below (s : State) : s.frame = Memory.below s.buf s.cursor.toNat := rfl

theorem Memory.below_succ {m : Memory} {n : Nat} {v : Word} (h : Memory.read m n = some v) :
    Memory.below m (n + 1) = Memory.below m n ++ [v] := by
  simp [Memory.below, List.range_succ, h]

/-- A write at `n` or above changes no element below `n`. -/
theorem Memory.below_write (m : Memory) {n i : Nat} (v : Word) (h : n ≤ i) :
    Memory.below (Memory.write m i v) n = Memory.below m n :=
  List.filterMap_congr fun j hj => Memory.read_write_other m v (by have := List.mem_range.1 hj; omega)

theorem Memory.below_succ_write (m : Memory) (n : Nat) (v : Word) :
    Memory.below (Memory.write m n v) (n + 1) = Memory.below m n ++ [v] := by
  rw [Memory.below_succ (Memory.read_write_same m n v), Memory.below_write m v (le_refl n)]

theorem pulseTotal_append_singleton (vs : List Word) (v : Word) :
    pulseTotal (vs ++ [v]) = pulseTotal vs + (v.toNat + gap) := by
  simp [pulseTotal]

theorem byteElement_toNat (d : Byte) : (byteElement d).toNat = d.toNat := by
  have := d.isLt
  simp only [byteElement, BitVec.toNat_setWidth]
  omega

theorem elemWidth_of_pulse {b : Build} (h : b.transport = .pulseStuffed) : b.elemWidth = 16 := by
  simp [Build.elemWidth, h]

/-- A byte fits an element in the transports with 8-bit elements (10 R22). -/
theorem byteElement_fits {b : Build} (h : b.transport ≠ .pulseStuffed) (d : Byte) :
    (byteElement d).toNat < 2 ^ b.elemWidth := by
  have hw : b.elemWidth = 8 := by cases ht : b.transport <;> simp_all [Build.elemWidth]
  rw [hw, byteElement_toNat]
  exact d.isLt

/-! ### Open frames -/

/-- A frame of build `b` is open, the invariant holds, and in PULSE_STUFFED it has at least `n` pulses. -/
structure OpenFrame (b : Build) (n : Nat) (s : State) : Prop where
  build : s.build = b
  phase : s.phase = .payload ∨ s.phase = .trailer
  inv : Inv s
  pulses : b.transport = .pulseStuffed → n ≤ s.cursor.toNat

section
variable {b : Build} {n : Nat} {s : State}

/-- A lower count holds too, and any count in the transports without pulses. -/
theorem OpenFrame.recount (h : OpenFrame b n s) {m : Nat} (hm : b.transport = .pulseStuffed → m ≤ n) :
    OpenFrame b m s :=
  ⟨h.build, h.phase, h.inv, fun hp => (hm hp).trans (h.pulses hp)⟩

/-- The sequencer's part of the invariant asks the same of every phase but IDLE and FAULTED (10 R32, R33). -/
theorem sequencerOk_of_same {s t : State} (h : SequencerOk s) (hs : s.phase ≠ .faulted) (hcause : t.cause = s.cause)
    (hcmd : t.faultCmd = s.faultCmd) (hidle : t.phase ≠ .idle) (hfault : t.phase ≠ .faulted) : SequencerOk t := by
  obtain ⟨hc, hf, _⟩ := h
  exact ⟨iff_of_true (hcause.trans (hc.2 hs)) hfault, fun _ => hcmd.trans (hf hs), fun hi => absurd hi hidle⟩

theorem OpenFrame.phase_ne (h : OpenFrame b n s) : s.phase ≠ .idle ∧ s.phase ≠ .done ∧ s.phase ≠ .faulted := by
  rcases h.phase with hp | hp <;> simp [hp]

theorem OpenFrame.inFrame (h : OpenFrame b n s) : s.inFrame := h.phase.imp_right .inl

/-- What a micro-operation has to show to lead from an open frame to an open frame: the sequencer's fields are as they
were, the cursor is no lower, and each other part of the invariant holds. -/
theorem OpenFrame.advance (h : OpenFrame b n s) {m : Nat} {t : State} (hsame : SameOutside s t)
    (hcur : s.cursor.toNat ≤ t.cursor.toNat) (hbuf : BufferOk t) (hones : OnesOk t) (hpack : PackerOk t)
    (hpulse : b.transport = .pulseStuffed →
      m ≤ t.cursor.toNat ∧ 1 ≤ t.rem.toNat ∧ t.rem.toNat + pulseTotal t.frame = b.halfPeriod) :
    OpenFrame b m t := by
  obtain ⟨hidle, hdone, hfault⟩ := h.phase_ne
  obtain ⟨rfl, hphase, ⟨_, hseq, _, _, hper⟩, _⟩ := h
  obtain ⟨hb, hp, hcause, hcmd, _⟩ := hsame
  have hseq' := sequencerOk_of_same hseq hfault hcause hcmd (hp.symm ▸ hidle) (hp.symm ▸ hfault)
  refine ⟨hb, hp.symm ▸ hphase, ⟨hbuf, hseq', hones, hpack, fun ht => ?_⟩, fun ht => (hpulse ht).1⟩
  rw [hb] at ht ⊢
  obtain ⟨_, hrem⟩ := hpulse ht
  obtain ⟨_, htrailer, _⟩ := hper ht
  exact ⟨fun _ => hrem, fun h2 => (htrailer (hp ▸ h2)).trans hcur, fun h3 => absurd (hp ▸ h3) hdone⟩

/-- PulseEmitBit puts one more pulse in an open frame (40 R104). -/
theorem pulseEmitBit_safe (ht : b.transport = .pulseStuffed) (v : Bool) (h : OpenFrame b n s) :
    (pulseEmitBit v s).Safe (OpenFrame b (n + 1)) := by
  obtain ⟨rfl, hphase, ⟨hbuf, _, hones, hpack, hper⟩, hn⟩ := id h
  have hd : (BitVec.ofNat 16 (pulseDuration s.build v)).toNat = pulseDuration s.build v :=
    Nat.mod_eq_of_lt ((pulseDuration_lt s.build v).trans (by decide))
  have hw : (BitVec.ofNat 16 (pulseDuration s.build v)).toNat < 2 ^ s.build.elemWidth := by
    rw [elemWidth_of_pulse ht]
    exact BitVec.isLt _
  rcases pulseEmitBit_cases v s with ⟨_, he⟩ | ⟨hc, _, he⟩ | ⟨hc, hr, he⟩ <;> rw [he]
  · exact ⟨by decide, hbuf⟩
  · exact ⟨by decide, bufferOk_append hbuf hc hw⟩
  · obtain ⟨_, hsum⟩ := (hper ht).1 hphase
    have hcur := cursor_succ hc
    have hlt := s.rem.isLt
    have hrem : (BitVec.ofNat 16 (s.rem.toNat - (pulseDuration s.build v + gap))).toNat =
        s.rem.toNat - (pulseDuration s.build v + gap) :=
      Nat.mod_eq_of_lt (by omega)
    refine h.advance ⟨rfl, rfl, rfl, rfl, rfl, rfl, rfl, rfl⟩ (hcur ▸ Nat.le_succ _) (bufferOk_append hbuf hc hw)
      hones hpack fun _ => ⟨hcur ▸ Nat.succ_le_succ (hn ht), ?_⟩
    rw [frame_eq_below, hcur, Memory.below_succ_write, pulseTotal_append_singleton, ← frame_eq_below, hd, hrem]
    omega

/-- A byte appended to an open frame, in the transports with 8-bit elements (40 R100). -/
theorem appendByte_safe (ht : b.transport ≠ .pulseStuffed) (d : Byte) (h : OpenFrame b n s) :
    (appendByte d s).Safe (OpenFrame b (n + 1)) := by
  obtain ⟨rfl, _, ⟨hbuf, _, hones, hpack, _⟩, _⟩ := id h
  rcases append_cases (byteElement d) s with ⟨_, he⟩ | ⟨hc, he⟩ <;> rw [appendByte, he]
  · exact ⟨by decide, hbuf⟩
  · exact h.advance ⟨rfl, rfl, rfl, rfl, rfl, rfl, rfl, rfl⟩ (cursor_succ hc ▸ Nat.le_succ _)
      (bufferOk_append hbuf hc (byteElement_fits ht d)) hones hpack fun hp => absurd hp ht

/-- SwPack's byte in progress stays below `2^pk_count` (40 R107). -/
theorem packedByte_lt (p : Bool) {s : State} (h : s.pkByte.toNat < 2 ^ s.pkCount.toNat) :
    (packedByte p s).toNat < 2 ^ (s.pkCount.toNat + 1) := by
  have hbit : (BitVec.setWidth 8 (BitVec.ofBool p) <<< s.pkCount.toNat).toNat < 2 ^ (s.pkCount.toNat + 1) := by
    have hp : (BitVec.setWidth 8 (BitVec.ofBool p)).toNat ≤ 1 := by cases p <;> decide
    rw [BitVec.toNat_shiftLeft, Nat.shiftLeft_eq, Nat.pow_succ]
    refine lt_of_le_of_lt (Nat.mod_le _ _) ?_
    have := Nat.mul_le_mul_right (2 ^ s.pkCount.toNat) hp
    have := Nat.two_pow_pos s.pkCount.toNat
    omega
  rw [packedByte, BitVec.toNat_or]
  exact Nat.or_lt_two_pow (h.trans (Nat.pow_lt_pow_succ (by decide))) hbit

/-- Short of the flush, `pk_count` does not wrap. -/
theorem pkCount_succ {s : State} (h : s.pkCount ≠ 7) : (s.pkCount + 1).toNat = s.pkCount.toNat + 1 := by
  have := s.pkCount.isLt
  have : s.pkCount.toNat ≠ 7 := fun h7 => h (BitVec.eq_of_toNat_eq h7)
  rw [BitVec.toNat_add]
  exact Nat.mod_eq_of_lt (by simp; omega)

/-- SwPack counts one more physical bit, modulo 8, in an open frame (40 R107). -/
theorem swPack_safe (ht : b.transport = .swtimedStuffed) (p : Bool) (h : OpenFrame b n s) :
    (swPack p s).Safe fun t => OpenFrame b n t ∧ t.pkCount = s.pkCount + 1 := by
  obtain ⟨_, hdone, _⟩ := h.phase_ne
  have hin := h.inFrame
  obtain ⟨rfl, _, ⟨hbuf, _, hones, hpack, _⟩, _⟩ := id h
  have hnp : s.build.transport ≠ .pulseStuffed := by simp [ht]
  rcases swPack_cases p s with ⟨h7, he⟩ | ⟨h7, _, he⟩ | ⟨h7, hc, he⟩ <;> rw [he]
  · refine ⟨h.advance ⟨rfl, rfl, rfl, rfl, rfl, rfl, rfl, rfl⟩ le_rfl hbuf hones (fun _ _ => ⟨?_, ?_⟩)
      fun hp => absurd hp hnp, rfl⟩
    · rw [pkCount_succ h7]
      exact packedByte_lt p (hpack ht hin).1
    · exact fun hd => absurd hd hdone
  · exact ⟨by decide, hbuf⟩
  · exact ⟨h.advance ⟨rfl, rfl, rfl, rfl, rfl, rfl, rfl, rfl⟩ (cursor_succ hc ▸ Nat.le_succ _)
      (bufferOk_append hbuf hc (byteElement_fits hnp _)) hones (fun _ _ => ⟨Nat.one_pos, fun _ => rfl⟩)
      fun hp => absurd hp hnp, by rw [h7]; rfl⟩

/-- One logical bit through the encoder (40 R110). -/
theorem pbeEmitBit_safe (v : Bool) (h : OpenFrame b n s) : (pbeEmitBit v s).Safe (OpenFrame b (n + 1)) := by
  cases ht : b.transport with
  | pulseStuffed =>
    rw [pbeEmitBit_pulse (h.build ▸ ht)]
    exact pulseEmitBit_safe ht v h
  | swtimedStuffed =>
    rw [pbeEmitBit_swtimed (h.build ▸ ht)]
    exact safe_forEach (P := fun _ => OpenFrame b (n + 1)) (fun _ p _ hs => (swPack_safe ht p hs).mono fun _ => And.left)
      (physicalBits v) (n := 0) (h.recount (by simp [ht]))
  | escaped =>
    have he : pbeEmitBit v s = .completed s := by simp [pbeEmitBit, h.build, ht]
    rw [he]
    exact h.recount (by simp [ht])

/-- Any count of ones within R25's bound keeps the frame open. -/
theorem OpenFrame.withOnes (h : OpenFrame b n s) {k : BitVec 3} (hk : b.transport ≠ .escaped → k.toNat ≤ stuffLimit - 1) :
    OpenFrame b n { s with ones := k } := by
  obtain ⟨rfl, hphase, ⟨hbuf, _, _, hpack, hper⟩, hn⟩ := id h
  exact h.advance ⟨rfl, rfl, rfl, rfl, rfl, rfl, rfl, rfl⟩ le_rfl hbuf (fun ht _ => hk ht) hpack
    fun ht => ⟨hn ht, (hper ht).1 hphase⟩

/-- StuffedBit emits its bit, perhaps a stuffed 0, and keeps `ones` at most 4 (40 R111). -/
theorem stuffedBit_safe (v : Bool) (h : OpenFrame b n s) : (stuffedBit v s).Safe (OpenFrame b (n + 1)) := by
  have hzero {m : Nat} {t : State} (ht : OpenFrame b m t) : OpenFrame b m { t with ones := 0 } :=
    ht.withOnes fun _ => by decide
  cases v with
  | false =>
    rw [stuffedBit_false]
    exact (pbeEmitBit_safe false h).andThen fun _ ht => hzero ht
  | true =>
    rw [stuffedBit_true]
    refine (pbeEmitBit_safe true h).andThen fun t ht => ?_
    by_cases h4 : t.ones.toNat = 4
    · rw [if_pos h4]
      exact (pbeEmitBit_safe false ht).andThen fun _ hu => hzero (hu.recount fun _ => Nat.le_succ _)
    · rw [if_neg h4]
      refine ht.withOnes fun he => ?_
      obtain ⟨_, _, hones, _⟩ := ht.inv
      have hle : t.ones.toNat ≤ 4 := hones (ht.build.symm ▸ he) ht.inFrame
      rw [BitVec.toNat_add, stuffLimit]
      simp
      omega

theorem stuffByte_safe (d : Byte) (h : OpenFrame b n s) : (stuffByte d s).Safe (OpenFrame b (n + 8)) :=
  safe_forEach (P := OpenFrame b) (fun _ v _ => stuffedBit_safe v) (msbFirst d) h

theorem rawByte_safe (d : Byte) (h : OpenFrame b n s) : (rawByte d s).Safe (OpenFrame b (n + 8)) :=
  safe_forEach (P := OpenFrame b) (fun _ v _ => pbeEmitBit_safe v) (msbFirst d) h

/-- Any bytes appended in ESCAPED, where pulses are not counted. -/
theorem forEach_appendByte_safe (ht : b.transport ≠ .pulseStuffed) (bytes : List Byte) (h : OpenFrame b n s) (m : Nat) :
    (forEach appendByte bytes s).Safe (OpenFrame b m) :=
  (safe_forEach (P := OpenFrame b) (fun _ d _ => appendByte_safe ht d) bytes h).mono fun _ hs =>
    hs.recount fun hp => absurd hp ht

theorem noCrcByte_safe (d : Byte) (h : OpenFrame b n s) : (noCrcByte d s).Safe (OpenFrame b (n + 8)) := by
  rcases noCrcByte_cases d s with ⟨ht, he⟩ | ⟨_, he⟩ <;> rw [he]
  · exact forEach_appendByte_safe (by simp [← h.build, ht]) _ h _
  · exact stuffByte_safe d h

theorem emitByteCrcBody_safe (d : Byte) (h : OpenFrame b n s) : (emitByteCrcBody d s).Safe (OpenFrame b (n + 8)) := by
  have hcrc : OpenFrame b n (crcUpdate d s) := ⟨h.build, h.phase, h.inv, h.pulses⟩
  simp only [emitByteCrcBody]
  split
  · next ht => exact forEach_appendByte_safe (by rw [← hcrc.build, ht]; decide) _ hcrc _
  · exact stuffByte_safe d hcrc
  · exact stuffByte_safe d hcrc

theorem emitByteRawBody_safe (d : Byte) (h : OpenFrame b n s) : (emitByteRawBody d s).Safe (OpenFrame b (n + 8)) := by
  unfold emitByteRawBody
  split
  · next ht =>
    have hnp : b.transport ≠ .pulseStuffed := by simp [← h.build, ht]
    exact (appendByte_safe hnp d h).mono fun _ hs => hs.recount fun hp => absurd hp hnp
  · exact rawByte_safe d h
  · exact rawByte_safe d h

/-! ### The end of a frame -/

/-- An open frame with the 16 pulses of the checksum may enter TRAILER (42 R162). -/
theorem OpenFrame.trailer_inv (h : OpenFrame b 16 s) : Inv { s with phase := .trailer } := by
  obtain ⟨_, _, hfault⟩ := h.phase_ne
  have hin := h.inFrame
  obtain ⟨rfl, hphase, ⟨hbuf, hseq, hones, hpack, hper⟩, hn⟩ := h
  exact ⟨hbuf, sequencerOk_of_same hseq hfault rfl rfl (by simp) (by simp), fun ht _ => hones ht hin,
    fun ht _ => ⟨(hpack ht hin).1, by simp⟩, fun ht => ⟨fun _ => (hper ht).1 hphase, fun _ => hn ht, by simp⟩⟩

/-- The two checksum bytes bring 16 pulses (42 R162). -/
theorem emitChecksumBody_safe (h : OpenFrame b n s) : (emitChecksumBody s).Safe Inv :=
  (noCrcByte_safe _ (h.recount (m := 0) fun _ => Nat.zero_le _)).andThen fun _ h1 =>
    (noCrcByte_safe _ h1).andThen fun _ h2 => h2.trailer_inv

/-- An open frame on a byte boundary may enter DONE, in the transports without a period (42 R163). -/
theorem OpenFrame.done_inv (h : OpenFrame b n s) (hnp : b.transport ≠ .pulseStuffed)
    (hpk : b.transport = .swtimedStuffed → s.pkCount = 0) : Inv { s with phase := .done } := by
  obtain ⟨_, _, hfault⟩ := h.phase_ne
  have hin := h.inFrame
  obtain ⟨rfl, _, ⟨hbuf, hseq, hones, hpack, _⟩, _⟩ := h
  exact ⟨hbuf, sequencerOk_of_same hseq hfault rfl rfl (by simp) (by simp), fun ht _ => hones ht hin,
    fun ht _ => ⟨(hpack ht hin).1, fun _ => hpk ht⟩, fun ht => absurd ht hnp⟩

/-- PulseFinish finds the last duration, has room in it for the unused time, and leaves a frame of HALF_PERIOD units
(40 R105, R106). -/
theorem pulseFinish_safe (ht : b.transport = .pulseStuffed) (h : OpenFrame b 16 s) :
    (pulseFinish s).Safe fun t => Inv { t with phase := .done } := by
  obtain ⟨_, _, hfault⟩ := h.phase_ne
  have hin := h.inFrame
  obtain ⟨rfl, hphase, ⟨hbuf, hseq, hones, _, hper⟩, hn⟩ := h
  obtain ⟨_, hsum⟩ := (hper ht).1 hphase
  have hn := hn ht
  obtain ⟨k, hk⟩ : ∃ k, s.cursor.toNat = k + 1 := ⟨s.cursor.toNat - 1, by omega⟩
  have hlast : s.cursor.toNat - 1 = k := by omega
  obtain ⟨hcap, _, _, hwritten⟩ := id hbuf
  have hfit {v : Word} (hv : Memory.read s.buf k = some v) :
      s.rem.toNat + (pulseTotal (Memory.below s.buf k) + (v.toNat + gap)) = s.build.halfPeriod := by
    rw [← hsum, frame_eq_below, hk, Memory.below_succ hv, pulseTotal_append_singleton]
  have hhp := build_halfPeriod_le s.build
  rcases pulseFinish_cases s with ⟨h0, _⟩ | ⟨_, hv, _⟩ | ⟨_, v, hv, hbig, _⟩ | ⟨_, v, hv, hlt, he⟩
  · simp [h0] at hk
  · have := hwritten (s.cursor.toNat - 1) (by omega)
    simp [hv] at this
  · have := hfit (hlast ▸ hv)
    omega
  · rw [he, hlast]
    have hadd : (v + s.rem).toNat = v.toNat + s.rem.toNat := by
      rw [BitVec.toNat_add]
      exact Nat.mod_eq_of_lt hlt
    have hw : (v + s.rem).toNat < 2 ^ s.build.elemWidth := by
      rw [elemWidth_of_pulse ht]
      exact BitVec.isLt _
    have htotal : pulseTotal (Memory.below (Memory.write s.buf k (v + s.rem)) s.cursor.toNat) = s.build.halfPeriod := by
      rw [hk, Memory.below_succ_write, pulseTotal_append_singleton, hadd, ← hfit (hlast ▸ hv)]
      omega
    exact ⟨bufferOk_write hbuf (by omega) hw hcap fun _ hj => .inr hj,
      sequencerOk_of_same hseq hfault rfl rfl (by simp) (by simp), fun he _ => hones he hin,
      fun hs => by simp [ht] at hs, fun _ => ⟨by simp, by simp, fun _ => ⟨rfl, htotal⟩⟩⟩

/-- Given as many turns as the byte in progress lacks bits, the padding ends on a byte boundary (40 R109). -/
theorem swPad_safe (ht : b.transport = .swtimedStuffed) (k : Nat) (h : OpenFrame b n s)
    (hk : s.pkCount = 0 ∨ 8 ≤ k + s.pkCount.toNat) : (swPad k s).Safe fun t => OpenFrame b n t ∧ t.pkCount = 0 := by
  induction k generalizing s with
  | zero => exact ⟨h, hk.resolve_right (by have := s.pkCount.isLt; omega)⟩
  | succ k ih =>
    by_cases h0 : s.pkCount = 0
    · rw [swPad, if_pos h0]
      exact ⟨h, h0⟩
    · rw [swPad, if_neg h0]
      refine (swPack_safe ht true h).andThen fun t ⟨hopen, hcount⟩ => ih hopen ?_
      by_cases h7 : s.pkCount = 7
      · exact .inl (by rw [hcount, h7]; rfl)
      · have := hk.resolve_left h0
        have := pkCount_succ h7
        exact .inr (by rw [hcount]; omega)

/-- FINISH hands off a frame that meets the invariant, in each transport (42 R163). -/
theorem finishBody_safe (h : OpenFrame b 16 s) : (finishBody s).Safe Inv := by
  unfold finishBody pbeFinish
  rw [h.build]
  cases hb : b.transport with
  | pulseStuffed => exact (pulseFinish_safe hb h).andThen fun _ ht => ht
  | swtimedStuffed =>
    exact (swPad_safe hb 8 h (.inr (Nat.le_add_right _ _))).andThen fun _ ⟨ht, h0⟩ =>
      ht.done_inv (by simp [hb]) fun _ => h0
  | escaped => exact h.done_inv (by simp [hb]) fun hs => by simp [hb] at hs

end

/-! ### Every command, access and step -/

/-- RESET_FRAME starts a frame that meets the invariant (42 R161). -/
theorem startFrame_inv {s : State} (h : Inv s) (hs : s.phase ≠ .faulted) : Inv (startFrame s) := by
  obtain ⟨⟨_, hwf, hcells, _⟩, hseq, hones, _, _⟩ := h
  have hhp := build_halfPeriod_le s.build
  have hpos := build_halfPeriod_pos s.build
  refine ⟨⟨Nat.zero_le _, hwf, hcells, by simp⟩, sequencerOk_of_same hseq hs rfl rfl (by simp) (by simp),
    fun ht _ => ?_, fun ht _ => ?_, fun ht => ⟨fun _ => ?_, by simp, by simp⟩⟩
  · rw [startFrame_build] at ht
    cases hb : s.build.transport <;> simp_all
  · rw [startFrame_build] at ht
    simp [ht]
  · rw [startFrame_build] at ht ⊢
    have hrem : (startFrame s).rem.toNat = s.build.halfPeriod := by
      rw [startFrame_rem, if_pos ht]
      exact Nat.mod_eq_of_lt (by omega)
    have hframe : (startFrame s).frame = [] := rfl
    rw [hrem, hframe]
    exact ⟨hpos, rfl⟩

/-- Every command but RESET_FRAME is legal only while a frame is open (42 R160). -/
theorem open_of_legal {i : Instr} {p : Phase} (h : legal i p = true) (hi : i ≠ .resetFrame) :
    p = .payload ∨ p = .trailer := by
  cases p with
  | payload => exact .inl rfl
  | trailer => exact .inr rfl
  | idle | done | faulted => cases i <;> simp_all [legal]

theorem trailer_of_legal_finish {p : Phase} (h : legal .finish p = true) : p = .trailer := by
  cases p with
  | trailer => rfl
  | idle | payload | done | faulted => cases h

theorem Inv.openFrame {s : State} (h : Inv s) (hp : s.phase = .payload ∨ s.phase = .trailer) :
    OpenFrame s.build 0 s :=
  ⟨rfl, hp, h, fun _ => Nat.zero_le _⟩

/-- In TRAILER the pulses of the checksum are in the buffer (42 R163). -/
theorem Inv.openTrailer {s : State} (h : Inv s) (hp : s.phase = .trailer) : OpenFrame s.build 16 s := by
  obtain ⟨_, _, _, _, hper⟩ := id h
  refine ⟨rfl, .inr hp, h, fun ht => ?_⟩
  obtain ⟨_, htrailer, _⟩ := hper ht
  exact htrailer hp

/-- Every command keeps the invariant and does not stop the model, in a phase where it is legal. -/
theorem commandBody_safe (i : Instr) {s : State} (h : Inv s) (hs : s.phase ≠ .faulted) (hl : legal i s.phase = true) :
    (commandBody i s).Safe Inv := by
  have hopen (hi : i ≠ .resetFrame) := Inv.openFrame h (open_of_legal hl hi)
  cases i with
  | resetFrame => exact startFrame_inv h hs
  | emitByteCrc d => exact (emitByteCrcBody_safe d (hopen (by simp))).mono fun _ => OpenFrame.inv
  | emitByteNocrc d => exact (noCrcByte_safe d (hopen (by simp))).mono fun _ => OpenFrame.inv
  | emitByteRaw d => exact (emitByteRawBody_safe d (hopen (by simp))).mono fun _ => OpenFrame.inv
  | emitChecksum => exact emitChecksumBody_safe (hopen (by simp))
  | finish => exact finishBody_safe (Inv.openTrailer h (trailer_of_legal_finish hl))

theorem faultEntry_inv {s : State} {c : Cause} (hc : c ≠ .noFault) (h : BufferOk s) (w : Word) :
    Inv (faultEntry c w s) :=
  ⟨h, by simp [SequencerOk, hc], by simp [OnesOk], by simp [PackerOk], by simp [PeriodOk]⟩

theorem settle_safe {m : Micro} (h : m.Safe Inv) (w : Word) : ∃ t, settle w m = .next t ∧ Inv t := by
  cases m with
  | completed s => exact ⟨s, rfl, h⟩
  | raised c s => exact ⟨_, rfl, faultEntry_inv h.1 h.2 w⟩
  | stopped f => exact h.elim

/-- A command takes a state of the invariant to one (42 R160). -/
theorem exec_inv (i : Instr) {s : State} (h : Inv s) : ∃ t, exec i s = .next t ∧ Inv t := by
  rw [exec_eq]
  rcases runCommand_cases i (commandBody i) s with ⟨_, he⟩ | ⟨_, _, he⟩ | ⟨hs, hl, he⟩ <;> rw [he]
  · exact ⟨s, rfl, h⟩
  · exact ⟨_, rfl, faultEntry_inv (by decide) h.1 _⟩
  · exact settle_safe (commandBody_safe i h hs hl) _

theorem deliver_inv (w : Word) {s : State} (h : Inv s) : ∃ t, deliver w s = .next t ∧ Inv t := by
  rcases deliver_cases w s with ⟨_, he⟩ | ⟨_, _, he⟩ | ⟨_, i, _, he⟩ <;> rw [he]
  · exact ⟨s, rfl, h⟩
  · exact ⟨_, rfl, faultEntry_inv (by decide) h.1 _⟩
  · exact exec_inv i h

/-- The element a DATA read of the handed-off frame asks for has been written (20 R59, 10 R40). -/
theorem readDataPort_inv (i : Nat) {s : State} (h : Inv s) : ∃ t, readDataPort i s = .next t ∧ Inv t := by
  rcases readDataPort_cases i s with ⟨_, _, v, _, he⟩ | ⟨_, hi, hv, _⟩ | ⟨_, he⟩
  · exact ⟨_, he, h⟩
  · obtain ⟨⟨_, _, _, hwritten⟩, _⟩ := h
    simpa [hv] using hwritten i hi
  · exact ⟨_, he, h⟩

theorem powerOn_inv (b : Build) : Inv (State.powerOn b) :=
  ⟨⟨Nat.zero_le _, rfl, by simp, by simp⟩, by simp [SequencerOk], by simp [OnesOk], by simp [PackerOk],
    by simp [PeriodOk]⟩

/-- From a state of the invariant a step answers a next state, and the invariant holds there. -/
theorem step_inv {s : State} (h : Inv s) : ∃ t, step s = .next t ∧ Inv t := by
  rcases step_cases s with ⟨_, he⟩ | ⟨_, _, rest, _, _, he⟩ | ⟨w, rest, _, he⟩ | ⟨_, rest, _, he⟩ | ⟨i, rest, _, he⟩ |
    ⟨rest, _, he⟩ <;> rw [he]
  · exact ⟨s, rfl, h⟩
  · exact ⟨_, rfl, h⟩
  · exact deliver_inv w (s := { s with inbox := rest }) h
  · exact ⟨_, rfl, h⟩
  · exact readDataPort_inv i (s := { s with inbox := rest }) h
  · exact ⟨_, rfl, powerOn_inv s.build⟩

/-- Settles O49: a step from a state of the invariant has a next state that meets it, and a step has only one. -/
theorem stepKeepsTheInvariant : Obligations.StepKeepsTheInvariant := by
  intro s t h hstep
  obtain ⟨u, hu, hinv⟩ := step_inv h
  obtain rfl : u = t := by simpa [hu] using hstep
  exact hinv

/-- Settles O50: the other half of the same lemma. -/
theorem stepFromTheInvariantNeverStops : Obligations.StepFromTheInvariantNeverStops := fun _ h =>
  (step_inv h).imp fun _ => And.left

/-! ## The state and its registers (10 R34 to R40) -/

/-- Settles O12: the fields of power-on as the model names them, in every build. -/
theorem resetLeavesIdle : Obligations.ResetLeavesIdle :=
  ⟨rfl, rfl, rfl, rfl, fun _ => ⟨rfl, rfl, rfl, rfl, rfl, rfl⟩⟩

/-- Settles O48: power-on meets the invariant in every build, that of `State.reset` among them. -/
theorem resetMeetsTheInvariant : Obligations.ResetMeetsTheInvariant :=
  ⟨powerOn_inv _, powerOn_inv⟩

section
variable {s : State} {offset : BitVec 4} {rest : List Access}

/-- A read of a register answers with it and changes nothing else (20 R63). -/
theorem step_readRegister (h : s.inbox = .readRegister offset :: rest) :
    step s = .next { s with inbox := rest, reply := s.register offset } := by
  simp only [step, takeAccess, h]
  rfl

/-- A write to any register but CMD is ignored (20 R63). -/
theorem step_write_ignored {v : Word} (h : s.inbox = .write offset v :: rest) (ho : offset ≠ 0) :
    step s = .next { s with inbox := rest } := by
  simp only [step, takeAccess, h]
  exact if_neg ho

end

/-! The fields of STATUS (10 R35) and of CONFIG (10 R34), in the order of their bits. -/

section
variable (s : State) (b : Build)

theorem status_phase : s.status.extractLsb' 0 3 = s.phase.code := BitVec.extractLsb'_append_eq_right

theorem status_valid : s.status.getLsbD 3 = s.validFlag := by
  simp only [State.status, BitVec.getLsbD_append]
  simp

theorem status_cause : s.status.extractLsb' 4 3 = s.cause.code := by
  rw [State.status, BitVec.extractLsb'_append_eq_of_le (by decide), BitVec.extractLsb'_append_eq_of_le (by decide)]
  exact BitVec.extractLsb'_append_eq_right

theorem status_fault : s.status.getLsbD 7 = s.faultFlag := by
  simp only [State.status, BitVec.getLsbD_append]
  simp

theorem status_reserved : s.status.extractLsb' 8 8 = 0#8 := by
  simp (disch := decide) only [State.status, BitVec.extractLsb'_append_eq_of_le]
  rfl

theorem configWord_transport : (configWord b).extractLsb' 0 2 = transportCode b.transport :=
  BitVec.extractLsb'_append_eq_right

theorem configWord_crcOrder : (configWord b).getLsbD 2 = (b.crcOrder == .loFirst) := by
  simp only [configWord, BitVec.getLsbD_append]
  simp

theorem configWord_escapes : (configWord b).getLsbD 3 = (b.transport == .escaped && b.escNocrcEscapes) := by
  simp only [configWord, BitVec.getLsbD_append]
  simp

theorem configWord_reserved : (configWord b).extractLsb' 4 12 = 0#12 := by
  simp (disch := decide) only [configWord, BitVec.extractLsb'_append_eq_of_le]
  rfl

end

/-- No two transports have one code (10 R34). -/
theorem transportCode_inj {t u : Transport} : transportCode t = transportCode u ↔ t = u := by
  cases t <;> cases u <;> decide

theorem powerOn_status (b : Build) : (State.powerOn b).register 1 = 0 := by
  show 0#8 ++ BitVec.ofBool false ++ 0#3 ++ BitVec.ofBool false ++ 0#3 = 0#16
  decide

/-- Settles O13: each field of STATUS by the lemma about its bits; the accesses by the register map. -/
theorem statusReportsPhaseAndCause : Obligations.StatusReportsPhaseAndCause := by
  refine ⟨fun s => ⟨?_, ?_, ?_, ?_, status_reserved s⟩, powerOn_status, fun _ _ h => step_readRegister h,
    fun _ _ _ h => step_write_ignored h (by decide)⟩
  · exact (status_phase s).trans (by cases s.phase <;> rfl)
  · exact (status_valid s) ▸ beq_iff_eq
  · exact (status_cause s).trans (by cases s.cause <;> rfl)
  · exact (status_fault s) ▸ beq_iff_eq

/-- Settles O15: the two registers are the fields, and bit 3 of STATUS is the condition of the observation. -/
theorem lengthAndFaultCmdReadTheirFields : Obligations.LengthAndFaultCmdReadTheirFields := by
  refine ⟨fun s => ⟨rfl, rfl, fun h => ?_, fun h => ?_⟩, fun _ => ⟨rfl, rfl⟩, fun s v rest h => ?_⟩
  · rw [status_valid] at h
    exact if_pos (beq_iff_eq.1 h)
  · rw [status_valid] at h
    exact if_neg (beq_eq_false_iff_ne.1 h)
  · rcases h with h | h <;> exact step_write_ignored h (by decide)

/-! ## What every step leaves alone (10 R20, R23) -/

/-- What a command's micro-operations and fault entry keep, the command keeps. -/
theorem exec_keeps {P : State → Prop} {i : Instr} {s t : State} (hfault : ∀ c w u, P u → P (faultEntry c w u))
    (hs : P s) (hbody : (commandBody i s).Keeps P) (h : exec i s = .next t) : P t := by
  rw [exec_eq] at h
  rcases runCommand_cases i (commandBody i) s with ⟨_, he⟩ | ⟨_, _, he⟩ | ⟨_, _, he⟩ <;> rw [he] at h
  · cases h
    exact hs
  · cases h
    exact hfault _ _ _ hs
  · rcases settle_eq_next.1 h with hm | ⟨c, u, hm, rfl⟩ <;> rw [hm] at hbody
    · exact hbody
    · exact hfault _ _ _ hbody

/-- A property that survives fault entry, does not look at the model's own fields and is kept by the command delivered
is kept by the step, unless that is power-on reset. -/
theorem step_keeps {P : State → Prop} {s t : State} (hfault : ∀ c w u, P u → P (faultEntry c w u))
    (hown : ∀ (u : State) inbox reply draws, P u → P { u with inbox := inbox, reply := reply, draws := draws })
    (hcommand : ∀ w i rest, s.inbox = .write 0 w :: rest → decode w = .ok i →
      (commandBody i { s with inbox := rest }).Keeps P)
    (hs : P s) (h : step s = .next t) :
    P t ∨ ∃ rest, s.inbox = .powerOnReset :: rest ∧ t = powerOnReset { s with inbox := rest } := by
  have hrest (rest : List Access) : P { s with inbox := rest } := hown s rest s.reply s.draws hs
  rcases step_cases s with ⟨_, he⟩ | ⟨_, _, rest, _, _, he⟩ | ⟨w, rest, hw, he⟩ | ⟨_, rest, _, he⟩ | ⟨i, rest, _, he⟩ |
    ⟨rest, hr, he⟩ <;> rw [he] at h
  · cases h
    exact .inl hs
  · cases h
    exact .inl (hrest rest)
  · left
    rcases deliver_cases w { s with inbox := rest } with ⟨_, hd⟩ | ⟨_, _, hd⟩ | ⟨_, i, hi, hd⟩ <;> rw [hd] at h
    · cases h
      exact hrest rest
    · cases h
      exact hfault _ _ _ (hrest rest)
    · exact exec_keeps hfault (hrest rest) (hcommand w i rest hw hi) h
  · cases h
    exact .inl (hown s rest _ s.draws hs)
  · left
    rcases readDataPort_cases i { s with inbox := rest } with ⟨_, _, v, _, hd⟩ | ⟨_, _, _, hd⟩ | ⟨_, hd⟩ <;> rw [hd] at h
    · cases h
      exact hown s rest _ s.draws hs
    · cases h
    · cases h
      exact hown s rest _ _ hs
  · cases h
    exact .inr ⟨rest, hr, rfl⟩

/-- The build is `b` and the cursor has not fallen below `n`. -/
def GrownFrom (b : Build) (n : Nat) (s : State) : Prop := s.build = b ∧ n ≤ s.cursor.toNat

section
variable {b : Build} {n : Nat} {s : State}

theorem append_grown (v : Word) (h : GrownFrom b n s) : (append v s).Keeps (GrownFrom b n) := by
  obtain ⟨hb, hn⟩ := id h
  rcases append_cases v s with ⟨_, he⟩ | ⟨hc, he⟩ <;> rw [he]
  · exact h
  · exact ⟨hb, cursor_succ hc ▸ hn.trans (Nat.le_succ _)⟩

theorem pulseEmitBit_grown (v : Bool) (h : GrownFrom b n s) : (pulseEmitBit v s).Keeps (GrownFrom b n) := by
  refine (append_grown _ h).andThen fun t ht => ?_
  split <;> exact ht

theorem swPack_grown (p : Bool) (h : GrownFrom b n s) : (swPack p s).Keeps (GrownFrom b n) := by
  obtain ⟨hb, hn⟩ := id h
  rcases swPack_cases p s with ⟨_, he⟩ | ⟨_, _, he⟩ | ⟨_, hc, he⟩ <;> rw [he]
  · exact h
  · exact h
  · exact ⟨hb, cursor_succ hc ▸ hn.trans (Nat.le_succ _)⟩

theorem pbeEmitBit_grown (v : Bool) (h : GrownFrom b n s) : (pbeEmitBit v s).Keeps (GrownFrom b n) := by
  unfold pbeEmitBit
  split
  · exact pulseEmitBit_grown v h
  · exact keeps_forEach (fun p _ => swPack_grown p) _ h
  · exact h

theorem stuffedBit_grown (v : Bool) (h : GrownFrom b n s) : (stuffedBit v s).Keeps (GrownFrom b n) := by
  refine (pbeEmitBit_grown v h).andThen fun t ht => ?_
  split_ifs
  · exact (pbeEmitBit_grown false ht).andThen fun _ hu => hu
  · exact ht
  · exact ht

theorem stuffByte_grown (d : Byte) (h : GrownFrom b n s) : (stuffByte d s).Keeps (GrownFrom b n) :=
  keeps_forEach (fun v _ => stuffedBit_grown v) _ h

theorem rawByte_grown (d : Byte) (h : GrownFrom b n s) : (rawByte d s).Keeps (GrownFrom b n) :=
  keeps_forEach (fun v _ => pbeEmitBit_grown v) _ h

theorem appendBytes_grown (bytes : List Byte) (h : GrownFrom b n s) :
    (forEach appendByte bytes s).Keeps (GrownFrom b n) :=
  keeps_forEach (fun d _ => append_grown (byteElement d)) _ h

theorem noCrcByte_grown (d : Byte) (h : GrownFrom b n s) : (noCrcByte d s).Keeps (GrownFrom b n) := by
  rcases noCrcByte_cases d s with ⟨_, he⟩ | ⟨_, he⟩ <;> rw [he]
  · exact appendBytes_grown _ h
  · exact stuffByte_grown d h

theorem swPad_grown (k : Nat) (h : GrownFrom b n s) : (swPad k s).Keeps (GrownFrom b n) := by
  induction k generalizing s with
  | zero => exact h
  | succ k ih =>
    rw [swPad]
    split
    · exact h
    · exact (swPack_grown true h).andThen fun _ => ih

theorem pbeFinish_grown (h : GrownFrom b n s) : (pbeFinish s).Keeps (GrownFrom b n) := by
  unfold pbeFinish
  split
  · rcases pulseFinish_cases s with ⟨_, he⟩ | ⟨_, _, he⟩ | ⟨_, v, _, _, he⟩ | ⟨_, v, _, _, he⟩ <;> rw [he]
    · exact h
    · trivial
    · trivial
    · exact h
  · exact swPad_grown 8 h
  · exact h

/-- No command writes a build parameter, and none but RESET_FRAME lowers the cursor (10 R20, R23). -/
theorem commandBody_grown (i : Instr) (hi : i = .resetFrame → n = 0) (h : GrownFrom b n s) :
    (commandBody i s).Keeps (GrownFrom b n) := by
  cases i with
  | resetFrame => exact ⟨h.1, (hi rfl).le⟩
  | emitByteCrc d =>
    simp only [commandBody, emitByteCrcBody]
    split
    · exact appendBytes_grown _ (s := crcUpdate d s) h
    · exact stuffByte_grown d (s := crcUpdate d s) h
    · exact stuffByte_grown d (s := crcUpdate d s) h
  | emitByteNocrc d => exact noCrcByte_grown d h
  | emitByteRaw d =>
    simp only [commandBody, emitByteRawBody]
    split
    · exact append_grown _ h
    · exact rawByte_grown d h
    · exact rawByte_grown d h
  | emitChecksum =>
    exact (noCrcByte_grown _ h).andThen fun _ ht => (noCrcByte_grown _ ht).andThen fun _ hu => hu
  | finish =>
    refine Micro.Keeps.andThen (P := GrownFrom b n) ?_ fun _ ht => ht
    split
    · exact pbeFinish_grown h
    · exact h

end

theorem withoutOperand_eq_ok {i j : Instr} {d : Byte} : withoutOperand i d = .ok j ↔ d = 0 ∧ i = j := by
  by_cases hd : d = 0
  · simp [withoutOperand, hd]
  · rw [withoutOperand, if_neg hd]
    exact ⟨(by cases ·), fun h => absurd h.1 hd⟩

/-- The opcode and DATA of RESET_FRAME (30 R73, R77). -/
theorem opcodeMeaning_resetFrame {op : BitVec 4} {d : Byte} (h : opcodeMeaning op d = .ok .resetFrame) :
    op = 1 ∧ d = 0 := by
  unfold opcodeMeaning at h
  split_ifs at h with hop <;> simp only [withoutOperand_eq_ok, Except.ok.injEq, reduceCtorEq, and_false] at h
  exact ⟨hop, h.1⟩

/-- The only word of RESET_FRAME (30 R73, R76, R77). -/
theorem word_of_decode_resetFrame {w : Word} (h : decode w = .ok .resetFrame) : w = 0x1000 := by
  unfold decode at h
  split_ifs at h with _ hrsv
  obtain ⟨hop, hdata⟩ := opcodeMeaning_resetFrame h
  have hop := Laws.opField_toNat w ▸ congrArg BitVec.toNat hop
  have hrsv := Laws.rsvField_toNat w ▸ congrArg BitVec.toNat (not_not.1 hrsv)
  have hdata := Laws.dataField_toNat w ▸ congrArg BitVec.toNat hdata
  apply BitVec.eq_of_toNat_eq
  simp at hop hrsv hdata ⊢
  omega

/-- Settles O45: a command's micro-operations keep the build, and so does power-on reset. -/
theorem stepNeverChangesTheBuild : Obligations.StepNeverChangesTheBuild := by
  intro s t h
  rcases step_keeps (P := GrownFrom s.build 0) (fun _ _ _ hu => hu) (fun _ _ _ _ hu => hu)
    (fun _ i rest _ _ => commandBody_grown (s := { s with inbox := rest }) i (fun _ => rfl) ⟨rfl, Nat.zero_le _⟩)
    ⟨rfl, Nat.zero_le _⟩ h with ⟨hb, _⟩ | ⟨_, _, rfl⟩
  · exact hb
  · rfl

/-- Settles O14: CONFIG field by field; no step changes it, since none changes the build. -/
theorem configReportsTheBuild : Obligations.ConfigReportsTheBuild := by
  refine ⟨fun s => ⟨?_, ?_, ?_, ?_, ?_, configWord_reserved s.build⟩, fun _ _ _ h => step_write_ignored h (by decide),
    fun _ => rfl, fun s t h => congrArg configWord (stepNeverChangesTheBuild s t h)⟩
  · exact (configWord_transport s.build) ▸ transportCode_inj (u := .pulseStuffed)
  · exact (configWord_transport s.build) ▸ transportCode_inj (u := .swtimedStuffed)
  · exact (configWord_transport s.build) ▸ transportCode_inj (u := .escaped)
  · exact (configWord_crcOrder s.build) ▸ beq_iff_eq
  · exact (configWord_escapes s.build) ▸ by simp

/-- What a step may do to the cursor of `s`: not lower it, or clear it because RESET_FRAME was delivered (10 R23). -/
def CursorKeptOrReset (s u : State) : Prop :=
  s.cursor.toNat ≤ u.cursor.toNat ∨ u.cursor = 0 ∧ ∃ rest, s.inbox = .write 0 0x1000 :: rest

theorem commandBody_keeps_cursor {s : State} {w : Word} {rest : List Access} {i : Instr}
    (hw : s.inbox = .write 0 w :: rest) (hd : decode w = .ok i) :
    (commandBody i { s with inbox := rest }).Keeps (CursorKeptOrReset s) := by
  by_cases hi : i = .resetFrame
  · subst hi
    exact .inr ⟨rfl, rest, word_of_decode_resetFrame hd ▸ hw⟩
  · exact (commandBody_grown i (absurd · hi) ⟨rfl, le_rfl⟩).mono fun _ ⟨_, hle⟩ => .inl hle

/-- Settles O46: a command other than RESET_FRAME does not lower the cursor, and RESET_FRAME clears it. -/
theorem onlyResetsLowerTheCursor : Obligations.OnlyResetsLowerTheCursor := by
  intro s t h hlt
  rcases step_keeps (P := CursorKeptOrReset s) (fun _ _ _ hu => hu) (fun _ _ _ _ hu => hu)
    (fun _ _ _ hw hd => commandBody_keeps_cursor hw hd) (.inl le_rfl) h with
    (hge | ⟨h0, rest, hr⟩) | ⟨rest, hr, rfl⟩
  · omega
  · exact ⟨rest, .inl hr, h0⟩
  · exact ⟨rest, .inr hr, rfl⟩

end Sys2Proof.Machine

namespace Sys2Proof.Machine

/-! ## The host's reads and the handed-off frame (20) -/

/-- Where every element below `n` has been written, element `i` of them is what index `i` reads as. -/
theorem Memory.below_getElem? {m : Memory} {n i : Nat} (h : ∀ j < n, (Memory.read m j).isSome = true) (hi : i < n) :
    (Memory.below m n)[i]? = Memory.read m i := by
  have hmap : Memory.below m n = (List.range n).map fun j => (Memory.read m j).getD 0 := by
    rw [← List.filterMap_eq_map']
    refine List.filterMap_congr fun j hj => ?_
    obtain ⟨v, hv⟩ := Option.isSome_iff_exists.1 (h j (List.mem_range.1 hj))
    simp [hv]
  obtain ⟨v, hv⟩ := Option.isSome_iff_exists.1 (h i hi)
  simp [hmap, hi, hv]

section
variable {s : State} {rest : List Access}

/-- A DATA read is taken by the DATA port (20 R59). -/
theorem step_readData {i : Nat} (h : s.inbox = .readData i :: rest) :
    step s = readDataPort i { s with inbox := rest } := by
  simp only [step, takeAccess, h]
  rfl

/-- A write to CMD delivers the word (30 R82). -/
theorem step_write_cmd {w : Word} (h : s.inbox = .write 0 w :: rest) :
    step s = deliver w { s with inbox := rest } := by
  simp only [step, takeAccess, h]
  rfl

/-- CMD and the reserved offsets read 0 (20 R63). -/
theorem register_eq_zero {offset : BitVec 4} (h : offset = 0 ∨ 5 ≤ offset.toNat) : s.register offset = 0 := by
  rcases h with rfl | h
  · rfl
  · have hne (k : BitVec 4) (hk : k.toNat < 5) : offset ≠ k := fun he => by subst he; omega
    rw [State.register, if_neg (hne 1 (by decide)), if_neg (hne 2 (by decide)), if_neg (hne 3 (by decide)),
      if_neg (hne 4 (by decide))]

/-- RESET_FRAME is the only command that does not fault in DONE (42 R160). -/
theorem exec_done (hs : s.phase = .done) {i : Instr} (hi : i ≠ .resetFrame) :
    exec i s = .next (faultEntry .sequenceError (encode i) s) := by
  rw [exec_eq]
  rcases runCommand_cases i (commandBody i) s with ⟨hp, _⟩ | ⟨_, _, he⟩ | ⟨_, hl, _⟩
  · simp [hs] at hp
  · exact he
  · simpa [hs] using open_of_legal hl hi

/-- In DONE the word of RESET_FRAME starts a frame and every other word faults (42 R160, 60 R202). -/
theorem deliver_done (w : Word) (hs : s.phase = .done) :
    (w = 0x1000 ∧ deliver w s = .next (startFrame s)) ∨
    (w ≠ 0x1000 ∧ ∃ c v, deliver w s = .next (faultEntry c v s)) := by
  have hreset : decode 0x1000 = .ok .resetFrame := rfl
  rcases deliver_cases w s with ⟨hp, _⟩ | ⟨_, ⟨e, hd⟩, he⟩ | ⟨_, i, hd, he⟩
  · simp [hs] at hp
  · refine .inr ⟨?_, _, _, he⟩
    rintro rfl
    cases hd.symm.trans hreset
  · by_cases hi : i = .resetFrame
    · subst hi
      refine .inl ⟨word_of_decode_resetFrame hd, he.trans ?_⟩
      simp [exec, execResetFrame, runCommand, hs, legal, settle]
    · refine .inr ⟨?_, _, _, he.trans (exec_done hs hi)⟩
      rintro rfl
      exact hi (Except.ok.inj (hd.symm.trans hreset))

end

/-- Settles O17: every element below `cursor` has been written, so the port answers one, which is the frame's. -/
theorem dataPortReturnsTheHandedOffElement : Obligations.DataPortReturnsTheHandedOffElement := by
  intro s i rest ⟨⟨_, _, hcells, hwritten⟩, _⟩ hin hdone hi
  have hframe : s.frame[i]? = Memory.read s.buf i := Memory.below_getElem? hwritten hi
  rw [hframe, step_readData hin]
  rcases readDataPort_cases i { s with inbox := rest } with ⟨_, _, v, hv, he⟩ | ⟨_, _, hv, _⟩ | ⟨hn, _⟩
  · exact ⟨v, hv, (hcells _ (Memory.mem_of_read hv)).2, he⟩
  · simpa [show Memory.read s.buf i = none from hv] using hwritten i hi
  · exact absurd ⟨hdone, hi⟩ hn

/-- Settles O47: of the accesses only a delivered word and power-on reset touch the frame, and in DONE a word either
starts a frame or faults. -/
theorem handoffLastsUntilResetOrFault : Obligations.HandoffLastsUntilResetOrFault := by
  intro s t hdone h
  rcases step_cases s with ⟨_, he⟩ | ⟨_, _, rest, _, _, he⟩ | ⟨w, rest, hw, he⟩ | ⟨_, rest, _, he⟩ | ⟨i, rest, _, he⟩ |
    ⟨rest, hr, he⟩ <;> rw [he] at h
  · cases h
    exact .inl ⟨hdone, rfl, rfl, rfl⟩
  · cases h
    exact .inl ⟨hdone, rfl, rfl, rfl⟩
  · rcases deliver_done (s := { s with inbox := rest }) w hdone with ⟨rfl, hd⟩ | ⟨hne, c, v, hd⟩ <;> rw [hd] at h <;>
      cases h
    · exact .inr (.inr (.inl ⟨rfl, rest, hw⟩))
    · exact .inr (.inl ⟨rfl, w, rest, hw, hne⟩)
  · cases h
    exact .inl ⟨hdone, rfl, rfl, rfl⟩
  · rcases readDataPort_cases i { s with inbox := rest } with ⟨_, _, v, _, hd⟩ | ⟨_, _, _, hd⟩ | ⟨_, hd⟩ <;>
      rw [hd] at h <;> cases h
    · exact .inl ⟨hdone, rfl, rfl, rfl⟩
    · exact .inl ⟨hdone, rfl, rfl, rfl⟩
  · cases h
    exact .inr (.inr (.inr ⟨rfl, rest, hr⟩))

/-- Settles O16: the accesses by their rules, the registers by the map. -/
theorem registerMapReadsAndIgnoredWrites : Obligations.RegisterMapReadsAndIgnoredWrites := fun _ _ _ _ =>
  ⟨step_readRegister, register_eq_zero, rfl, rfl, rfl, rfl, fun h h0 => step_write_cmd (h0 ▸ h), step_write_ignored⟩

/-- Settles O18: outside the handoff the port answers with the model's free value. -/
theorem dataPortOutsideTheHandoffAnswersSomeValue : Obligations.DataPortOutsideTheHandoffAnswersSomeValue := by
  intro s i rest hin hout
  have hn : ¬(s.phase = .done ∧ i < s.cursor.toNat) := fun ⟨hp, hi⟩ => hout.elim (absurd hp) (absurd hi ·.not_gt)
  rw [step_readData hin]
  rcases readDataPort_cases i { s with inbox := rest } with ⟨hp, hi, _⟩ | ⟨hp, hi, _⟩ | ⟨_, he⟩
  · exact absurd ⟨hp, hi⟩ hn
  · exact absurd ⟨hp, hi⟩ hn
  · exact ⟨_, he⟩

end Sys2Proof.Machine

namespace Sys2Proof.Machine

/-! ## Commands and their words (30) -/

section
open Laws

/-- A command whose word shows its fields is read back by `Decode` (30 R74). -/
theorem decode_encode_of_roundTrip {i : Instr} (h : RoundTrip.Statement i) : decode (encode i) = .ok i := by
  obtain ⟨hop, hrsv, hmeaning⟩ := h
  simp [decode, hop, hrsv, hmeaning]

/-- Settles O1, command by command. -/
theorem decodeOfEncodeIsTheCommand : Obligations.DecodeOfEncodeIsTheCommand
  | .resetFrame => decode_encode_of_roundTrip RoundTrip.resetFrame
  | .emitByteCrc d => decode_encode_of_roundTrip (RoundTrip.emitByteCrc d)
  | .emitByteNocrc d => decode_encode_of_roundTrip (RoundTrip.emitByteNocrc d)
  | .emitByteRaw d => decode_encode_of_roundTrip (RoundTrip.emitByteRaw d)
  | .emitChecksum => decode_encode_of_roundTrip RoundTrip.emitChecksum
  | .finish => decode_encode_of_roundTrip RoundTrip.finish

/-- A word whose RSV is 0 is its opcode and DATA put together again (30 R71). -/
theorem commandWord_fields {w : Word} (h : rsvField w = 0) : commandWord (opField w) (dataField w) = w := by
  have hrsv : w.toNat / 256 % 16 = 0 := rsvField_toNat w ▸ congrArg BitVec.toNat h
  apply BitVec.eq_of_toNat_eq
  rw [commandWord_toNat, opField_toNat, dataField_toNat]
  omega

/-- A command without operand has the word of its opcode and the DATA it was read with (30 R77). -/
theorem encode_of_withoutOperand {op : BitVec 4} {d : Byte} {i j : Instr} (hj : encode j = commandWord op 0)
    (h : withoutOperand j d = .ok i) : encode i = commandWord op d := by
  obtain ⟨rfl, rfl⟩ := withoutOperand_eq_ok.1 h
  exact hj

/-- The command an opcode and a DATA byte stand for has the word made of them (30 R73). -/
theorem encode_of_opcodeMeaning {op : BitVec 4} {d : Byte} {i : Instr} (h : opcodeMeaning op d = .ok i) :
    encode i = commandWord op d := by
  unfold opcodeMeaning at h
  split_ifs at h <;> subst op
  · exact encode_of_withoutOperand rfl h
  · exact congrArg encode (Except.ok.inj h).symm
  · exact congrArg encode (Except.ok.inj h).symm
  · exact congrArg encode (Except.ok.inj h).symm
  · exact encode_of_withoutOperand rfl h
  · exact encode_of_withoutOperand rfl h

/-- Settles O2: the command has the word's opcode and DATA, and RSV is 0. -/
theorem encodeOfDecodeIsTheWord : Obligations.EncodeOfDecodeIsTheWord := by
  intro w i h
  unfold decode at h
  split_ifs at h with _ hrsv
  exact (encode_of_opcodeMeaning h).trans (commandWord_fields (not_not.1 hrsv))

/-- `decode` and `encode` are inverse to each other (30 R74). -/
theorem decode_eq_ok_iff {w : Word} {i : Instr} : decode w = .ok i ↔ encode i = w :=
  ⟨encodeOfDecodeIsTheWord w i, fun h => h ▸ decodeOfEncodeIsTheCommand i⟩

theorem encode_injective : Function.Injective encode := fun i _ h =>
  Except.ok.inj ((decodeOfEncodeIsTheCommand i).symm.trans (decode_eq_ok_iff.2 h.symm))

/-! ### The opcode map -/

/-- The mask of the emit commands tests OP and RSV (30 R73). -/
theorem and_emitMask_eq_iff {w : Word} {op : BitVec 4} :
    w &&& 0xFF00#16 = commandWord op 0 ↔ ∃ d, commandWord op d = w := by
  constructor
  · intro h
    have hop := congrArg opField h
    have hrsv := congrArg rsvField h
    rw [opField_commandWord, opField, BitVec.extractLsb'_and] at hop
    rw [rsvField_commandWord, rsvField, BitVec.extractLsb'_and] at hrsv
    have hop : opField w = op := (BitVec.and_allOnes (x := opField w)).symm.trans hop
    have hrsv : rsvField w = 0 := (BitVec.and_allOnes (x := rsvField w)).symm.trans hrsv
    exact ⟨dataField w, hop ▸ commandWord_fields hrsv⟩
  · rintro ⟨d, rfl⟩
    change (op ++ 0#4 ++ d) &&& (BitVec.allOnes 4 ++ BitVec.allOnes 4 ++ 0#8) = op ++ 0#4 ++ 0#8
    simp only [BitVec.and_append, BitVec.and_allOnes, BitVec.and_zero]

/-- The rows of the opcode map, as the commands they stand for (30 R73). -/
theorem wellFormedWord_iff {w : Word} : wellFormedWord w = true ↔ ∃ i, encode i = w := by
  have hrows : wellFormedWord w = true ↔
      w &&& 0xFFFF#16 = encode .resetFrame ∨ w &&& 0xFF00#16 = commandWord 2 0 ∨
        w &&& 0xFF00#16 = commandWord 3 0 ∨ w &&& 0xFF00#16 = commandWord 4 0 ∨
        w &&& 0xFFFF#16 = encode .emitChecksum ∨ w &&& 0xFFFF#16 = encode .finish := by
    simp only [wellFormedWord, opcodeTable, TableRow.holds, List.any_cons, List.any_nil, Bool.or_eq_true, beq_iff_eq,
      Bool.false_eq_true, or_false]
    rfl
  have hfull : w &&& 0xFFFF#16 = w := BitVec.and_allOnes
  rw [hrows, hfull, and_emitMask_eq_iff, and_emitMask_eq_iff, and_emitMask_eq_iff]
  constructor
  · rintro (h | ⟨d, h⟩ | ⟨d, h⟩ | ⟨d, h⟩ | h | h)
    exacts [⟨.resetFrame, h.symm⟩, ⟨.emitByteCrc d, h⟩, ⟨.emitByteNocrc d, h⟩, ⟨.emitByteRaw d, h⟩,
      ⟨.emitChecksum, h.symm⟩, ⟨.finish, h.symm⟩]
  · rintro ⟨_ | d | d | d | _ | _, h⟩
    exacts [.inl h.symm, .inr (.inl ⟨d, h⟩), .inr (.inr (.inl ⟨d, h⟩)), .inr (.inr (.inr (.inl ⟨d, h⟩))),
      .inr (.inr (.inr (.inr (.inl h.symm)))), .inr (.inr (.inr (.inr (.inr h.symm))))]

/-- The 256 DATA bytes. -/
def allBytes : List Byte := (List.finRange 256).map BitVec.ofFin

/-- The 3 + 3 * 256 commands (30 R73, R74). -/
def allCommands : List Instr :=
  [.resetFrame, .emitChecksum, .finish] ++ allBytes.map .emitByteCrc ++ allBytes.map .emitByteNocrc ++
    allBytes.map .emitByteRaw

theorem mem_allBytes (d : Byte) : d ∈ allBytes :=
  List.mem_map.2 ⟨d.toFin, List.mem_finRange _, rfl⟩

theorem allBytes_nodup : allBytes.Nodup :=
  (List.nodup_finRange 256).map fun _ _ h => congrArg BitVec.toFin h

theorem mem_allCommands (i : Instr) : i ∈ allCommands := by
  cases i <;> simp [allCommands, mem_allBytes]

theorem allCommands_nodup : allCommands.Nodup := by
  have hcrc : (allBytes.map Instr.emitByteCrc).Nodup := allBytes_nodup.map fun _ _ => Instr.emitByteCrc.inj
  have hnocrc : (allBytes.map Instr.emitByteNocrc).Nodup := allBytes_nodup.map fun _ _ => Instr.emitByteNocrc.inj
  have hraw : (allBytes.map Instr.emitByteRaw).Nodup := allBytes_nodup.map fun _ _ => Instr.emitByteRaw.inj
  refine ((List.Nodup.append (by decide) hcrc ?_).append hnocrc ?_).append hraw ?_ <;>
    simp [List.Disjoint, or_imp, forall_and]

theorem allCommands_length : allCommands.length = 771 := by
  simp [allCommands, allBytes]

/-- Settles O3: the decodable words are the words of the 3 + 3 * 256 commands. -/
theorem legalWordsAreTheOpcodeTable : Obligations.LegalWordsAreTheOpcodeTable := by
  simp only [Obligations.LegalWordsAreTheOpcodeTable, decode_eq_ok_iff]
  refine ⟨fun w => wellFormedWord_iff.symm, allCommands.map encode, allCommands_nodup.map encode_injective,
    (List.length_map _).trans allCommands_length, fun w => ?_⟩
  simp [mem_allCommands]

/-! ### Illegal words -/

/-- The value of a command's word: an assigned opcode, RSV 0, and DATA 0 where there is no operand
(30 R75, R76, R77). -/
theorem encode_toNat (i : Instr) :
    ∃ op d, (encode i).toNat = op * 4096 + d ∧ d < 256 ∧
      ((op = 1 ∨ op = 5 ∨ op = 6) ∧ d = 0 ∨ 2 ≤ op ∧ op ≤ 4) := by
  cases i with
  | resetFrame => exact ⟨1, 0, by decide⟩
  | emitByteCrc d => exact ⟨2, d.toNat, commandWord_toNat 2 d, d.isLt, .inr (by decide)⟩
  | emitByteNocrc d => exact ⟨3, d.toNat, commandWord_toNat 3 d, d.isLt, .inr (by decide)⟩
  | emitByteRaw d => exact ⟨4, d.toNat, commandWord_toNat 4 d, d.isLt, .inr (by decide)⟩
  | emitChecksum => exact ⟨5, 0, by decide⟩
  | finish => exact ⟨6, 0, by decide⟩

/-- A word with a reserved opcode, a nonzero RSV or a forbidden DATA is no command (30 R75, R76, R77). -/
theorem decode_ne_ok_of_illegal {w : Word}
    (h : (w.toNat / 4096 = 0 ∨ 7 ≤ w.toNat / 4096) ∨ w.toNat / 256 % 16 ≠ 0 ∨
      ((w.toNat / 4096 = 1 ∨ w.toNat / 4096 = 5 ∨ w.toNat / 4096 = 6) ∧ w.toNat % 256 ≠ 0)) (i : Instr) :
    decode w ≠ .ok i := by
  intro hd
  obtain ⟨op, d, hval, hdata, hop⟩ := encode_toNat i
  rw [decode_eq_ok_iff.1 hd] at hval
  omega

/-- Settles O5: such a word is no command, so delivering it enters the fault before anything else. -/
theorem illegalWordsRaiseIllegalCommand : Obligations.IllegalWordsRaiseIllegalCommand := by
  intro s w rest hin hphase hillegal
  rw [step_write_cmd hin]
  rcases deliver_cases w { s with inbox := rest } with ⟨hp, _⟩ | ⟨_, _, he⟩ | ⟨_, i, hd, _⟩
  · exact absurd hp hphase
  · exact he
  · exact absurd hd (decode_ne_ok_of_illegal hillegal i)

/-- Settles O4: the legal examples by evaluation, the others by the field that makes them illegal. -/
theorem encodingExamplesDecode : Obligations.EncodingExamplesDecode :=
  ⟨by decide, by decide, by decide, by decide, by decide, by decide, decode_ne_ok_of_illegal (by decide),
    decode_ne_ok_of_illegal (by decide), decode_ne_ok_of_illegal (by decide)⟩

/-! ### The assembler -/

/-- The commands a line stands for (30 R79, R80); `.word` names none. -/
def lineCommands (l : AsmLine) : List Instr :=
  match l.op with
  | .resetFrame => [.resetFrame]
  | .emitByteCrc => [.emitByteCrc l.byte]
  | .emitByteNocrc => [.emitByteNocrc l.byte]
  | .emitByteRaw => [.emitByteRaw l.byte]
  | .emitChecksum => [.emitChecksum]
  | .finish => [.finish]
  | .word => []
  | .frameEnd => [.emitChecksum, .finish]
  | .emitSeqCrc => l.bytes.map .emitByteCrc
  | .emitSeqNocrc => l.bytes.map .emitByteNocrc
  | .emitSeqRaw => l.bytes.map .emitByteRaw

/-- A line other than `.word` assembles to the words of its commands (30 R79, R80). -/
theorem assemble_eq_map_encode {l : AsmLine} {ws : List Word} (h : assemble l = some ws) (hop : l.op ≠ .word) :
    ws = (lineCommands l).map encode := by
  obtain ⟨op, operands⟩ := l
  unfold assemble at h
  split_ifs at h
  cases Option.some.inj h
  cases op with
  | word => exact absurd rfl hop
  | emitSeqCrc => exact List.map_map.symm
  | emitSeqNocrc => exact List.map_map.symm
  | emitSeqRaw => exact List.map_map.symm
  | _ => rfl

theorem map_decode_map_encode (is : List Instr) : (is.map encode).map decode = is.map .ok := by
  rw [List.map_map]
  exact List.map_congr_left fun i _ => decodeOfEncodeIsTheCommand i

/-- Settles O6: the words decode to the line's commands, in order. -/
theorem assembledWordsAreCommands : Obligations.AssembledWordsAreCommands := by
  rintro ⟨op, operands⟩ ws h
  have hws := assemble_eq_map_encode h
  refine ⟨fun hop w hw => ?_, ?_, ?_, ?_, ?_⟩
  · obtain ⟨i, _, hi⟩ := List.mem_map.1 (hws hop ▸ hw)
    exact ⟨i, decode_eq_ok_iff.2 hi⟩
  · rintro rfl
    exact hws nofun
  all_goals
    rintro rfl
    rw [hws nofun, map_decode_map_encode]
    simp [lineCommands, AsmLine.bytes]

end

end Sys2Proof.Machine

namespace Sys2Proof.Machine

/-! ## Runs of commands without a fault -/

/-- A command that does not end in FAULTED was legal in its phase, and its micro-operations completed. -/
theorem exec_completed {i : Instr} {s t : State} (h : exec i s = .next t) (ht : t.phase ≠ .faulted) :
    s.phase ≠ .faulted ∧ legal i s.phase = true ∧ commandBody i s = .completed t := by
  rw [exec_eq] at h
  rcases runCommand_cases i (commandBody i) s with ⟨hs, he⟩ | ⟨_, _, he⟩ | ⟨hs, hl, he⟩ <;> rw [he] at h
  · cases h
    exact absurd hs ht
  · cases h
    exact absurd rfl ht
  · rcases settle_eq_next.1 h with hm | ⟨c, u, _, rfl⟩
    · exact ⟨hs, hl, hm⟩
    · exact absurd rfl ht

/-- The induction over a run that does not end in FAULTED: `P` speaks of the commands still to come, and every completed
command takes it one command further. -/
theorem runCommands_induction {P : List Instr → State → Prop}
    (hstep : ∀ i is u v, P (i :: is) u → commandBody i u = .completed v → P is v) {is : List Instr} {s t : State}
    (hs : P is s) (h : runCommands is s = .next t) (ht : t.phase ≠ .faulted) : P [] t := by
  induction is generalizing s with
  | nil =>
    cases h
    exact hs
  | cons i is ih =>
    obtain ⟨u, hu, hrun⟩ := runCommands_cons_eq_next.1 h
    have hfault : u.phase ≠ .faulted := by
      intro hf
      rw [runCommands_faulted is hf] at hrun
      cases hrun
      exact ht hf
    exact ih (hstep i is s u hs (exec_completed hu hfault).2.2) hrun

/-- A command in a phase where it is legal is its micro-operations (42 R160). -/
theorem exec_of_legal {i : Instr} {s : State} (hl : legal i s.phase = true) :
    exec i s = settle (encode i) (commandBody i s) := by
  rw [exec_eq]
  rcases runCommand_cases i (commandBody i) s with ⟨hp, _⟩ | ⟨_, hn, _⟩ | ⟨_, _, he⟩
  · rw [hp] at hl
    cases i <;> cases hl
  · rw [hn] at hl
    cases hl
  · exact he

theorem exec_resetFrame {s : State} (h : s.phase ≠ .faulted) : exec .resetFrame s = .next (startFrame s) := by
  have hl : legal .resetFrame s.phase = true := by
    cases hp : s.phase with
    | faulted => exact absurd hp h
    | idle | payload | trailer | done => rfl
  exact exec_of_legal hl

/-- A run that starts with RESET_FRAME goes on from the started frame. -/
theorem runCommands_resetFrame {is : List Instr} {s t : State} (hs : s.phase ≠ .faulted)
    (h : runCommands (.resetFrame :: is) s = .next t) : runCommands is (startFrame s) = .next t := by
  obtain ⟨u, hu, hrun⟩ := runCommands_cons_eq_next.1 h
  rw [exec_resetFrame hs] at hu
  cases hu
  exact hrun

/-! ### The checksum along a run (40 R103) -/

theorem emitByteCrcBody_sameOutside (d : Byte) (s : State) :
    (emitByteCrcBody d s).Keeps (SameOutside (crcUpdate d s)) := by
  simp only [emitByteCrcBody]
  split
  · exact escAppend_sameOutside d _
  · exact stuffByte_sameOutside d _
  · exact stuffByte_sameOutside d _

theorem emitByteRawBody_sameOutside (d : Byte) (s : State) : (emitByteRawBody d s).Keeps (SameOutside s) := by
  unfold emitByteRawBody
  split
  · exact append_sameOutside _ s
  · exact rawByte_sameOutside d s
  · exact rawByte_sameOutside d s

theorem pbeFinish_sameOutside (s : State) : (pbeFinish s).Keeps (SameOutside s) := by
  unfold pbeFinish
  split
  · exact pulseFinish_sameOutside s
  · exact swPad_sameOutside 8 s
  · exact SameOutside.refl s

/-- What every command but RESET_FRAME leaves alone, and `acc` in the accumulator. -/
def CommandFrame (acc : Word) (s t : State) : Prop :=
  t.build = s.build ∧ t.cause = s.cause ∧ t.faultCmd = s.faultCmd ∧ t.inbox = s.inbox ∧ t.reply = s.reply ∧
    t.draws = s.draws ∧ t.crcAcc = acc

theorem SameOutside.commandFrame {s t : State} (h : SameOutside s t) : CommandFrame s.crcAcc s t := by
  obtain ⟨hbuild, _, hcause, hcmd, hacc, hinbox, hreply, hdraws⟩ := h
  exact ⟨hbuild, hcause, hcmd, hinbox, hreply, hdraws, hacc⟩

/-- A command folds its byte into the accumulator if it is EMIT_BYTE_CRC, and otherwise leaves it alone, whether it
completes or faults (41 R141 to R143, 42 R162, R163). -/
theorem commandBody_frame {i : Instr} (hi : i ≠ .resetFrame) (s : State) :
    (commandBody i s).Keeps (CommandFrame ((crcBytes [i]).foldl (crcStep s.build) s.crcAcc) s) := by
  cases i with
  | resetFrame => exact absurd rfl hi
  | emitByteCrc d => exact (emitByteCrcBody_sameOutside d s).mono fun _ h => h.commandFrame
  | emitByteNocrc d => exact (noCrcByte_sameOutside d s).mono fun _ h => h.commandFrame
  | emitByteRaw d => exact (emitByteRawBody_sameOutside d s).mono fun _ h => h.commandFrame
  | emitChecksum =>
    have hbytes (c d : Byte) : ((noCrcByte c s).andThen (noCrcByte d)).Keeps (SameOutside s) :=
      (noCrcByte_sameOutside c s).andThen fun u hu => (noCrcByte_sameOutside d u).since hu
    rw [commandBody, emitChecksumBody, ← andThen_assoc]
    exact ((hbytes _ _).mono fun _ h => h.commandFrame).andThen fun _ h => h
  | finish =>
    refine Micro.Keeps.andThen (P := CommandFrame s.crcAcc s) ?_ fun _ h => h
    split
    · exact (pbeFinish_sameOutside s).mono fun _ h => h.commandFrame
    · exact (SameOutside.refl s).commandFrame

theorem Micro.Keeps.of_completed {P : State → Prop} {m : Micro} {t : State} (hm : m.Keeps P) (h : m = .completed t) :
    P t := by
  subst h
  exact hm

theorem crcBytes_cons (i : Instr) (is : List Instr) : crcBytes (i :: is) = crcBytes [i] ++ crcBytes is := by
  cases i <;> rfl

/-- Settles O51: of the commands still to come, the run folds exactly the EMIT_BYTE_CRC bytes into what it has. -/
theorem checksumCoversExactlyTheCrcBytes : Obligations.ChecksumCoversExactlyTheCrcBytes := by
  intro is s t hreset hs hrun ht
  refine (runCommands_induction (s := startFrame s) (P := fun js u => .resetFrame ∉ js ∧ u.build = s.build ∧
    (crcBytes js).foldl (crcStep s.build) u.crcAcc = (crcBytes is).foldl (crcStep s.build) 0) ?_ ⟨hreset, rfl, rfl⟩
    (runCommands_resetFrame hs hrun) ht).2.2
  rintro i js u v ⟨hnot, hb, hfold⟩ hbody
  obtain ⟨hi, hjs⟩ := not_or.1 (mt List.mem_cons.2 hnot)
  obtain ⟨hb', _, _, _, _, _, hacc⟩ := (commandBody_frame (Ne.symm hi) u).of_completed hbody
  refine ⟨hjs, hb'.trans hb, ?_⟩
  rw [hacc, hb, ← List.foldl_append, ← crcBytes_cons, hfold]

/-! ### The finished pulse train (40 R106) -/

/-- What every command keeps, a run of commands keeps. -/
theorem runCommands_keeps {P : State → Prop} (hexec : ∀ i u v, P u → exec i u = .next v → P v) {is : List Instr}
    {s t : State} (hs : P s) (h : runCommands is s = .next t) : P t := by
  induction is generalizing s with
  | nil =>
    cases h
    exact hs
  | cons i is ih =>
    obtain ⟨u, hu, hrun⟩ := runCommands_cons_eq_next.1 h
    exact ih (hexec i s u hs hu) hrun

theorem runCommands_inv {is : List Instr} {s t : State} (hs : Inv s) (h : runCommands is s = .next t) : Inv t := by
  refine runCommands_keeps (fun i u v hu hv => ?_) hs h
  obtain ⟨w, hw, hinv⟩ := exec_inv i hu
  obtain rfl : w = v := by simpa [hw] using hv
  exact hinv

theorem runCommands_build {is : List Instr} {s t : State} (h : runCommands is s = .next t) : t.build = s.build := by
  refine (runCommands_keeps (P := GrownFrom s.build 0) (fun i u v hu hv => ?_) ⟨rfl, Nat.zero_le _⟩ h).1
  exact exec_keeps (fun _ _ _ hw => hw) hu (commandBody_grown i (fun _ => rfl) hu) hv

/-- Where every element below `cursor` has been written, the frame has `cursor` elements. -/
theorem BufferOk.frame_length {s : State} (h : BufferOk s) : s.frame.length = s.cursor.toNat := by
  obtain ⟨_, _, _, hwritten⟩ := h
  rw [State.frame, List.filterMap_length_eq_length.2 fun i hi => hwritten i (List.mem_range.1 hi), List.length_range]

theorem pulseTotal_eq (vs : List Word) : pulseTotal vs = (vs.map BitVec.toNat).sum + vs.length * gap := by
  induction vs with
  | nil => rfl
  | cons v vs ih =>
    simp only [pulseTotal, List.map_cons, List.sum_cons, List.length_cons] at ih ⊢
    rw [ih]
    ring

/-- Settles O53: the period equation of the invariant, in DONE (10 R42). -/
theorem finishedPulseFrameTakesTheHalfPeriod : Obligations.FinishedPulseFrameTakesTheHalfPeriod := by
  intro is s t hinv hpulse _ hrun hdone
  have hb := runCommands_build hrun
  obtain ⟨hbuf, _, _, _, hper⟩ := runCommands_inv hinv hrun
  obtain ⟨_, _, hfinal⟩ := hper (hb ▸ hpulse)
  rw [← hb, ← (hfinal hdone).2, pulseTotal_eq, BufferOk.frame_length hbuf, gap]

/-! ## What a frame shows of its stream (40 R104, R107, R111, R114) -/

/-- `m` completes only in states with `P`; of a fault nothing is said. -/
def Micro.Reaches (P : State → Prop) (m : Micro) : Prop :=
  match m with
  | .completed s => P s
  | .raised _ _ => True
  | .stopped _ => True

@[simp] theorem reaches_completed {P : State → Prop} {s : State} : (Micro.completed s).Reaches P ↔ P s := Iff.rfl

theorem Micro.Reaches.andThen {P Q : State → Prop} {m : Micro} {k : State → Micro} (hm : m.Reaches P)
    (hk : ∀ s, P s → (k s).Reaches Q) : (m.andThen k).Reaches Q := by
  cases m with
  | completed s => exact hk s hm
  | raised c s => trivial
  | stopped f => trivial

theorem Micro.Reaches.mono {P Q : State → Prop} {m : Micro} (hm : m.Reaches P) (h : ∀ s, P s → Q s) : m.Reaches Q := by
  cases m with
  | completed s => exact h s hm
  | raised c s => trivial
  | stopped f => trivial

theorem Micro.Reaches.of_completed {P : State → Prop} {m : Micro} {t : State} (hm : m.Reaches P)
    (h : m = .completed t) : P t := by
  subst h
  exact hm

/-- The induction over a loop that completes: `P` speaks of the turns done so far. -/
theorem reaches_forEach {α : Type} {P : List α → State → Prop} {op : α → State → Micro}
    (h : ∀ us v s, P us s → (op v s).Reaches (P (us ++ [v]))) (vs : List α) {us : List α} {s : State} (hs : P us s) :
    (forEach op vs s).Reaches (P (us ++ vs)) := by
  induction vs generalizing us s with
  | nil => exact (List.append_nil us).symm ▸ hs
  | cons v vs ih =>
    rw [forEach_cons, ← List.singleton_append, ← List.append_assoc]
    exact (h us v s hs).andThen fun _ ht => ih ht

/-- Append adds its element at the end of the frame (40 R100). -/
theorem frame_append {s : State} (h : s.cursor.toNat < s.build.cap) (v : Word) :
    { s with buf := Memory.write s.buf s.cursor.toNat v, cursor := s.cursor + 1 }.frame = s.frame ++ [v] := by
  rw [frame_eq_below, cursor_succ h, Memory.below_succ_write, frame_eq_below]

/-! ### The packer -/

/-- The bit is packed next to those before it (40 R107). -/
theorem packedByte_bits (p : Bool) {s : State} (h : s.pkByte.toNat < 2 ^ s.pkCount.toNat) :
    ((List.range (s.pkCount.toNat + 1)).map fun k => (packedByte p s).getLsbD k) = s.pending ++ [p] := by
  have hlt : s.pkCount.toNat < 8 := s.pkCount.isLt
  have hnew : (packedByte p s).getLsbD s.pkCount.toNat = p := by
    have h0 : s.pkByte.getLsbD s.pkCount.toNat = false := Nat.testBit_lt_two_pow h
    rw [packedByte, BitVec.getLsbD_or, h0]
    simp [hlt]
  have hold (k : Nat) (hk : k < s.pkCount.toNat) : (packedByte p s).getLsbD k = s.pkByte.getLsbD k := by
    simp [packedByte, hk]
  rw [List.range_succ, List.map_append, List.map_singleton, hnew, State.pending]
  congr 1
  exact List.map_congr_left fun k hk => hold k (List.mem_range.1 hk)

theorem setWidth_byteElement (d : Byte) : (byteElement d).setWidth 8 = d := by
  apply BitVec.eq_of_toNat_eq
  rw [BitVec.toNat_setWidth, byteElement_toNat]
  exact Nat.mod_eq_of_lt d.isLt

/-- The physical bits `bits` have gone down the line since `s`, and the packer is in order (10 R27). -/
def LineAfter (s : State) (bits : List Bool) (t : State) : Prop :=
  t.build = s.build ∧ t.ones = s.ones ∧ t.pkByte.toNat < 2 ^ t.pkCount.toNat ∧ t.lineBits = s.lineBits ++ bits

/-- SwPack puts one more bit on the line, in the packer or with a full byte in the buffer (40 R107). -/
theorem swPack_line {s t : State} {bits : List Bool} (p : Bool) (h : LineAfter s bits t) :
    (swPack p t).Reaches (LineAfter s (bits ++ [p])) := by
  obtain ⟨hb, hones, hpk, hline⟩ := h
  have hbits := packedByte_bits p hpk
  rcases swPack_cases p t with ⟨h7, he⟩ | ⟨_, _, he⟩ | ⟨h7, hc, he⟩ <;> rw [he]
  · refine ⟨hb, hones, pkCount_succ h7 ▸ packedByte_lt p hpk, ?_⟩
    rw [← List.append_assoc, ← hline, State.lineBits, State.lineBits, List.append_assoc, ← hbits, ← pkCount_succ h7]
    rfl
  · trivial
  · refine ⟨hb, hones, Nat.one_pos, ?_⟩
    have hfull : lsbFirst (packedByte p t) = t.pending ++ [p] := by
      rw [← hbits, h7]
      rfl
    calc
      _ = (t.frame ++ [byteElement (packedByte p t)]).flatMap (fun v => lsbFirst (v.setWidth 8)) ++ [] := by
        rw [← frame_append hc]
        rfl
      _ = s.lineBits ++ (bits ++ [p]) := by
        rw [List.append_nil, List.flatMap_append, List.flatMap_singleton, setWidth_byteElement, hfull,
          ← List.append_assoc, ← List.append_assoc, ← hline, State.lineBits]

/-- SwEmitBit puts the expansion of its bit on the line (40 R108). -/
theorem swEmitBit_line {s : State} (v : Bool) (h : s.pkByte.toNat < 2 ^ s.pkCount.toNat) :
    (swEmitBit v s).Reaches (LineAfter s (physicalBits v)) :=
  reaches_forEach (fun _ p _ => swPack_line p) (physicalBits v) (us := []) ⟨rfl, rfl, h, (List.append_nil _).symm⟩

/-! ### The stuffed stream -/

/-- The frame of a block of build `b` shows the stuffed stream `bits`: as durations (40 R104), or as expanded bits on
the line (40 R108). -/
def ShowsStream (b : Build) (bits : List Bool) (s : State) : Prop :=
  match b.transport with
  | .pulseStuffed => s.frame = bits.map fun v => BitVec.ofNat 16 (pulseDuration b v)
  | .swtimedStuffed => s.pkByte.toNat < 2 ^ s.pkCount.toNat ∧ s.lineBits = bits.flatMap physicalBits
  | .escaped => True

/-- The block has build `b` and a count of `n` ones (10 R25), and its frame shows the stuffed stream `bits`. -/
def Shows (b : Build) (n : Nat) (bits : List Bool) (s : State) : Prop :=
  s.build = b ∧ s.ones.toNat = n ∧ ShowsStream b bits s

theorem showsStream_pulse {b : Build} (h : b.transport = .pulseStuffed) {bits : List Bool} {s : State} :
    ShowsStream b bits s ↔ s.frame = bits.map fun v => BitVec.ofNat 16 (pulseDuration b v) := by
  simp [ShowsStream, h]

theorem showsStream_swtimed {b : Build} (h : b.transport = .swtimedStuffed) {bits : List Bool} {s : State} :
    ShowsStream b bits s ↔ s.pkByte.toNat < 2 ^ s.pkCount.toNat ∧ s.lineBits = bits.flatMap physicalBits := by
  simp [ShowsStream, h]

section
variable {b : Build} {n : Nat} {bits : List Bool} {s : State}

/-- One logical bit through the encoder is one bit more in the frame (40 R110). -/
theorem pbeEmitBit_shows (v : Bool) (h : Shows b n bits s) : (pbeEmitBit v s).Reaches (Shows b n (bits ++ [v])) := by
  obtain ⟨rfl, rfl, hstream⟩ := h
  cases ht : s.build.transport with
  | pulseStuffed =>
    rw [showsStream_pulse ht] at hstream
    rw [pbeEmitBit_pulse ht]
    rcases pulseEmitBit_cases v s with ⟨_, he⟩ | ⟨_, _, he⟩ | ⟨hc, _, he⟩ <;> rw [he]
    · trivial
    · trivial
    · refine ⟨rfl, rfl, (showsStream_pulse ht).2 ?_⟩
      rw [List.map_append, List.map_singleton, ← hstream]
      exact frame_append hc _
  | swtimedStuffed =>
    rw [showsStream_swtimed ht] at hstream
    rw [pbeEmitBit_swtimed ht]
    obtain ⟨hpk, hline⟩ := hstream
    refine (swEmitBit_line v hpk).mono fun t hafter => ?_
    obtain ⟨hb, hones, hpk', hline'⟩ := hafter
    refine ⟨hb, by rw [hones], (showsStream_swtimed ht).2 ⟨hpk', ?_⟩⟩
    rw [hline', hline, List.flatMap_append, List.flatMap_singleton]
  | escaped => simp [pbeEmitBit, Shows, ShowsStream, ht]

/-- StuffedBit puts out the 5-ones rule's stream of its bit, and counts by that rule (40 R111). -/
theorem stuffedBit_shows (v : Bool) (hn : n < stuffLimit) (h : Shows b n bits s) :
    (stuffedBit v s).Reaches (Shows b (onesAfter n [v]) (bits ++ stuff n [v])) := by
  have hclear {m : Nat} {bits' : List Bool} {t : State} (ht : Shows b m bits' t) :
      Shows b 0 bits' { t with ones := 0 } := by
    obtain ⟨hb, _, hstream⟩ := ht
    exact ⟨hb, rfl, hstream⟩
  cases v with
  | false =>
    rw [stuffedBit_false]
    exact (pbeEmitBit_shows false h).andThen fun _ ht => hclear ht
  | true =>
    rw [stuffedBit_true]
    refine (pbeEmitBit_shows true h).andThen fun t ht => ?_
    obtain ⟨hb, hones, hstream⟩ := id ht
    by_cases h5 : n + 1 = stuffLimit
    · rw [if_pos (by rw [hones]; exact Nat.succ.inj h5)]
      refine (pbeEmitBit_shows false ht).andThen fun u hu => ?_
      simpa [stuff, onesAfter, h5] using hclear hu
    · rw [if_neg (by rw [hones]; exact fun h4 => h5 (congrArg Nat.succ h4))]
      have hcount : (t.ones + 1).toNat = n + 1 := by
        rw [BitVec.toNat_add, hones]
        simp only [stuffLimit] at hn
        exact Nat.mod_eq_of_lt (by simp; omega)
      have hshows : Shows b (n + 1) (bits ++ [true]) { t with ones := t.ones + 1 } := ⟨hb, hcount, hstream⟩
      simpa [stuff, onesAfter, h5] using hshows

/-- StuffByte puts out the byte's stuffed stream (40 R112). -/
theorem stuffByte_shows (d : Byte) (hn : n < stuffLimit) (h : Shows b n bits s) :
    (stuffByte d s).Reaches (Shows b (onesAfter n (msbFirst d)) (bits ++ stuff n (msbFirst d))) := by
  refine reaches_forEach (P := fun us => Shows b (onesAfter n us) (bits ++ stuff n us)) (fun us v t ht => ?_)
    (msbFirst d) (us := []) ?_
  · rw [onesAfter_append, stuff_append, ← List.append_assoc]
    exact stuffedBit_shows v (onesAfter_lt n us hn) ht
  · exact (List.append_nil bits).symm ▸ h

/-- RawByte puts out the byte's bits as they are, and leaves the count alone (40 R112). -/
theorem rawByte_shows (d : Byte) (h : Shows b n bits s) : (rawByte d s).Reaches (Shows b n (bits ++ msbFirst d)) := by
  refine reaches_forEach (P := fun us => Shows b n (bits ++ us)) (fun us v t ht => ?_) (msbFirst d) (us := []) ?_
  · rw [← List.append_assoc]
    exact pbeEmitBit_shows v ht
  · exact (List.append_nil bits).symm ▸ h

end

/-- A byte on its way through the transport's code: EscAppend in ESCAPED, the bit stuffer elsewhere (41 R141). -/
def codeByte (d : Byte) (s : State) : Micro :=
  match s.build.transport with
  | .escaped => escAppend d s
  | .pulseStuffed => stuffByte d s
  | .swtimedStuffed => stuffByte d s

section
variable {s : State}

theorem codeByte_of_stuffed (h : s.build.transport ≠ .escaped) (d : Byte) : codeByte d s = stuffByte d s := by
  cases ht : s.build.transport with
  | pulseStuffed | swtimedStuffed => simp [codeByte, ht]
  | escaped => exact absurd ht h

theorem codeByte_of_escaped (h : s.build.transport = .escaped) (d : Byte) : codeByte d s = escAppend d s := by
  simp [codeByte, h]

theorem emitByteCrcBody_eq_codeByte (d : Byte) (s : State) : emitByteCrcBody d s = codeByte d (crcUpdate d s) := rfl

/-- NoCrcByte codes its byte except in ESCAPED where ESC_NOCRC_ESCAPES is false (41 R142). -/
theorem noCrcByte_eq_codeByte (h : s.build.transport = .escaped → s.build.escNocrcEscapes = true) (d : Byte) :
    noCrcByte d s = codeByte d s := by
  cases ht : s.build.transport with
  | pulseStuffed | swtimedStuffed => simp [noCrcByte, codeByte, ht]
  | escaped => simp [noCrcByte, codeByte, ht, h ht]

theorem emitByteRawBody_of_stuffed (h : s.build.transport ≠ .escaped) (d : Byte) :
    emitByteRawBody d s = rawByte d s := by
  cases ht : s.build.transport with
  | pulseStuffed | swtimedStuffed => simp [emitByteRawBody, ht]
  | escaped => exact absurd ht h

end

/-- A frame starts with an empty stream and a count of 0 (42 R161). -/
theorem startFrame_shows {s : State} (h : s.build.transport ≠ .escaped) : Shows s.build 0 [] (startFrame s) := by
  cases ht : s.build.transport with
  | pulseStuffed => exact ⟨rfl, by simp [ht], (showsStream_pulse ht).2 rfl⟩
  | swtimedStuffed =>
    refine ⟨rfl, by simp [ht], (showsStream_swtimed ht).2 ?_⟩
    simp [ht, State.lineBits, State.frame, State.pending]
  | escaped => exact absurd ht h

/-- The frame shows a stream whose count is that of `n` ones, after which the commands `is` emit the rest of `all`. -/
def StreamToCome (b : Build) (all : List Bool) (is : List Instr) (s : State) : Prop :=
  is.all Instr.isEmit = true ∧
    ∃ n bits, n < stuffLimit ∧ Shows b n bits s ∧ bits ++ emittedStream n is = all

/-- An emit command puts out its part of the stream (41 R141 to R143). -/
theorem commandBody_streamToCome {b : Build} (hb : b.transport ≠ .escaped) {all : List Bool} {i : Instr}
    {is : List Instr} {s : State} (h : StreamToCome b all (i :: is) s) :
    (commandBody i s).Reaches (StreamToCome b all is) := by
  obtain ⟨hemit, n, bits, hn, hs, rfl⟩ := h
  rw [List.all_cons, Bool.and_eq_true] at hemit
  obtain ⟨hi, his⟩ := hemit
  have hesc : s.build.transport ≠ .escaped := hs.1 ▸ hb
  cases i with
  | emitByteCrc d =>
    rw [commandBody, emitByteCrcBody_eq_codeByte, codeByte_of_stuffed (s := crcUpdate d s) hesc]
    exact (stuffByte_shows d hn (s := crcUpdate d s) hs).mono fun _ ht =>
      ⟨his, _, _, onesAfter_lt _ _ hn, ht, List.append_assoc _ _ _⟩
  | emitByteNocrc d =>
    rw [commandBody, noCrcByte_eq_codeByte (absurd · hesc), codeByte_of_stuffed hesc]
    exact (stuffByte_shows d hn hs).mono fun _ ht =>
      ⟨his, _, _, onesAfter_lt _ _ hn, ht, List.append_assoc _ _ _⟩
  | emitByteRaw d =>
    rw [commandBody, emitByteRawBody_of_stuffed hesc]
    exact (rawByte_shows d hs).mono fun _ ht => ⟨his, n, _, hn, ht, List.append_assoc _ _ _⟩
  | resetFrame | emitChecksum | finish => cases hi

/-- In the stuffed transports the open frame of a run of emit commands shows their stuffed stream. -/
theorem frame_shows_emittedStream {is : List Instr} {s t : State} (hesc : s.build.transport ≠ .escaped)
    (hs : s.phase ≠ .faulted) (hemit : is.all Instr.isEmit = true)
    (h : runCommands (.resetFrame :: is) s = .next t) (ht : t.phase ≠ .faulted) :
    ShowsStream s.build (emittedStream 0 is) t := by
  obtain ⟨_, n, bits, _, ⟨_, _, hstream⟩, hall⟩ :=
    runCommands_induction (P := StreamToCome s.build (emittedStream 0 is))
      (fun _ _ _ _ hu hv => (commandBody_streamToCome hesc hu).of_completed hv)
      ⟨hemit, 0, [], by decide, startFrame_shows hesc, rfl⟩ (runCommands_resetFrame hs h) ht
  rw [emittedStream, List.append_nil] at hall
  exact hall ▸ hstream

theorem pulseDuration_toNat (b : Build) (v : Bool) : (BitVec.ofNat 16 (pulseDuration b v)).toNat = pulseDuration b v :=
  Nat.mod_eq_of_lt ((pulseDuration_lt b v).trans (by decide))

/-- Settles O55: the frame of a stuffed stream, read as numbers. -/
theorem pulseFrameIsItsStuffedStream : Obligations.PulseFrameIsItsStuffedStream := by
  intro is s t hpulse hs hemit hrun ht
  have hstream := frame_shows_emittedStream (by simp [hpulse]) hs hemit hrun (by simp [ht])
  rw [(showsStream_pulse hpulse).1 hstream, List.map_map]
  exact List.map_congr_left fun v _ => pulseDuration_toNat s.build v

/-- Settles O56: the line bits of a stuffed stream. -/
theorem swtimedFrameIsItsExpandedStream : Obligations.SwtimedFrameIsItsExpandedStream := by
  intro is s t hsw hs hemit hrun ht
  have hstream := frame_shows_emittedStream (by simp [hsw]) hs hemit hrun (by simp [ht])
  exact ((showsStream_swtimed hsw).1 hstream).2

/-! ## The coded bytes of a frame (40 R113, R115) -/

/-- The bytes `ds` are what the frame of a block of build `b` holds in its transport's code: escaped, or stuffed. -/
def ShowsCode (b : Build) (ds : List Byte) (s : State) : Prop :=
  if b.transport = .escaped then s.build = b ∧ s.frameBytes = ds.flatMap escapeBytes
  else Shows b (onesAfter 0 (ds.flatMap msbFirst)) (stuff 0 (ds.flatMap msbFirst)) s

section
variable {b : Build} {ds : List Byte} {s : State}

theorem showsCode_escaped (h : b.transport = .escaped) :
    ShowsCode b ds s ↔ s.build = b ∧ s.frameBytes = ds.flatMap escapeBytes := by
  simp [ShowsCode, h]

theorem showsCode_stuffed (h : b.transport ≠ .escaped) :
    ShowsCode b ds s ↔ Shows b (onesAfter 0 (ds.flatMap msbFirst)) (stuff 0 (ds.flatMap msbFirst)) s := by
  simp [ShowsCode, h]

theorem ShowsCode.build (h : ShowsCode b ds s) : s.build = b := by
  by_cases ht : b.transport = .escaped
  · exact ((showsCode_escaped ht).1 h).1
  · exact ((showsCode_stuffed ht).1 h).1

/-- A byte appended is one byte more in the frame (40 R100). -/
theorem appendByte_frameBytes {bytes : List Byte} (d : Byte) (h : s.build = b ∧ s.frameBytes = bytes) :
    (appendByte d s).Reaches fun t => t.build = b ∧ t.frameBytes = bytes ++ [d] := by
  obtain ⟨hb, rfl⟩ := h
  rcases append_cases (byteElement d) s with ⟨_, he⟩ | ⟨hc, he⟩ <;> rw [appendByte, he]
  · trivial
  · refine ⟨hb, ?_⟩
    rw [State.frameBytes, frame_append hc, List.map_append, List.map_singleton, setWidth_byteElement, State.frameBytes]

/-- A byte through the code is one byte more in what the frame holds (40 R111, R114). -/
theorem codeByte_shows (d : Byte) (h : ShowsCode b ds s) : (codeByte d s).Reaches (ShowsCode b (ds ++ [d])) := by
  have hb := h.build
  by_cases ht : b.transport = .escaped
  · rw [codeByte_of_escaped (hb ▸ ht)]
    refine (reaches_forEach (P := fun us t => t.build = b ∧ t.frameBytes = ds.flatMap escapeBytes ++ us)
      (fun us e t hu => ?_) (escapeBytes d) (us := []) ?_).mono fun t hu => ?_
    · rw [← List.append_assoc]
      exact appendByte_frameBytes e hu
    · rw [List.append_nil]
      exact (showsCode_escaped ht).1 h
    · rw [showsCode_escaped ht, List.flatMap_append, List.flatMap_singleton]
      exact hu
  · rw [codeByte_of_stuffed (hb ▸ ht)]
    refine (stuffByte_shows d (onesAfter_lt 0 _ (by decide)) ((showsCode_stuffed ht).1 h)).mono fun t hu => ?_
    rw [showsCode_stuffed ht, List.flatMap_append, List.flatMap_singleton, onesAfter_append, stuff_append]
    exact hu

/-- So is a byte through NoCrcByte, where that uses the code (41 R142). -/
theorem noCrcByte_shows (hesc : b.transport = .escaped → b.escNocrcEscapes = true) (d : Byte) (h : ShowsCode b ds s) :
    (noCrcByte d s).Reaches (ShowsCode b (ds ++ [d])) := by
  rw [noCrcByte_eq_codeByte (h.build ▸ hesc)]
  exact codeByte_shows d h

/-- A frame starts with no byte in it (42 R161). -/
theorem startFrame_showsCode (s : State) : ShowsCode s.build [] (startFrame s) := by
  by_cases ht : s.build.transport = .escaped
  · exact (showsCode_escaped ht).2 ⟨rfl, rfl⟩
  · exact (showsCode_stuffed ht).2 (startFrame_shows ht)

/-- `i` puts out nothing but coded bytes in the transport of `b`. -/
def IsCoded (b : Build) (i : Instr) : Prop :=
  if b.transport = .escaped then Instr.isEscaped b i = true else Instr.isStuffed i = true

/-- Such a command puts its coded bytes in the frame (41 R141, R142; 42 R162, R163). -/
theorem commandBody_showsCode {i : Instr} (hi : IsCoded b i) (h : ShowsCode b ds s) :
    (commandBody i s).Reaches (ShowsCode b (ds ++ codedBytes b s.crcAcc [i])) := by
  cases i with
  | emitByteCrc d => exact codeByte_shows d (s := crcUpdate d s) h
  | emitByteNocrc d => exact noCrcByte_shows (fun ht => (if_pos ht).mp hi) d h
  | emitChecksum =>
    have hesc : b.transport = .escaped → b.escNocrcEscapes = true := fun ht => (if_pos ht).mp hi
    refine (noCrcByte_shows hesc _ h).andThen fun t ht => (noCrcByte_shows hesc _ ht).andThen fun u hu => ?_
    rw [List.append_assoc, h.build] at hu
    exact hu
  | finish =>
    have ht : b.transport = .escaped := by
      by_contra ht
      simp [IsCoded, ht, Instr.isStuffed] at hi
    have hnone : codedBytes b s.crcAcc [.finish] = [] := rfl
    rw [hnone, List.append_nil]
    rw [← h.build] at ht
    simp only [commandBody, finishBody, ht, ne_eq, not_true_eq_false, if_false, andThen_completed]
    exact h
  | emitByteRaw d => simp [IsCoded, Instr.isEscaped, Instr.isStuffed] at hi
  | resetFrame => simp [IsCoded, Instr.isEscaped, Instr.isStuffed] at hi

end

theorem codedBytes_cons (b : Build) (acc : Word) (i : Instr) (is : List Instr) :
    codedBytes b acc (i :: is) =
      codedBytes b acc [i] ++ codedBytes b ((crcBytes [i]).foldl (crcStep b) acc) is := by
  cases i <;> rfl

/-- The frame holds coded bytes, after which the commands `is` put out the rest of `all`. -/
def CodeToCome (b : Build) (all : List Byte) (is : List Instr) (s : State) : Prop :=
  (∀ i ∈ is, IsCoded b i) ∧ ∃ ds, ShowsCode b ds s ∧ ds ++ codedBytes b s.crcAcc is = all

theorem commandBody_codeToCome {b : Build} {all : List Byte} {i : Instr} {is : List Instr} {s t : State}
    (h : CodeToCome b all (i :: is) s) (hbody : commandBody i s = .completed t) : CodeToCome b all is t := by
  obtain ⟨hcode, ds, hshows, hall⟩ := h
  obtain ⟨hi, his⟩ := List.forall_mem_cons.1 hcode
  have hne : i ≠ .resetFrame := by
    rintro rfl
    simp [IsCoded, Instr.isEscaped, Instr.isStuffed] at hi
  obtain ⟨_, _, _, _, _, _, hacc⟩ := (commandBody_frame hne s).of_completed hbody
  refine ⟨his, _, (commandBody_showsCode hi hshows).of_completed hbody, ?_⟩
  rw [hacc, hshows.build, List.append_assoc, ← codedBytes_cons, hall]

/-- In every transport a run of coded commands puts their coded bytes, and nothing else, in the frame. -/
theorem frame_shows_codedBytes {is : List Instr} {s t : State} (hs : s.phase ≠ .faulted)
    (hcoded : ∀ i ∈ is, IsCoded s.build i) (h : runCommands (.resetFrame :: is) s = .next t)
    (ht : t.phase ≠ .faulted) : ShowsCode s.build (codedBytes s.build 0 is) t := by
  obtain ⟨_, ds, hshows, hall⟩ := runCommands_induction (fun _ _ _ _ => commandBody_codeToCome)
    (⟨hcoded, [], startFrame_showsCode s, rfl⟩ : CodeToCome s.build (codedBytes s.build 0 is) is (startFrame s))
    (runCommands_resetFrame hs h) ht
  rw [codedBytes, List.append_nil] at hall
  exact hall ▸ hshows

/-- With two distinct durations the pulses of a stuffed stream show its bits (40 R104). -/
theorem pulseBits_of_showsStream {s : State} {bits : List Bool} (ht : s.build.transport = .pulseStuffed)
    (hd : s.build.durShort ≠ s.build.durLong) (h : ShowsStream s.build bits s) : s.pulseBits = bits := by
  have hne : s.build.durShort.val ≠ s.build.durLong.val := fun he => hd (Fin.ext he)
  rw [State.pulseBits, (showsStream_pulse ht).1 h, List.map_map]
  refine (List.map_congr_left fun v _ => ?_).trans (List.map_id bits)
  rw [Function.comp_apply, pulseDuration_toNat]
  cases v <;> simp [pulseDuration, hne]

/-- Settles O54: the frame shows the stuffed stream of its bytes, and the 5-ones rule can be undone. -/
theorem pulseFrameDestuffsToItsBytes : Obligations.PulseFrameDestuffsToItsBytes := by
  intro is s t hpulse hd hs hstuffed hrun ht
  have hesc : s.build.transport ≠ .escaped := by simp [hpulse]
  have hcoded : ∀ i ∈ is, IsCoded s.build i := fun i hi => (if_neg hesc).mpr (List.all_eq_true.1 hstuffed i hi)
  have hcode := frame_shows_codedBytes hs hcoded hrun ht
  obtain ⟨hb, _, hstream⟩ := (showsCode_stuffed hesc).1 hcode
  rw [← hb] at hpulse hd hstream
  rw [pulseBits_of_showsStream hpulse hd hstream, hb]
  exact ⟨stuff_no_six_ones 0 _ (by decide), destuff_stuff 0 _ (by decide)⟩

/-- In escaped bytes 0x7D stands only before 0x5E or 0x5D (40 R114). -/
theorem escape_followed (ds : List Byte) (k : Nat) (h : (ds.flatMap escapeBytes)[k]? = some 0x7D#8) :
    (ds.flatMap escapeBytes)[k + 1]? = some 0x5E#8 ∨ (ds.flatMap escapeBytes)[k + 1]? = some 0x5D#8 := by
  induction ds generalizing k with
  | nil => simp at h
  | cons d ds ih =>
    rw [List.flatMap_cons] at h ⊢
    rcases escapeBytes_cases d with ⟨_, he⟩ | ⟨_, he⟩ | ⟨_, hd, he⟩ <;> rw [he] at h ⊢
    · match k with
      | 0 => simp
      | 1 => simp at h
      | k + 2 => exact ih k h
    · match k with
      | 0 => simp
      | 1 => simp at h
      | k + 2 => exact ih k h
    · match k with
      | 0 => exact absurd (Option.some.inj h) hd
      | k + 1 => exact ih k h

/-- Settles O57: the frame shows its bytes escaped, and the escape can be undone. -/
theorem escapedFrameUnescapesToItsBytes : Obligations.EscapedFrameUnescapesToItsBytes := by
  intro is s t hesc hs hescaped hrun ht
  have hcoded : ∀ i ∈ is, IsCoded s.build i := fun i hi => (if_pos hesc).mpr (List.all_eq_true.1 hescaped i hi)
  obtain ⟨_, hframe⟩ := (showsCode_escaped hesc).1 (frame_shows_codedBytes hs hcoded hrun ht)
  rw [hframe]
  exact ⟨flag_not_mem_escape _, escape_followed _, unescape_escape _⟩

/-! ## The causes a command raises (60 R201) -/

/-- `m` raises no cause outside `C`. -/
def Micro.RaisesOnly (C : Cause → Prop) (m : Micro) : Prop :=
  match m with
  | .completed _ => True
  | .raised c _ => C c
  | .stopped _ => True

theorem Micro.RaisesOnly.andThen {C : Cause → Prop} {m : Micro} {k : State → Micro} (hm : m.RaisesOnly C)
    (hk : ∀ s, (k s).RaisesOnly C) : (m.andThen k).RaisesOnly C := by
  cases m with
  | completed s => exact hk s
  | raised c s => exact hm
  | stopped f => trivial

theorem raisesOnly_forEach {α : Type} {C : Cause → Prop} {op : α → State → Micro} (h : ∀ v s, (op v s).RaisesOnly C)
    (vs : List α) (s : State) : (forEach op vs s).RaisesOnly C := by
  induction vs generalizing s with
  | nil => trivial
  | cons v vs ih => exact (h v s).andThen ih

/-- The causes of emitting: no room, or no time (40 R100, R104). -/
def EmitCause (c : Cause) : Prop := c = .bufferOverflow ∨ c = .periodExhausted

theorem append_raises (v : Word) (s : State) : (append v s).RaisesOnly EmitCause := by
  rcases append_cases v s with ⟨_, h⟩ | ⟨_, h⟩ <;> rw [h]
  · exact .inl rfl
  · trivial

theorem pulseEmitBit_raises (v : Bool) (s : State) : (pulseEmitBit v s).RaisesOnly EmitCause := by
  rcases pulseEmitBit_cases v s with ⟨_, h⟩ | ⟨_, _, h⟩ | ⟨_, _, h⟩ <;> rw [h]
  · exact .inl rfl
  · exact .inr rfl
  · trivial

theorem swPack_raises (p : Bool) (s : State) : (swPack p s).RaisesOnly EmitCause := by
  rcases swPack_cases p s with ⟨_, h⟩ | ⟨_, _, h⟩ | ⟨_, _, h⟩ <;> rw [h]
  · trivial
  · exact .inl rfl
  · trivial

theorem pbeEmitBit_raises (v : Bool) (s : State) : (pbeEmitBit v s).RaisesOnly EmitCause := by
  unfold pbeEmitBit
  split
  · exact pulseEmitBit_raises v s
  · exact raisesOnly_forEach swPack_raises _ s
  · trivial

theorem stuffedBit_raises (v : Bool) (s : State) : (stuffedBit v s).RaisesOnly EmitCause := by
  refine (pbeEmitBit_raises v s).andThen fun t => ?_
  split_ifs
  · exact (pbeEmitBit_raises false t).andThen fun _ => trivial
  · trivial
  · trivial

theorem codeByte_raises (d : Byte) (s : State) : (codeByte d s).RaisesOnly EmitCause := by
  unfold codeByte
  split
  · exact raisesOnly_forEach (fun e => append_raises (byteElement e)) _ s
  · exact raisesOnly_forEach stuffedBit_raises _ s
  · exact raisesOnly_forEach stuffedBit_raises _ s

theorem noCrcByte_raises (d : Byte) (s : State) : (noCrcByte d s).RaisesOnly EmitCause := by
  rcases noCrcByte_cases d s with ⟨_, h⟩ | ⟨_, h⟩ <;> rw [h]
  · exact raisesOnly_forEach (fun e => append_raises (byteElement e)) _ s
  · exact raisesOnly_forEach stuffedBit_raises _ s

theorem emitByteRawBody_raises (d : Byte) (s : State) : (emitByteRawBody d s).RaisesOnly EmitCause := by
  unfold emitByteRawBody
  split
  · exact append_raises _ s
  · exact raisesOnly_forEach pbeEmitBit_raises _ s
  · exact raisesOnly_forEach pbeEmitBit_raises _ s

theorem swPad_raises (n : Nat) (s : State) : (swPad n s).RaisesOnly EmitCause := by
  induction n generalizing s with
  | zero => trivial
  | succ n ih =>
    rw [swPad]
    split
    · trivial
    · exact (swPack_raises true s).andThen ih

/-- PulseFinish raises no fault where a pulse has been emitted (40 R105). -/
theorem pulseFinish_raises {s : State} (h : s.cursor ≠ 0) : (pulseFinish s).RaisesOnly EmitCause := by
  rcases pulseFinish_cases s with ⟨h0, _⟩ | ⟨_, _, he⟩ | ⟨_, v, _, _, he⟩ | ⟨_, v, _, _, he⟩
  · exact absurd h0 h
  all_goals
    rw [he]
    trivial

/-- In a state of the invariant a legal command raises no cause but those of emitting: FINISH comes after the pulses of
the checksum (42 R163). -/
theorem commandBody_raises {i : Instr} {s : State} (h : Inv s) (hl : legal i s.phase = true) :
    (commandBody i s).RaisesOnly EmitCause := by
  cases i with
  | resetFrame => trivial
  | emitByteCrc d => exact codeByte_raises d (crcUpdate d s)
  | emitByteNocrc d => exact noCrcByte_raises d s
  | emitByteRaw d => exact emitByteRawBody_raises d s
  | emitChecksum =>
    exact (noCrcByte_raises _ s).andThen fun t => (noCrcByte_raises _ t).andThen fun _ => trivial
  | finish =>
    have hopen := Inv.openTrailer h (trailer_of_legal_finish hl)
    refine Micro.RaisesOnly.andThen ?_ fun _ => trivial
    unfold pbeFinish
    split
    · split
      · next ht =>
        have hpulses : 16 ≤ s.cursor.toNat := hopen.pulses ht
        exact pulseFinish_raises fun h0 => by simp [h0] at hpulses
      · exact swPad_raises 8 s
      · trivial
    · trivial

theorem commandBody_cause (i : Instr) (s : State) : (commandBody i s).Keeps fun t => t.cause = s.cause := by
  by_cases hi : i = .resetFrame
  · subst hi
    exact startFrame_cause s
  · refine (commandBody_frame hi s).mono fun t h => ?_
    obtain ⟨_, hcause, _⟩ := h
    exact hcause

/-- A command that starts in a state of the invariant does not record FINISH_EMPTY. -/
theorem exec_ne_finishEmpty {i : Instr} {s t : State} (hinv : Inv s) (hs : s.cause ≠ .finishEmpty)
    (h : exec i s = .next t) : t.cause ≠ .finishEmpty := by
  rw [exec_eq] at h
  rcases runCommand_cases i (commandBody i) s with ⟨_, he⟩ | ⟨_, _, he⟩ | ⟨_, hl, he⟩ <;> rw [he] at h
  · cases h
    exact hs
  · cases h
    simp
  · have hraise := commandBody_raises hinv hl
    have hcause := commandBody_cause i s
    rcases settle_eq_next.1 h with hm | ⟨c, u, hm, rfl⟩
    · exact hcause.of_completed hm ▸ hs
    · rw [hm] at hraise
      rcases hraise with rfl | rfl <;> simp

/-- Settles O24: of the accesses only a delivered word records a cause, and no command records this one. -/
theorem finishEmptyIsUnreachable : Obligations.FinishEmptyIsUnreachable := by
  intro s t hinv hs h
  rcases step_cases s with ⟨_, he⟩ | ⟨_, _, rest, _, _, he⟩ | ⟨w, rest, _, he⟩ | ⟨_, rest, _, he⟩ | ⟨i, rest, _, he⟩ |
    ⟨rest, _, he⟩ <;> rw [he] at h
  · cases h
    exact hs
  · cases h
    exact hs
  · rcases deliver_cases w { s with inbox := rest } with ⟨_, hd⟩ | ⟨_, _, hd⟩ | ⟨_, i, _, hd⟩ <;> rw [hd] at h
    · cases h
      exact hs
    · cases h
      simp
    · exact exec_ne_finishEmpty (s := { s with inbox := rest }) hinv hs h
  · cases h
    exact hs
  · rcases readDataPort_cases i { s with inbox := rest } with ⟨_, _, v, _, hd⟩ | ⟨_, _, _, hd⟩ | ⟨_, hd⟩ <;>
      rw [hd] at h <;> cases h <;> exact hs
  · cases h
    simp

/-! ## The micro-operations one by one (40) -/

/-- Settles O25: the two cases of Append, and the buffer read after a write. -/
theorem appendWritesOneElementOrOverflows : Obligations.AppendWritesOneElementOrOverflows := by
  intro v s _
  rcases append_cases v s with ⟨hc, he⟩ | ⟨hc, he⟩
  · exact ⟨fun _ => he, fun h => absurd h (by omega)⟩
  · refine ⟨fun h => absurd h (by omega), fun _ => ⟨_, he, rfl, cursor_succ hc, ?_, fun a ha => ?_⟩⟩
    · exact Memory.read_write_same _ _ _
    · exact Memory.read_write_other _ _ ha

theorem crcHi_toNat (c : Word) : (crcHi c).toNat = c.toNat / 256 := by
  have := c.isLt
  rw [crcHi, BitVec.extractLsb'_toNat, Nat.shiftRight_eq_div_pow]
  omega

theorem crcLo_toNat (c : Word) : (crcLo c).toNat = c.toNat % 256 := by
  rw [crcLo, BitVec.extractLsb'_toNat, Nat.shiftRight_zero]

/-- Settles O26: the index is a byte, and the shift loses the high byte. -/
theorem crcUpdateShiftsAndLooksUp : Obligations.CrcUpdateShiftsAndLooksUp := by
  intro b s
  have hindex : (s.crcAcc.toNat / 256 ^^^ b.toNat) &&& 0xFF = (crcHi s.crcAcc ^^^ b).toNat := by
    rw [← crcHi_toNat, ← BitVec.toNat_xor]
    exact (Nat.and_two_pow_sub_one_eq_mod _ 8).trans (Nat.mod_eq_of_lt (BitVec.isLt _))
  have hlt : (crcHi s.crcAcc ^^^ b).toNat < 256 := BitVec.isLt _
  refine ⟨s.build.crcTable[(crcHi s.crcAcc ^^^ b).toNat], ?_, ?_⟩
  · rw [hindex, Vector.getElem?_eq_getElem hlt]
  · have hacc : (crcStep s.build s.crcAcc b).toNat =
        s.crcAcc.toNat * 256 % 65536 ^^^ (s.build.crcTable[(crcHi s.crcAcc ^^^ b).toNat]).toNat := by
      rw [crcStep, BitVec.toNat_xor, BitVec.toNat_shiftLeft, Nat.shiftLeft_eq]
    rw [← hacc, BitVec.ofNat_toNat, BitVec.setWidth_eq, crcUpdate]

/-- Settles O27: the three cases of PulseEmitBit. -/
theorem pulseEmitBitChargesDurationAndGap : Obligations.PulseEmitBitChargesDurationAndGap := by
  intro v s d appended _
  rcases pulseEmitBit_cases v s with ⟨hc, he⟩ | ⟨hc, hr, he⟩ | ⟨hc, hr, he⟩
  · exact ⟨fun _ => he, fun h => absurd h (by omega), fun h => absurd h (by omega)⟩
  · exact ⟨fun h => absurd h (by omega), fun _ _ => he, fun _ h => absurd hr (Nat.not_le.2 h)⟩
  · refine ⟨fun h => absurd h (by omega), fun _ h => absurd hr (Nat.not_lt.2 h), fun _ _ => ⟨_, ?_, he⟩⟩
    have := s.rem.isLt
    exact Nat.mod_eq_of_lt (by omega)

/-- Appending one element, as Append writes it. -/
theorem appendAll_singleton (v : Word) (s : State) :
    appendAll [v] s = { s with buf := Memory.write s.buf s.cursor.toNat v, cursor := s.cursor + 1 } := rfl

/-- A bit packed above those before it adds its value (40 R107). -/
theorem packedByte_toNat (p : Bool) {s : State} (h : s.pkByte.toNat < 2 ^ s.pkCount.toNat) :
    (packedByte p s).toNat = s.pkByte.toNat + p.toNat * 2 ^ s.pkCount.toNat := by
  have hcount : s.pkCount.toNat < 8 := s.pkCount.isLt
  have hbit : ((BitVec.ofBool p).setWidth 8).toNat = p.toNat := by cases p <;> rfl
  have hlt : p.toNat * 2 ^ s.pkCount.toNat < 2 ^ 8 :=
    (Nat.mul_le_mul_right _ p.toNat_le).trans_lt (by rw [Nat.one_mul]; exact Nat.pow_lt_pow_right (by decide) hcount)
  rw [packedByte, BitVec.toNat_or, BitVec.toNat_shiftLeft, hbit, Nat.shiftLeft_eq, Nat.mod_eq_of_lt hlt, Nat.or_comm,
    Nat.mul_comm, ← Nat.two_pow_add_eq_or_of_lt h, Nat.add_comm]

/-- Settles O28: the three cases of SwPack. -/
theorem swPackFillsTheByteLsbFirst : Obligations.SwPackFillsTheByteLsbFirst := by
  intro p s _ hpk
  refine ⟨packedByte p s, packedByte_toNat p hpk, ?_⟩
  rcases swPack_cases p s with ⟨h7, he⟩ | ⟨h7, hc, he⟩ | ⟨h7, hc, he⟩
  · exact ⟨fun _ => ⟨_, pkCount_succ h7, he⟩, fun h => absurd h h7, fun h => absurd h h7⟩
  · exact ⟨fun h => absurd h7 h, fun _ h => absurd h (Nat.not_lt.2 hc), fun _ _ => he⟩
  · exact ⟨fun h => absurd h7 h, fun _ _ => he, fun _ h => absurd hc (by omega)⟩

/-- The byte in progress with highs in the positions still free (40 R109). -/
def paddedByte (s : State) : Byte := s.pkByte ||| (0xFF#8 <<< s.pkCount.toNat)

/-- A high packed is the first of the highs that pad (40 R109). -/
theorem packedByte_or_highs (s : State) :
    packedByte true s ||| (0xFF#8 <<< (s.pkCount.toNat + 1)) = paddedByte s := by
  have hhighs : ∀ k : BitVec 3, (1#8 <<< k.toNat) ||| (0xFF#8 <<< (k.toNat + 1)) = 0xFF#8 <<< k.toNat := by decide
  rw [packedByte, paddedByte, BitVec.or_assoc]
  exact congrArg (s.pkByte ||| ·) (hhighs s.pkCount)

/-- The eighth bit packed is the last of them. -/
theorem packedByte_last {s : State} (h7 : s.pkCount = 7) : packedByte true s = paddedByte s := by
  rw [packedByte, paddedByte, h7]
  rfl

theorem swPad_of_pkCount_zero (n : Nat) {s : State} (h : s.pkCount = 0) : swPad n s = .completed s := by
  cases n with
  | zero => rfl
  | succ n => exact if_pos h

/-- With as many turns as bits are missing, the padding appends the padded byte or finds no room for it (40 R109). -/
theorem swPad_cases (n : Nat) {s : State} (h0 : s.pkCount ≠ 0) (hn : 8 ≤ n + s.pkCount.toNat) :
    (s.cursor.toNat < s.build.cap ∧
      swPad n s = .completed { appendAll [byteElement (paddedByte s)] s with pkByte := 0, pkCount := 0 }) ∨
    (s.build.cap ≤ s.cursor.toNat ∧
      swPad n s = .raised .bufferOverflow { s with pkByte := paddedByte s, pkCount := 7 }) := by
  induction n generalizing s with
  | zero => exact absurd s.pkCount.isLt (by omega)
  | succ n ih =>
    rw [swPad, if_neg h0]
    rcases swPack_cases true s with ⟨h7, he⟩ | ⟨h7, hc, he⟩ | ⟨h7, hc, he⟩ <;> rw [he]
    · have hsucc := pkCount_succ h7
      have hne : s.pkCount + 1 ≠ 0 := fun h => by rw [h] at hsucc; cases hsucc
      have hpad : paddedByte { s with pkByte := packedByte true s, pkCount := s.pkCount + 1 } = paddedByte s := by
        rw [← packedByte_or_highs s, ← hsucc]
        rfl
      rw [andThen_completed, ← hpad]
      exact ih (s := { s with pkByte := packedByte true s, pkCount := s.pkCount + 1 }) hne (by
        show 8 ≤ n + (s.pkCount + 1).toNat
        omega)
    · refine .inr ⟨hc, ?_⟩
      rw [andThen_raised, packedByte_last h7, ← h7]
    · refine .inl ⟨hc, ?_⟩
      rw [andThen_completed, swPad_of_pkCount_zero n rfl, packedByte_last h7, appendAll_singleton]

/-- Settles O29: the loop stops at once on a byte boundary, and otherwise its eight turns are enough. -/
theorem swFinishPadsWithHighs : Obligations.SwFinishPadsWithHighs := by
  intro s _ byte
  refine ⟨fun h0 => if_pos h0, fun h0 hc => ?_, fun h0 hc => ?_⟩ <;>
    rcases swPad_cases 8 h0 (Nat.le_add_right _ _) with ⟨hc', he⟩ | ⟨hc', he⟩
  · exact he
  · omega
  · omega
  · exact he

/-! ## Commands that fault part-way (60 R203) -/

/-- A command whose micro-operations raise a fault enters it with its own word (60 R205). -/
theorem exec_raised {i : Instr} {s t : State} {c : Cause} (hl : legal i s.phase = true)
    (h : commandBody i s = .raised c t) : exec i s = .next (faultEntry c (encode i) t) := by
  rw [exec_of_legal hl, h]
  rfl

/-- Settles O40: the first turn of RawByte's loop ends the command. -/
theorem pulseExhaustionKeepsTheAppendedDuration : Obligations.PulseExhaustionKeepsTheAppendedDuration := by
  intro d s ht hphase hc hr
  have hbody : commandBody (.emitByteRaw d) s = .raised .periodExhausted { s with
      buf := Memory.write s.buf s.cursor.toNat (BitVec.ofNat 16 (pulseDuration s.build (d.getLsbD 7)))
      cursor := s.cursor + 1 } := by
    rw [commandBody, emitByteRawBody_of_stuffed (by simp [ht]), rawByte, msbFirst, forEach_cons, pbeEmitBit_pulse ht]
    rcases pulseEmitBit_cases (d.getLsbD 7) s with ⟨hx, _⟩ | ⟨_, _, he⟩ | ⟨_, hx, _⟩
    · exact absurd hc (Nat.not_lt.2 hx)
    · rw [he, andThen_raised]
    · exact absurd hr (Nat.not_le.2 hx)
  have hl : legal (.emitByteRaw d) s.phase = true := by rcases hphase with hp | hp <;> rw [hp] <;> rfl
  exact exec_raised hl hbody

/-! ### Half-written escapes (40 R114) -/

/-- Bytes of which only the first `pre` find room: these stay appended, and the next one overflows. -/
theorem forEach_appendByte_overflow (pre post : List Byte) (e : Byte) {s : State}
    (h : s.cursor.toNat + pre.length = s.build.cap) :
    forEach appendByte (pre ++ e :: post) s = .raised .bufferOverflow (escapedEmitted pre s) := by
  have hfull : (escapedEmitted pre s).build.cap ≤ (escapedEmitted pre s).cursor.toNat := by
    rw [escapedEmitted, appendAll_cursor, List.length_map, cursor_add h.le]
    exact h.ge
  have he : appendByte e (escapedEmitted pre s) = .raised .bufferOverflow (escapedEmitted pre s) := if_pos hfull
  rw [forEach_append, forEach_appendByte pre s h.le, andThen_completed, forEach_cons, he, andThen_raised]

theorem escapedEmitted_append (as bs : List Byte) {s : State} (h : escapedFits as s) :
    escapedEmitted (as ++ bs) s = escapedEmitted bs (escapedEmitted as s) := by
  have hcur := cursor_add h
  simp only [escapedEmitted, appendAll, List.map_append, writeAll_append, List.length_append, List.length_map, hcur,
    BitVec.ofNat_add, BitVec.add_assoc]

/-- The escape of a reserved byte starts with 0x7D (00 R7). -/
theorem escapeBytes_reserved {d : Byte} (h : d = 0x7E ∨ d = 0x7D) : ∃ e, escapeBytes d = [0x7D, e] := by
  rcases h with rfl | rfl
  · exact ⟨0x5E, rfl⟩
  · exact ⟨0x5D, rfl⟩

/-- An escape with room for one byte leaves its 0x7D. -/
theorem escAppend_overflow {d : Byte} (hd : d = 0x7E ∨ d = 0x7D) {s : State} (h : s.cursor.toNat + 1 = s.build.cap) :
    escAppend d s = .raised .bufferOverflow (escapedEmitted [0x7D] s) := by
  obtain ⟨e, he⟩ := escapeBytes_reserved hd
  rw [escAppend, he]
  exact forEach_appendByte_overflow [0x7D] [] e h

/-- NoCrcByte escapes where ESC_NOCRC_ESCAPES is true (41 R142). -/
theorem noCrcByte_of_escapes {s : State} (ht : s.build.transport = .escaped) (he : s.build.escNocrcEscapes = true)
    (d : Byte) : noCrcByte d s = escAppend d s := by
  rw [noCrcByte_eq_codeByte (fun _ => he), codeByte_of_escaped ht]

/-- The checksum bytes by their place in the accumulator (20 R55). -/
theorem checksumBytes_eq {o : CrcOrder} {c : Word} {first second : Byte}
    (hhi : o = .hiFirst → first.toNat = c.toNat / 256 ∧ second.toNat = c.toNat % 256)
    (hlo : o = .loFirst → first.toNat = c.toNat % 256 ∧ second.toNat = c.toNat / 256) :
    checksumBytes o c = (first, second) := by
  cases o with
  | hiFirst =>
    obtain ⟨h1, h2⟩ := hhi rfl
    exact Prod.ext (BitVec.eq_of_toNat_eq (by rw [h1, ← crcHi_toNat]; rfl))
      (BitVec.eq_of_toNat_eq (by rw [h2, ← crcLo_toNat]; rfl))
  | loFirst =>
    obtain ⟨h1, h2⟩ := hlo rfl
    exact Prod.ext (BitVec.eq_of_toNat_eq (by rw [h1, ← crcLo_toNat]; rfl))
      (BitVec.eq_of_toNat_eq (by rw [h2, ← crcHi_toNat]; rfl))

section
variable {s : State} {first second : Byte}

/-- EMIT_CHECKSUM whose first escape has room for one byte (42 R162). -/
theorem emitChecksumBody_first_overflow (ht : s.build.transport = .escaped) (he : s.build.escNocrcEscapes = true)
    (hc : checksumBytes s.build.crcOrder s.crcAcc = (first, second)) (hd : first = 0x7E ∨ first = 0x7D)
    (h : s.cursor.toNat + 1 = s.build.cap) :
    emitChecksumBody s = .raised .bufferOverflow (escapedEmitted [0x7D] s) := by
  rw [emitChecksumBody, hc, noCrcByte_of_escapes ht he, escAppend_overflow hd h, andThen_raised]

/-- EMIT_CHECKSUM whose second escape has room for one byte (42 R162). -/
theorem emitChecksumBody_second_overflow (ht : s.build.transport = .escaped) (he : s.build.escNocrcEscapes = true)
    (hc : checksumBytes s.build.crcOrder s.crcAcc = (first, second)) (hd : second = 0x7E ∨ second = 0x7D)
    (h : s.cursor.toNat + (escapeBytes first).length + 1 = s.build.cap) :
    emitChecksumBody s = .raised .bufferOverflow (escapedEmitted (escapeBytes first ++ [0x7D]) s) := by
  have hfits : escapedFits (escapeBytes first) s := by omega
  have hroom : (escapedEmitted (escapeBytes first) s).cursor.toNat + 1 = s.build.cap := by
    rw [escapedEmitted, appendAll_cursor, List.length_map, cursor_add hfits, h]
  rw [emitChecksumBody, hc, noCrcByte_of_escapes ht he, escAppend, forEach_appendByte _ s hfits, andThen_completed,
    noCrcByte_of_escapes (s := escapedEmitted _ s) ht he, escAppend_overflow hd hroom, andThen_raised,
    escapedEmitted_append _ _ hfits]

end

/-- Settles O39: each command stops at the byte after the 0x7D. -/
theorem escapedOverflowKeepsTheFirstByte : Obligations.EscapedOverflowKeepsTheFirstByte := by
  intro s ht
  refine ⟨fun d hd hroom hp => ?_, fun d hd hroom he hp => ?_, fun first second he hp hhi hlo => ?_⟩
  · have hbody : commandBody (.emitByteCrc d) s = .raised .bufferOverflow (escapedEmitted [0x7D] (crcUpdate d s)) := by
      rw [commandBody, emitByteCrcBody_eq_codeByte, codeByte_of_escaped (s := crcUpdate d s) ht,
        escAppend_overflow (s := crcUpdate d s) hd hroom]
    exact exec_raised (by rw [hp]; rfl) hbody
  · have hbody : commandBody (.emitByteNocrc d) s = .raised .bufferOverflow (escapedEmitted [0x7D] s) :=
      (noCrcByte_of_escapes ht he d).trans (escAppend_overflow hd hroom)
    exact exec_raised (by rcases hp with hp | hp <;> rw [hp] <;> rfl) hbody
  · have hc := checksumBytes_eq hhi hlo
    have hl : legal .emitChecksum s.phase = true := by rw [hp]; rfl
    exact ⟨fun hd hroom => exec_raised hl (emitChecksumBody_first_overflow ht he hc hd hroom),
      fun hd hroom => exec_raised hl (emitChecksumBody_second_overflow ht he hc hd hroom)⟩

end Sys2Proof.Machine

namespace Sys2Proof.Machine

/-! ## Emit commands that complete (41) -/

/-! ### The encoder over a list of bits -/

/-- Two operations that agree on the blocks of build `b` agree as loops there: no turn changes the build. -/
theorem forEach_congr_build {α : Type} {b : Build} {op op' : α → State → Micro}
    (heq : ∀ v u, u.build = b → op v u = op' v u) (hkeep : ∀ v u, (op' v u).Keeps (SameOutside u)) (vs : List α)
    {s : State} (hs : s.build = b) : forEach op vs s = forEach op' vs s := by
  induction vs generalizing s with
  | nil => rfl
  | cons v vs ih =>
    have hkept := hkeep v s
    rw [forEach_cons, forEach_cons, heq v s hs]
    cases hv : op' v s with
    | completed u =>
      obtain ⟨hb, _⟩ := hkept.of_completed hv
      exact ih (hb.trans hs)
    | raised c u => rfl
    | stopped f => rfl

theorem forEach_pbeEmitBit_pulse {s : State} (ht : s.build.transport = .pulseStuffed) (bits : List Bool) :
    forEach pbeEmitBit bits s = forEach pulseEmitBit bits s :=
  forEach_congr_build (fun v _ hu => pbeEmitBit_pulse (hu ▸ ht) v) pulseEmitBit_sameOutside bits rfl

theorem forEach_flatMap {α β : Type} (op : β → State → Micro) (f : α → List β) (vs : List α) (s : State) :
    forEach (fun v => forEach op (f v)) vs s = forEach op (vs.flatMap f) s := by
  induction vs generalizing s with
  | nil => rfl
  | cons v vs ih =>
    rw [forEach_cons, List.flatMap_cons, forEach_append]
    exact congrArg _ (funext ih)

/-- In SWTIMED_STUFFED logical bits are their physical bits, packed (40 R108). -/
theorem forEach_pbeEmitBit_swtimed {s : State} (ht : s.build.transport = .swtimedStuffed) (bits : List Bool) :
    forEach pbeEmitBit bits s = forEach swPack (bits.flatMap physicalBits) s :=
  (forEach_congr_build (fun v _ hu => pbeEmitBit_swtimed (hu ▸ ht) v) swEmitBit_sameOutside bits rfl).trans
    (forEach_flatMap swPack physicalBits bits s)

/-! ### The packer over a list of physical bits -/

/-- Bit `k` of a byte made of at most eight bits is the `k`-th of them, and 0 above them (20 R54). -/
theorem getLsbD_lsbByte (bs : List Bool) (k : Nat) (hk : k < 8) : (lsbByte bs).getLsbD k = bs.getD k false := by
  induction bs generalizing k with
  | nil => simp [lsbByte]
  | cons b bs ih =>
    rw [lsbByte, BitVec.getLsbD_or, BitVec.getLsbD_shiftLeft]
    cases k with
    | zero => cases b <;> rfl
    | succ k =>
      simp [hk, ih k (by omega)]

/-- A byte below `2^n` is made of its first `n` bits. -/
theorem lsbByte_bits {n : Nat} {d : Byte} (h : d.toNat < 2 ^ n) :
    lsbByte ((List.range n).map fun k => d.getLsbD k) = d := by
  refine BitVec.eq_of_getLsbD_eq fun k hk => ?_
  rw [getLsbD_lsbByte _ k hk]
  by_cases hn : k < n
  · simp [List.getD_eq_getElem?_getD, hn]
  · have h0 : d.getLsbD k = false := Nat.testBit_lt_two_pow (h.trans_le (Nat.pow_le_pow_right (by decide) (by omega)))
    simp [List.getD_eq_getElem?_getD, hn, h0]

/-- Fewer than eight bits make no byte. -/
theorem pack_short {bs : List Bool} (h : bs.length < 8) : packBytes bs = [] ∧ packRest bs = bs := by
  have hlen := packBytes_length bs
  have h0 : packBytes bs = [] := List.length_eq_zero_iff.1 (by omega)
  refine ⟨h0, ?_⟩
  unfold packRest
  split
  · simp at h
    omega
  · rfl

/-- The bits of a full byte come out as that byte. -/
theorem pack_lsbFirst (d : Byte) (bs : List Bool) :
    packBytes (lsbFirst d ++ bs) = d :: packBytes bs ∧ packRest (lsbFirst d ++ bs) = packRest bs :=
  ⟨congrArg (· :: packBytes bs) (lsbByte_bits d.isLt), rfl⟩

theorem pending_length (s : State) : s.pending.length = s.pkCount.toNat := by simp [State.pending]

/-- Packing nothing leaves the packer as it is. -/
theorem swPacked_pending {s : State} (h : s.pkByte.toNat < 2 ^ s.pkCount.toNat) : swPacked s.pending s = s := by
  obtain ⟨hbytes, hrest⟩ := pack_short (pending_length s ▸ s.pkCount.isLt)
  have hbyte : lsbByte s.pending = s.pkByte := lsbByte_bits h
  simp [swPacked, hbytes, hrest, hbyte, pending_length, appendAll, writeAll]

/-- Physical bits that fit are packed behind those waiting (40 R107). -/
theorem forEach_swPack (ps : List Bool) {s : State} (hpk : s.pkByte.toNat < 2 ^ s.pkCount.toNat)
    (h : swFits (s.pending ++ ps) s) : forEach swPack ps s = .completed (swPacked (s.pending ++ ps) s) := by
  induction ps generalizing s with
  | nil => rw [forEach_nil, List.append_nil, swPacked_pending hpk]
  | cons p ps ih =>
    have hbits := packedByte_bits p hpk
    rw [← List.singleton_append, ← List.append_assoc] at h ⊢
    have hfull (h7 : s.pkCount = 7) : s.pending ++ [p] = lsbFirst (packedByte p s) := by
      rw [← hbits, h7]
      rfl
    have hroom (h7 : s.pkCount = 7) : s.cursor.toNat + ((packBytes ps).length + 1) ≤ s.build.cap := by
      rw [hfull h7, swFits, (pack_lsbFirst (packedByte p s) ps).1] at h
      exact h
    rcases swPack_cases p s with ⟨h7, he⟩ | ⟨h7, hc, _⟩ | ⟨h7, hc, he⟩
    · have hcount := pkCount_succ h7
      have hpending : { s with pkByte := packedByte p s, pkCount := s.pkCount + 1 }.pending = s.pending ++ [p] := by
        rw [← hbits, ← hcount]
        rfl
      rw [List.singleton_append, forEach_cons, he, andThen_completed, ih (hcount ▸ packedByte_lt p hpk), hpending]
      · rfl
      · rw [hpending]
        exact h
    · have := hroom h7
      omega
    · obtain ⟨hbytes, hrest⟩ := pack_lsbFirst (packedByte p s) ps
      have hcur := cursor_succ hc
      have := hroom h7
      rw [hfull h7]
      rw [List.singleton_append, forEach_cons, he, andThen_completed, ih (s := { s with
        buf := Memory.write s.buf s.cursor.toNat (byteElement (packedByte p s))
        cursor := s.cursor + 1
        pkByte := 0
        pkCount := 0 }) Nat.one_pos]
      · simp only [swPacked, hbytes, hrest, List.map_cons, appendAll_cons _ _ hc]
        rfl
      · show (s.cursor + 1).toNat + (packBytes ps).length ≤ s.build.cap
        omega

/-! ### The bit stuffer as the encoder over the stuffed stream (40 R111, R112) -/

/-- `op` neither reads nor writes `ones`, as far as it completes. -/
def IgnoresOnes (op : State → Micro) : Prop :=
  ∀ s n t, op { s with ones := n } = .completed t ↔ ∃ u, op s = .completed u ∧ t = { u with ones := n }

theorem pulseEmitBit_ignoresOnes (v : Bool) : IgnoresOnes (pulseEmitBit v) := by
  intro s n t
  rw [pulseEmitBit_ones]
  cases pulseEmitBit v s <;> simp [eq_comm]

theorem swPack_ignoresOnes (p : Bool) : IgnoresOnes (swPack p) := by
  intro s n t
  have hcases := swPack_cases p { s with ones := n }
  rcases swPack_cases p s with ⟨h7, he⟩ | ⟨h7, hc, he⟩ | ⟨h7, hc, he⟩
  · rcases hcases with ⟨_, he'⟩ | ⟨h7', _⟩ | ⟨h7', _⟩
    · rw [he, he']
      simp [packedByte, eq_comm]
    · exact absurd h7' h7
    · exact absurd h7' h7
  · rcases hcases with ⟨h7', _⟩ | ⟨_, _, he'⟩ | ⟨_, hc', _⟩
    · exact absurd h7 h7'
    · rw [he, he']
      simp
    · exact absurd hc (Nat.not_le.2 hc')
  · rcases hcases with ⟨h7', _⟩ | ⟨_, hc', _⟩ | ⟨_, _, he'⟩
    · exact absurd h7 h7'
    · exact absurd hc' (Nat.not_le.2 hc)
    · rw [he, he']
      simp [packedByte, eq_comm]

theorem forEach_ignoresOnes {α : Type} {op : α → State → Micro} (h : ∀ v, IgnoresOnes (op v)) (vs : List α) :
    IgnoresOnes (forEach op vs) := by
  intro s n t
  induction vs generalizing s with
  | nil => simp [eq_comm]
  | cons v vs ih =>
    simp only [forEach_cons, andThen_eq_completed]
    constructor
    · rintro ⟨_, hv, ht⟩
      obtain ⟨u, hu, rfl⟩ := (h v s n _).1 hv
      obtain ⟨w, hw, rfl⟩ := (ih u).1 ht
      exact ⟨w, ⟨u, hu, hw⟩, rfl⟩
    · rintro ⟨w, ⟨u, hu, hw⟩, rfl⟩
      exact ⟨_, (h v s n _).2 ⟨u, hu, rfl⟩, (ih u).2 ⟨w, hw, rfl⟩⟩

theorem pbeEmitBit_ignoresOnes (v : Bool) : IgnoresOnes (pbeEmitBit v) := by
  intro s n t
  unfold pbeEmitBit
  cases s.build.transport with
  | pulseStuffed => exact pulseEmitBit_ignoresOnes v s n t
  | swtimedStuffed => exact forEach_ignoresOnes swPack_ignoresOnes (physicalBits v) s n t
  | escaped => simp [eq_comm]

/-- So it leaves the count as it was. -/
theorem IgnoresOnes.ones {op : State → Micro} (h : IgnoresOnes op) {s t : State} (ht : op s = .completed t) :
    t.ones = s.ones := by
  obtain ⟨u, _, rfl⟩ := (h s s.ones t).1 ht
  rfl

/-- StuffedBit is the encoder over the stuffed bit, and then the new count (40 R111). -/
theorem stuffedBit_eq (v : Bool) (s : State) :
    stuffedBit v s = (forEach pbeEmitBit (stuff s.ones.toNat [v]) s).andThen fun u =>
      .completed { u with ones := BitVec.ofNat 3 (onesAfter s.ones.toNat [v]) } := by
  cases v with
  | false => simp [stuffedBit_false, stuff, onesAfter, forEach_cons, andThen_assoc]
  | true =>
    rw [stuffedBit_true]
    cases hu : pbeEmitBit true s with
    | raised | stopped => by_cases h5 : s.ones.toNat + 1 = stuffLimit <;> simp [stuff, h5, forEach_cons, hu]
    | completed u =>
      have hkept : u.ones = s.ones := (pbeEmitBit_ignoresOnes true).ones hu
      by_cases h5 : s.ones.toNat + 1 = stuffLimit
      · have h4 : s.ones.toNat = 4 := Nat.succ.inj h5
        simp [stuff, onesAfter, stuffLimit, forEach_cons, hu, hkept, h4, andThen_assoc]
      · have h4 : s.ones.toNat ≠ 4 := fun h => h5 (congrArg Nat.succ h)
        have hsucc : BitVec.ofNat 3 (s.ones.toNat + 1) = s.ones + 1 := by simp [BitVec.ofNat_add]
        simp [stuff, onesAfter, h5, forEach_cons, hu, hkept, h4, hsucc]

/-- The bit stuffer completes exactly when the encoder does over the stuffed stream, and then only the count differs. -/
theorem forEach_stuffedBit_eq_completed (bits : List Bool) {s t : State} (hs : s.ones.toNat < stuffLimit) :
    forEach stuffedBit bits s = .completed t ↔
      ∃ u, forEach pbeEmitBit (stuff s.ones.toNat bits) s = .completed u ∧
        t = { u with ones := BitVec.ofNat 3 (onesAfter s.ones.toNat bits) } := by
  induction bits generalizing s with
  | nil => simp [stuff, onesAfter, eq_comm]
  | cons v bits ih =>
    have hlt : onesAfter s.ones.toNat [v] < stuffLimit := onesAfter_lt _ [v] hs
    have hcount : (BitVec.ofNat 3 (onesAfter s.ones.toNat [v])).toNat = onesAfter s.ones.toNat [v] :=
      Nat.mod_eq_of_lt (hlt.trans (by decide))
    -- the encoder goes on in the same way with the old count as the stuffer with the new one
    have hgo (u : State) : forEach stuffedBit bits { u with ones := BitVec.ofNat 3 (onesAfter s.ones.toNat [v]) } =
          .completed t ↔
        ∃ w, forEach pbeEmitBit (stuff (onesAfter s.ones.toNat [v]) bits) u = .completed w ∧
          t = { w with ones := BitVec.ofNat 3 (onesAfter (onesAfter s.ones.toNat [v]) bits) } := by
      rw [ih (by rw [hcount]; exact hlt)]
      simp only [hcount]
      have hblind := forEach_ignoresOnes pbeEmitBit_ignoresOnes (stuff (onesAfter s.ones.toNat [v]) bits) u
      constructor
      · rintro ⟨_, hx, rfl⟩
        obtain ⟨w, hw, rfl⟩ := (hblind _ _).1 hx
        exact ⟨w, hw, rfl⟩
      · rintro ⟨w, hw, rfl⟩
        exact ⟨_, (hblind _ _).2 ⟨w, hw, rfl⟩, rfl⟩
    rw [← List.singleton_append, stuff_append, onesAfter_append, List.singleton_append, forEach_cons, forEach_append]
    simp only [andThen_eq_completed, stuffedBit_eq v, Micro.completed.injEq]
    constructor
    · rintro ⟨_, ⟨u, hu, rfl⟩, ht⟩
      obtain ⟨w, hw, rfl⟩ := (hgo u).1 ht
      exact ⟨w, ⟨u, hu, hw⟩, rfl⟩
    · rintro ⟨w, ⟨u, hu, hw⟩, rfl⟩
      exact ⟨_, ⟨u, hu, rfl⟩, (hgo u).2 ⟨w, hw, rfl⟩⟩

/-! ### The three emit commands (41 R141 to R143) -/

theorem stuffByte_completed {d : Byte} {s t : State} (hs : s.ones.toNat ≤ 4)
    (h : forEach pbeEmitBit (stuff s.ones.toNat (msbFirst d)) s = .completed t) :
    stuffByte d s = .completed { t with ones := BitVec.ofNat 3 (onesAfter s.ones.toNat (msbFirst d)) } :=
  (forEach_stuffedBit_eq_completed (msbFirst d) (Nat.lt_succ_of_le hs)).2 ⟨t, h, rfl⟩

/-- A legal command whose micro-operations complete leads to where they end. -/
theorem exec_of_completed {i : Instr} {s t : State} (hl : legal i s.phase = true)
    (h : commandBody i s = .completed t) : exec i s = .next t := by
  rw [exec_of_legal hl, h]
  rfl

/-- The emit commands of a trailer are legal as long as the frame is open (42 R160). -/
theorem legal_of_open {i : Instr} {p : Phase} (hi : Instr.isTrailerEmit i = true) (hp : p = .payload ∨ p = .trailer) :
    legal i p = true := by
  cases i with
  | emitByteNocrc | emitByteRaw => rcases hp with rfl | rfl <;> rfl
  | resetFrame | emitByteCrc | emitChecksum | finish => cases hi

section
variable {d : Byte} {s : State}

theorem exec_emitByteCrc {t : State} (hp : s.phase = .payload) (h : codeByte d (crcUpdate d s) = .completed t) :
    exec (.emitByteCrc d) s = .next t :=
  exec_of_completed (hp ▸ rfl) h

theorem exec_emitByteNocrc {t : State} (hp : s.phase = .payload ∨ s.phase = .trailer)
    (h : noCrcByte d s = .completed t) : exec (.emitByteNocrc d) s = .next t :=
  exec_of_completed (legal_of_open rfl hp) h

theorem exec_emitByteRaw {t : State} (hp : s.phase = .payload ∨ s.phase = .trailer)
    (h : emitByteRawBody d s = .completed t) : exec (.emitByteRaw d) s = .next t :=
  exec_of_completed (legal_of_open rfl hp) h

/-- In the stuffed transports EMIT_BYTE_CRC completes where the encoder does over the stuffed stream. -/
theorem exec_emitByteCrc_stuffed (ht : s.build.transport ≠ .escaped) (hp : s.phase = .payload)
    (hs : s.ones.toNat ≤ 4) {t : State}
    (h : forEach pbeEmitBit (stuff s.ones.toNat (msbFirst d)) (crcUpdate d s) = .completed t) :
    exec (.emitByteCrc d) s = .next { t with ones := BitVec.ofNat 3 (onesAfter s.ones.toNat (msbFirst d)) } :=
  exec_emitByteCrc hp ((codeByte_of_stuffed (s := crcUpdate d s) ht d).trans
    (stuffByte_completed (s := crcUpdate d s) hs h))

theorem exec_emitByteNocrc_stuffed (ht : s.build.transport ≠ .escaped)
    (hp : s.phase = .payload ∨ s.phase = .trailer) (hs : s.ones.toNat ≤ 4) {t : State}
    (h : forEach pbeEmitBit (stuff s.ones.toNat (msbFirst d)) s = .completed t) :
    exec (.emitByteNocrc d) s = .next { t with ones := BitVec.ofNat 3 (onesAfter s.ones.toNat (msbFirst d)) } := by
  refine exec_emitByteNocrc hp ?_
  rw [noCrcByte_eq_codeByte (absurd · ht), codeByte_of_stuffed ht, stuffByte_completed hs h]

theorem exec_emitByteRaw_stuffed (ht : s.build.transport ≠ .escaped) (hp : s.phase = .payload ∨ s.phase = .trailer)
    {t : State} (h : forEach pbeEmitBit (msbFirst d) s = .completed t) : exec (.emitByteRaw d) s = .next t :=
  exec_emitByteRaw hp ((emitByteRawBody_of_stuffed ht d).trans h)

/-- In PULSE_STUFFED bits that fit are emitted (40 R104). -/
theorem forEach_pbeEmitBit_pulse_completed (ht : s.build.transport = .pulseStuffed) {bits : List Bool}
    (h : pulseFits bits s) : forEach pbeEmitBit bits s = .completed (pulseEmitted bits s) :=
  (forEach_pbeEmitBit_pulse ht bits).trans (forEach_pulseEmitBit bits s h)

/-- In SWTIMED_STUFFED bits that fit are packed (40 R107, R108). -/
theorem forEach_pbeEmitBit_swtimed_completed (ht : s.build.transport = .swtimedStuffed)
    (hpk : s.pkByte.toNat < 2 ^ s.pkCount.toNat) {bits : List Bool} (h : swFits (physicalStream bits s) s) :
    forEach pbeEmitBit bits s = .completed (swPacked (physicalStream bits s) s) :=
  (forEach_pbeEmitBit_swtimed ht bits).trans (forEach_swPack (bits.flatMap physicalBits) hpk h)

end

/-- Settles O31: the encoder over the stuffed stream, or over the bits of a raw byte. -/
theorem pulseEmitCompletes : Obligations.PulseEmitCompletes := by
  intro d s ht stream count
  have hne : s.build.transport ≠ .escaped := by simp [ht]
  exact ⟨fun hp hs hfits => exec_emitByteCrc_stuffed hne hp hs
      (forEach_pbeEmitBit_pulse_completed (s := crcUpdate d s) ht hfits),
    fun hp hs hfits => exec_emitByteNocrc_stuffed hne hp hs (forEach_pbeEmitBit_pulse_completed ht hfits),
    fun hp hfits => exec_emitByteRaw_stuffed hne hp (forEach_pbeEmitBit_pulse_completed ht hfits)⟩

/-- Settles O32: the packer over the expansion of the stuffed stream, or of the bits of a raw byte. -/
theorem swtimedEmitCompletes : Obligations.SwtimedEmitCompletes := by
  intro d s ht hpk stream raw count
  have hne : s.build.transport ≠ .escaped := by simp [ht]
  exact ⟨fun hp hs hfits => exec_emitByteCrc_stuffed hne hp hs
      (forEach_pbeEmitBit_swtimed_completed (s := crcUpdate d s) ht hpk hfits),
    fun hp hs hfits => exec_emitByteNocrc_stuffed hne hp hs (forEach_pbeEmitBit_swtimed_completed ht hpk hfits),
    fun hp hfits => exec_emitByteRaw_stuffed hne hp (forEach_pbeEmitBit_swtimed_completed ht hpk hfits)⟩

/-- In ESCAPED every byte command is a list of bytes appended (40 R114, 41 R142). -/
theorem noCrcByte_of_escaped {s : State} (ht : s.build.transport = .escaped) (d : Byte) :
    noCrcByte d s = forEach appendByte (noCrcBytes s.build d) s := by
  rcases noCrcByte_cases d s with ⟨_, he⟩ | ⟨hne, _⟩
  · exact he
  · exact absurd ht hne

theorem emitByteRawBody_of_escaped {s : State} (ht : s.build.transport = .escaped) (d : Byte) :
    emitByteRawBody d s = forEach appendByte [d] s := by
  have hone : forEach appendByte [d] s = appendByte d s := by
    rw [forEach_cons]
    cases appendByte d s <;> rfl
  simp [emitByteRawBody, ht, hone]

/-- Settles O33: the bytes of each command, appended one after the other. -/
theorem escapedEmitCompletes : Obligations.EscapedEmitCompletes := by
  intro d s ht
  exact ⟨fun hp hfits => exec_emitByteCrc hp ((codeByte_of_escaped (s := crcUpdate d s) ht d).trans
      (forEach_appendByte (escapeBytes d) (crcUpdate d s) hfits)),
    fun hp hfits => exec_emitByteNocrc hp ((noCrcByte_of_escaped ht d).trans (forEach_appendByte _ s hfits)),
    fun hp hfits => exec_emitByteRaw hp ((emitByteRawBody_of_escaped ht d).trans (forEach_appendByte _ s hfits))⟩

/-! ### How much an emit command puts out (41 R144) -/

/-- The 5-ones rule adds a 0 for every five 1s at most, those counted before among them. -/
theorem stuff_length_le (n : Nat) (bits : List Bool) (h : n < stuffLimit) :
    bits.length ≤ (stuff n bits).length ∧ 5 * (stuff n bits).length ≤ 6 * bits.length + n := by
  induction bits generalizing n with
  | nil => simp [stuff]
  | cons b bits ih =>
    have hzero := ih 0 (by decide)
    simp only [stuffLimit] at h ih
    cases b with
    | false =>
      simp only [stuff, List.length_cons]
      omega
    | true =>
      by_cases h5 : n + 1 = stuffLimit
      · have : n = 4 := Nat.succ.inj h5
        simp only [stuff, h5, if_true, List.length_cons]
        omega
      · have hnext := ih (n + 1) (by simp only [stuffLimit] at h5; omega)
        simp only [stuff, h5, if_false, List.length_cons]
        omega

/-- The 5-ones rule adds no 1. -/
theorem stuff_count_true (n : Nat) (bits : List Bool) : (stuff n bits).count true = bits.count true := by
  induction bits generalizing n with
  | nil => rfl
  | cons b bits ih =>
    cases b with
    | false => simp [stuff, ih]
    | true => by_cases h5 : n + 1 = stuffLimit <;> simp [stuff, h5, ih]

/-- A 0 takes two physical bits and a 1 three (40 R108). -/
theorem physicalBits_length (bits : List Bool) :
    (bits.flatMap physicalBits).length = 2 * bits.count false + 3 * bits.count true := by
  induction bits with
  | nil => rfl
  | cons b bits ih => cases b <;> simp [physicalBits, ih] <;> omega

theorem msbFirst_length (d : Byte) : (msbFirst d).length = 8 := rfl

/-- A loop whose every turn adds one to `size` adds its number of turns. -/
theorem forEach_size {α : Type} {size : State → Nat} {op : α → State → Micro}
    (h : ∀ v s, (op v s).Reaches fun t => size t = size s + 1) (vs : List α) (s : State) :
    (forEach op vs s).Reaches fun t => size t = size s + vs.length := by
  refine reaches_forEach (P := fun us t => size t = size s + us.length) (fun us v u hu => ?_) vs (us := []) rfl
  refine (h v u).mono fun t ht => ?_
  rw [ht, hu, List.length_append, List.length_singleton, Nat.add_assoc]

/-- The physical bits put out in this frame: eight for every byte written, and those waiting (10 R28). -/
def State.physicalCount (s : State) : Nat := 8 * s.cursor.toNat + s.pkCount.toNat

theorem appendByte_cursor (d : Byte) (s : State) :
    (appendByte d s).Reaches fun t => t.cursor.toNat = s.cursor.toNat + 1 := by
  rcases append_cases (byteElement d) s with ⟨_, he⟩ | ⟨hc, he⟩ <;> rw [appendByte, he]
  · trivial
  · exact cursor_succ hc

theorem pulseEmitBit_cursor (v : Bool) (s : State) :
    (pulseEmitBit v s).Reaches fun t => t.cursor.toNat = s.cursor.toNat + 1 := by
  rcases pulseEmitBit_cases v s with ⟨_, he⟩ | ⟨_, _, he⟩ | ⟨hc, _, he⟩ <;> rw [he]
  · trivial
  · trivial
  · exact cursor_succ hc

theorem swPack_physicalCount (p : Bool) (s : State) :
    (swPack p s).Reaches fun t => t.physicalCount = s.physicalCount + 1 := by
  rcases swPack_cases p s with ⟨h7, he⟩ | ⟨_, _, he⟩ | ⟨h7, hc, he⟩ <;> rw [he]
  · exact congrArg (8 * s.cursor.toNat + ·) (pkCount_succ h7)
  · trivial
  · have hcur := cursor_succ hc
    show 8 * (s.cursor + 1).toNat + 0 = 8 * s.cursor.toNat + s.pkCount.toNat + 1
    rw [hcur, h7]
    rfl

section
variable {s t : State}

/-- In PULSE_STUFFED every bit is one element (41 R144). -/
theorem cursor_of_pulse (ht : s.build.transport = .pulseStuffed) {bits : List Bool}
    (h : forEach pbeEmitBit bits s = .completed t) : t.cursor.toNat = s.cursor.toNat + bits.length :=
  (forEach_size (size := fun u => u.cursor.toNat) pulseEmitBit_cursor bits s).of_completed
    (forEach_pbeEmitBit_pulse ht bits ▸ h)

/-- In SWTIMED_STUFFED a 0 is two physical bits and a 1 three (41 R144). -/
theorem physicalCount_of_swtimed (ht : s.build.transport = .swtimedStuffed) {bits : List Bool}
    (h : forEach pbeEmitBit bits s = .completed t) :
    t.physicalCount = s.physicalCount + (2 * bits.count false + 3 * bits.count true) := by
  rw [forEach_pbeEmitBit_swtimed ht] at h
  rw [← physicalBits_length]
  exact (forEach_size swPack_physicalCount (bits.flatMap physicalBits) s).of_completed h

/-- In ESCAPED every byte is one element (41 R144). -/
theorem cursor_of_escaped {bytes : List Byte} (h : forEach appendByte bytes s = .completed t) :
    t.cursor.toNat = s.cursor.toNat + bytes.length :=
  (forEach_size (size := fun u => u.cursor.toNat) appendByte_cursor bytes s).of_completed h

/-- At most seven bits wait in the packer, so 28 physical bits fill four bytes at most. -/
theorem cursor_le_of_physicalCount {p : Nat} (h : t.physicalCount = s.physicalCount + p) (hp : p ≤ 28) :
    t.cursor.toNat ≤ s.cursor.toNat + 4 := by
  have := s.pkCount.isLt
  simp only [State.physicalCount] at h
  omega

/-- The stuffed stream of one byte is 8 to 10 bits long. -/
theorem stuff_byte_length (d : Byte) {n : Nat} (hn : n ≤ 4) :
    8 ≤ (stuff n (msbFirst d)).length ∧ (stuff n (msbFirst d)).length ≤ 10 := by
  have := stuff_length_le n (msbFirst d) (Nat.lt_succ_of_le hn)
  rw [msbFirst_length] at this
  omega

/-- The stuffed stream of one byte takes 16 to 28 physical bits (41 R144). -/
theorem physical_stuff_bounds (d : Byte) {n : Nat} (hn : n ≤ 4) :
    16 ≤ 2 * (stuff n (msbFirst d)).count false + 3 * (stuff n (msbFirst d)).count true ∧
      2 * (stuff n (msbFirst d)).count false + 3 * (stuff n (msbFirst d)).count true ≤ 28 := by
  have hlen := stuff_byte_length d hn
  have hsum := List.count_false_add_count_true (stuff n (msbFirst d))
  have hones : (stuff n (msbFirst d)).count true ≤ 8 := by
    rw [stuff_count_true]
    exact List.count_le_length
  omega

/-- A byte takes 16 physical bits and one more for each of its ones (40 R108). -/
theorem physical_raw_length (d : Byte) :
    2 * (msbFirst d).count false + 3 * (msbFirst d).count true = 16 + (msbFirst d).count true := by
  have := List.count_false_add_count_true (msbFirst d)
  rw [msbFirst_length] at this
  omega

/-- In the stuffed transports EMIT_BYTE_CRC and EMIT_BYTE_NOCRC complete by the encoder over the stuffed stream. -/
theorem commandBody_stuffed {i : Instr} {d : Byte} (hi : i = .emitByteCrc d ∨ i = .emitByteNocrc d)
    (ht : s.build.transport ≠ .escaped) (hs : s.ones.toNat ≤ 4) (h : commandBody i s = .completed t) :
    ∃ acc u, forEach pbeEmitBit (stuff s.ones.toNat (msbFirst d)) { s with crcAcc := acc } = .completed u ∧
      t = { u with ones := BitVec.ofNat 3 (onesAfter s.ones.toNat (msbFirst d)) } := by
  have hlt : s.ones.toNat < stuffLimit := Nat.lt_succ_of_le hs
  rcases hi with rfl | rfl
  · rw [commandBody, emitByteCrcBody_eq_codeByte, codeByte_of_stuffed (s := crcUpdate d s) ht] at h
    exact ⟨_, (forEach_stuffedBit_eq_completed (msbFirst d) (s := crcUpdate d s) hlt).1 h⟩
  · rw [commandBody, noCrcByte_eq_codeByte (absurd · ht), codeByte_of_stuffed ht] at h
    exact ⟨s.crcAcc, (forEach_stuffedBit_eq_completed (msbFirst d) hlt).1 h⟩

end

/-- How many bytes the escape substitution makes of one (40 R114). -/
theorem escapeBytes_length (d : Byte) : (escapeBytes d).length = if d = 0x7E ∨ d = 0x7D then 2 else 1 := by
  rcases escapeBytes_cases d with ⟨hd, he⟩ | ⟨hd, he⟩ | ⟨h1, h2, he⟩
  · rw [he, if_pos (.inl hd)]
    rfl
  · rw [he, if_pos (.inr hd)]
    rfl
  · rw [he, if_neg (not_or.2 ⟨h1, h2⟩), List.length_singleton]

theorem noCrcBytes_length (b : Build) (d : Byte) :
    (noCrcBytes b d).length = if b.escNocrcEscapes = true ∧ (d = 0x7E ∨ d = 0x7D) then 2 else 1 := by
  by_cases he : b.escNocrcEscapes = true
  · simp [noCrcBytes, he, escapeBytes_length]
  · simp [noCrcBytes, he]

/-- Settles O42: the length of what each command puts through the encoder, or appends. -/
theorem emitSizesByTransport : Obligations.EmitSizesByTransport := by
  intro i d s t _ hrun hfault
  obtain ⟨_, _, h⟩ := exec_completed hrun hfault
  refine ⟨fun hi ht hs => ?_, fun hi ht hs => ?_, ?_, ?_, ?_, ?_, ?_⟩
  · obtain ⟨acc, u, hu, rfl⟩ := commandBody_stuffed hi (by simp [ht]) hs h
    have hsize : u.cursor.toNat = s.cursor.toNat + (stuff s.ones.toNat (msbFirst d)).length :=
      cursor_of_pulse (s := { s with crcAcc := acc }) ht hu
    obtain ⟨hmin, hmax⟩ := stuff_byte_length d hs
    exact ⟨(stuff s.ones.toNat (msbFirst d)).length - 8, by omega, by rw [hsize]; omega⟩
  · obtain ⟨acc, u, hu, rfl⟩ := commandBody_stuffed hi (by simp [ht]) hs h
    have hsize : u.physicalCount = s.physicalCount + _ :=
      physicalCount_of_swtimed (s := { s with crcAcc := acc }) ht hu
    obtain ⟨hmin, hmax⟩ := physical_stuff_bounds d hs
    exact ⟨_, rfl, hmin, hmax, hsize, cursor_le_of_physicalCount hsize hmax⟩
  · rintro rfl ht
    have hb : forEach appendByte (escapeBytes d) (crcUpdate d s) = .completed t :=
      (codeByte_of_escaped (s := crcUpdate d s) ht d).symm.trans h
    exact escapeBytes_length d ▸ cursor_of_escaped (s := crcUpdate d s) hb
  · rintro rfl ht
    exact noCrcBytes_length s.build d ▸ cursor_of_escaped ((noCrcByte_of_escaped ht d).symm.trans h)
  · rintro rfl ht
    exact cursor_of_pulse ht ((emitByteRawBody_of_stuffed (by simp [ht]) d).symm.trans h)
  · rintro rfl ht
    have hsize := physicalCount_of_swtimed ht ((emitByteRawBody_of_stuffed (by simp [ht]) d).symm.trans h)
    rw [physical_raw_length] at hsize
    have hones : (msbFirst d).count true ≤ 8 := List.count_le_length
    exact ⟨hsize.trans (Nat.add_assoc _ _ _).symm, cursor_le_of_physicalCount hsize (by omega)⟩
  · rintro rfl ht
    exact cursor_of_escaped ((emitByteRawBody_of_escaped ht d).symm.trans h)

/-! ### What a command folds and leaves alone -/

/-- What a legal command's micro-operations keep, and fault entry after them, the command establishes. -/
theorem exec_keeps_of_legal {P : State → Prop} {i : Instr} {s t : State}
    (hfault : ∀ c w u, P u → P (faultEntry c w u)) (hl : legal i s.phase = true) (hbody : (commandBody i s).Keeps P)
    (h : exec i s = .next t) : P t := by
  rw [exec_of_legal hl] at h
  rcases settle_eq_next.1 h with hm | ⟨c, u, hm, rfl⟩ <;> rw [hm] at hbody
  · exact hbody
  · exact hfault _ _ _ hbody

/-- Settles O38: the byte is folded first, and neither the emission nor fault entry touches the accumulator. -/
theorem crcByteIsFoldedBeforeEmission : Obligations.CrcByteIsFoldedBeforeEmission := by
  intro d s t hp h
  have hbody : (commandBody (.emitByteCrc d) s).Keeps fun u => u.crcAcc = crcStep s.build s.crcAcc d := by
    refine (emitByteCrcBody_sameOutside d s).mono fun u hu => ?_
    obtain ⟨_, _, _, _, hacc, _⟩ := hu
    exact hacc
  exact exec_keeps_of_legal (fun _ _ _ hu => hu) (hp ▸ rfl) hbody h

/-- What the emit commands and EMIT_CHECKSUM leave alone of the datapath since `s`; the count of ones too where `keep`
(41 R140 to R143, 20 R51). -/
def EmitFrame (keep : Prop) (s t : State) : Prop :=
  t.build = s.build ∧ s.cursor.toNat ≤ t.cursor.toNat ∧
    (∀ a, ¬(s.cursor.toNat ≤ a ∧ a < t.cursor.toNat) → Memory.read t.buf a = Memory.read s.buf a) ∧
    (keep → t.ones = s.ones) ∧ (s.build.transport ≠ .pulseStuffed → t.rem = s.rem) ∧
    (s.build.transport ≠ .swtimedStuffed → t.pkByte = s.pkByte ∧ t.pkCount = s.pkCount)

section
variable {keep : Prop} {s u : State}

theorem EmitFrame.refl (keep : Prop) (s : State) : EmitFrame keep s s :=
  ⟨rfl, le_rfl, fun _ _ => rfl, fun _ => rfl, fun _ => rfl, fun _ => ⟨rfl, rfl⟩⟩

/-- An element appended stands between the old cursor and the new one. -/
theorem EmitFrame.append (h : EmitFrame keep s u) (hc : u.cursor.toNat < u.build.cap) (v : Word) :
    EmitFrame keep s { u with buf := Memory.write u.buf u.cursor.toNat v, cursor := u.cursor + 1 } := by
  obtain ⟨hb, hcur, hbuf, hrest⟩ := h
  have hsucc := cursor_succ hc
  refine ⟨hb, hsucc ▸ hcur.trans (Nat.le_succ _), fun a ha => ?_, hrest⟩
  have ha' : ¬(s.cursor.toNat ≤ a ∧ a < u.cursor.toNat + 1) := hsucc ▸ ha
  exact (Memory.read_write_other _ _ (by omega)).trans (hbuf a (by omega))

theorem append_emitFrame (v : Word) (h : EmitFrame keep s u) : (append v u).Keeps (EmitFrame keep s) := by
  rcases append_cases v u with ⟨_, he⟩ | ⟨hc, he⟩ <;> rw [he]
  · exact h
  · exact h.append hc v

/-- PulseEmitBit charges `rem` and nothing else besides its element (40 R104). -/
theorem pulseEmitBit_emitFrame (ht : s.build.transport = .pulseStuffed) (v : Bool) (h : EmitFrame keep s u) :
    (pulseEmitBit v u).Keeps (EmitFrame keep s) := by
  refine (append_emitFrame _ h).andThen fun w hw => ?_
  split
  · exact hw
  · obtain ⟨hb, hcur, hbuf, hones, _, hpack⟩ := hw
    exact ⟨hb, hcur, hbuf, hones, absurd ht, hpack⟩

/-- A change of the packer alone keeps the frame in SWTIMED_STUFFED. -/
theorem EmitFrame.withPacker (ht : s.build.transport = .swtimedStuffed) (h : EmitFrame keep s u) (d : Byte)
    (n : BitVec 3) : EmitFrame keep s { u with pkByte := d, pkCount := n } := by
  obtain ⟨hb, hcur, hbuf, hones, hrem, _⟩ := h
  exact ⟨hb, hcur, hbuf, hones, hrem, absurd ht⟩

theorem swPack_emitFrame (ht : s.build.transport = .swtimedStuffed) (p : Bool) (h : EmitFrame keep s u) :
    (swPack p u).Keeps (EmitFrame keep s) := by
  rcases swPack_cases p u with ⟨_, he⟩ | ⟨_, _, he⟩ | ⟨_, hc, he⟩ <;> rw [he]
  · exact h.withPacker ht _ _
  · exact h.withPacker ht _ _
  · exact (h.append hc _).withPacker ht _ _

theorem pbeEmitBit_emitFrame (v : Bool) (h : EmitFrame keep s u) : (pbeEmitBit v u).Keeps (EmitFrame keep s) := by
  have hb : u.build = s.build := h.1
  unfold pbeEmitBit
  split
  · next ht => exact pulseEmitBit_emitFrame (hb ▸ ht) v h
  · next ht => exact keeps_forEach (fun p _ => swPack_emitFrame (hb ▸ ht) p) _ h
  · exact h

/-- The bit stuffer writes the count of ones besides (40 R111). -/
theorem stuffedBit_emitFrame (hk : ¬keep) (v : Bool) (h : EmitFrame keep s u) :
    (stuffedBit v u).Keeps (EmitFrame keep s) := by
  have hcount {w : State} (hw : EmitFrame keep s w) (n : BitVec 3) : EmitFrame keep s { w with ones := n } := by
    obtain ⟨hb, hcur, hbuf, _, hrest⟩ := hw
    exact ⟨hb, hcur, hbuf, (absurd · hk), hrest⟩
  refine (pbeEmitBit_emitFrame v h).andThen fun w hw => ?_
  split_ifs
  · exact (pbeEmitBit_emitFrame false hw).andThen fun _ hx => hcount hx 0
  · exact hcount hw _
  · exact hcount hw 0

theorem appendBytes_emitFrame (bytes : List Byte) (h : EmitFrame keep s u) :
    (forEach appendByte bytes u).Keeps (EmitFrame keep s) :=
  keeps_forEach (fun d _ => append_emitFrame (byteElement d)) bytes h

theorem codeByte_emitFrame (hk : s.build.transport ≠ .escaped → ¬keep) (d : Byte) (h : EmitFrame keep s u) :
    (codeByte d u).Keeps (EmitFrame keep s) := by
  have hb : u.build = s.build := h.1
  by_cases ht : u.build.transport = .escaped
  · rw [codeByte_of_escaped ht]
    exact appendBytes_emitFrame _ h
  · rw [codeByte_of_stuffed ht]
    exact keeps_forEach (fun v _ => stuffedBit_emitFrame (hk (hb ▸ ht)) v) _ h

theorem noCrcByte_emitFrame (hk : s.build.transport ≠ .escaped → ¬keep) (d : Byte) (h : EmitFrame keep s u) :
    (noCrcByte d u).Keeps (EmitFrame keep s) := by
  have hb : u.build = s.build := h.1
  rcases noCrcByte_cases d u with ⟨_, he⟩ | ⟨ht, he⟩ <;> rw [he]
  · exact appendBytes_emitFrame _ h
  · exact keeps_forEach (fun v _ => stuffedBit_emitFrame (hk (hb ▸ ht)) v) _ h

theorem emitByteRawBody_emitFrame (d : Byte) (h : EmitFrame keep s u) :
    (emitByteRawBody d u).Keeps (EmitFrame keep s) := by
  by_cases ht : u.build.transport = .escaped
  · rw [emitByteRawBody_of_escaped ht]
    exact appendBytes_emitFrame _ h
  · rw [emitByteRawBody_of_stuffed ht]
    exact keeps_forEach (fun v _ => pbeEmitBit_emitFrame v) _ h

end

/-- The commands that leave the count of ones alone: EMIT_BYTE_RAW, and every one of them in ESCAPED (10 R25). -/
def KeepsOnes (i : Instr) (s : State) : Prop := (∃ d, i = .emitByteRaw d) ∨ s.build.transport = .escaped

theorem commandBody_emitFrame {i : Instr} (hr : i ≠ .resetFrame) (hf : i ≠ .finish) (s : State) :
    (commandBody i s).Keeps (EmitFrame (KeepsOnes i s) s) := by
  have hrefl := EmitFrame.refl (KeepsOnes i s) s
  cases i with
  | resetFrame => exact absurd rfl hr
  | finish => exact absurd rfl hf
  | emitByteCrc d => exact codeByte_emitFrame (u := crcUpdate d s) (by simp [KeepsOnes]) d hrefl
  | emitByteNocrc d => exact noCrcByte_emitFrame (by simp [KeepsOnes]) d hrefl
  | emitByteRaw d => exact emitByteRawBody_emitFrame d hrefl
  | emitChecksum =>
    have hk : s.build.transport ≠ .escaped → ¬KeepsOnes .emitChecksum s := by simp [KeepsOnes]
    exact (noCrcByte_emitFrame hk _ hrefl).andThen fun _ h1 => (noCrcByte_emitFrame hk _ h1).andThen fun _ h2 => h2

/-- The three emit commands leave the phase as it is (42 R160). -/
theorem commandBody_phase {i : Instr} (hi : Instr.isEmit i = true) (s : State) :
    (commandBody i s).Keeps fun t => t.phase = s.phase := by
  have hsame {u v : State} (h : SameOutside u v) : v.phase = u.phase := by
    obtain ⟨_, hp, _⟩ := h
    exact hp
  cases i with
  | emitByteCrc d => exact (emitByteCrcBody_sameOutside d s).mono fun _ => hsame
  | emitByteNocrc d => exact (noCrcByte_sameOutside d s).mono fun _ => hsame
  | emitByteRaw d => exact (emitByteRawBody_sameOutside d s).mono fun _ => hsame
  | resetFrame | emitChecksum | finish => cases hi

/-- A command that completes keeps the record of faults and, if it only emits, the phase. -/
theorem exec_completed_frame {i : Instr} (hr : i ≠ .resetFrame) (hf : i ≠ .finish) {s t : State}
    (h : exec i s = .next t) (ht : t.phase ≠ .faulted) :
    t.cause = s.cause ∧ t.faultCmd = s.faultCmd ∧ (i ≠ .emitChecksum → t.phase = s.phase) := by
  obtain ⟨_, _, hbody⟩ := exec_completed h ht
  obtain ⟨_, hcause, hcmd, _⟩ := (commandBody_frame hr s).of_completed hbody
  refine ⟨hcause, hcmd, fun hc => (commandBody_phase ?_ s).of_completed hbody⟩
  cases i with
  | resetFrame => exact absurd rfl hr
  | finish => exact absurd rfl hf
  | emitChecksum => exact absurd rfl hc
  | emitByteCrc | emitByteNocrc | emitByteRaw => rfl

/-- The fields of the host's side, and the accumulator but for EMIT_BYTE_CRC (10 R24). -/
def HostSideKept (i : Instr) (s t : State) : Prop :=
  t.inbox = s.inbox ∧ t.reply = s.reply ∧ t.draws = s.draws ∧ ((∀ d, i ≠ .emitByteCrc d) → t.crcAcc = s.crcAcc)

theorem commandBody_hostSide {i : Instr} (hr : i ≠ .resetFrame) (s : State) :
    (commandBody i s).Keeps (HostSideKept i s) := by
  refine (commandBody_frame hr s).mono fun t h => ?_
  obtain ⟨_, _, _, hinbox, hreply, hdraws, hacc⟩ := h
  refine ⟨hinbox, hreply, hdraws, fun hi => ?_⟩
  cases i with
  | emitByteCrc d => exact absurd rfl (hi d)
  | resetFrame | emitByteNocrc | emitByteRaw | emitChecksum | finish => exact hacc

/-- Settles O43: what the micro-operations leave alone, fault entry leaves alone too but for its three fields. -/
theorem emitCommandsFrame : Obligations.EmitCommandsFrame := by
  intro i s t hr hf h
  obtain ⟨hb, hcur, hbuf, hones, hrem, hpack⟩ := exec_keeps (P := EmitFrame (KeepsOnes i s) s) (fun _ _ _ hu => hu)
    (EmitFrame.refl _ s) (commandBody_emitFrame hr hf s) h
  obtain ⟨hinbox, hreply, hdraws, hacc⟩ := exec_keeps (P := HostSideKept i s) (fun _ _ _ hu => hu)
    ⟨rfl, rfl, rfl, fun _ => rfl⟩ (commandBody_hostSide hr s) h
  exact ⟨hb, hinbox, hreply, hdraws, hcur, hbuf, hacc, hones, hrem, hpack, exec_completed_frame hr hf h⟩

/-! ### The checksum in two builds (41 R145) -/

/-- Of the build the checksum reads the table only (40 R101). -/
theorem crcStep_congr {b₁ b₂ : Build} (h : b₁.crcTable = b₂.crcTable) : crcStep b₁ = crcStep b₂ := by
  funext acc d
  simp only [crcStep, h]

/-- Settles O52: both runs fold the same bytes through the same table. -/
theorem checksumIsIndependentOfTheTransport : Obligations.ChecksumIsIndependentOfTheTransport := by
  intro is s₁ s₂ t₁ t₂ hreset htable hs₁ hs₂ hrun₁ hrun₂ ht₁ ht₂
  rw [checksumCoversExactlyTheCrcBytes is s₁ t₁ hreset hs₁ hrun₁ ht₁,
    checksumCoversExactlyTheCrcBytes is s₂ t₂ hreset hs₂ hrun₂ ht₂, crcStep_congr htable]

end Sys2Proof.Machine

namespace Sys2Proof.Machine

/-! ## The frame sequencer (42) -/

/-! ### The phase machine (42 R160) -/

/-- EMIT_BYTE_CRC and EMIT_CHECKSUM are legal in PAYLOAD only. -/
theorem payload_of_legal {i : Instr} {p : Phase} (hi : (∃ d, i = .emitByteCrc d) ∨ i = .emitChecksum)
    (h : legal i p = true) : p = .payload := by
  cases p with
  | payload => rfl
  | idle | trailer | done | faulted => rcases hi with ⟨d, rfl⟩ | rfl <;> cases h

/-- A command in a phase where it is not legal raises SEQUENCE_ERROR. -/
theorem exec_of_illegal {i : Instr} {s : State} (hs : s.phase ≠ .faulted) (hl : legal i s.phase = false) :
    exec i s = .next (faultEntry .sequenceError (encode i) s) := by
  rw [exec_eq, runCommand, if_neg hs, if_pos hl]

/-- Settles O19: in none of these phases is the command legal. -/
theorem illegalPhaseRaisesSequenceError : Obligations.IllegalPhaseRaisesSequenceError := by
  intro i s hs h
  refine exec_of_illegal hs (Bool.eq_false_iff.2 fun hl => ?_)
  rcases h with ⟨hi, hp⟩ | ⟨hi, hpayload, htrailer⟩ | ⟨rfl, hp⟩
  · exact hp (payload_of_legal hi hl)
  · have hne : i ≠ .resetFrame := by rcases hi with ⟨d, rfl⟩ | ⟨d, rfl⟩ <;> simp
    exact (open_of_legal hl hne).elim hpayload htrailer
  · exact hp (trailer_of_legal_finish hl)

/-- The phase after a command that completes in phase `p`. -/
def phaseAfter : Instr → Phase → Phase
  | .resetFrame, _ => .payload
  | .emitChecksum, _ => .trailer
  | .finish, _ => .done
  | _, p => p

theorem phaseAfter_emit {i : Instr} (hi : Instr.isEmit i = true) (p : Phase) : phaseAfter i p = p := by
  cases i with
  | emitByteCrc | emitByteNocrc | emitByteRaw => rfl
  | resetFrame | emitChecksum | finish => cases hi

theorem commandBody_phaseAfter {i : Instr} {s t : State} (h : commandBody i s = .completed t) :
    t.phase = phaseAfter i s.phase := by
  by_cases hi : Instr.isEmit i = true
  · rw [phaseAfter_emit hi]
    exact (commandBody_phase hi s).of_completed h
  · cases i with
    | resetFrame =>
      cases h
      rfl
    | emitChecksum =>
      obtain ⟨_, _, h⟩ := andThen_eq_completed.1 h
      obtain ⟨_, _, h⟩ := andThen_eq_completed.1 h
      cases h
      rfl
    | finish =>
      obtain ⟨_, _, h⟩ := andThen_eq_completed.1 h
      cases h
      rfl
    | emitByteCrc | emitByteNocrc | emitByteRaw => exact absurd rfl hi

/-- A command that does not end in FAULTED was legal, and moves the phase by `phaseAfter`. -/
theorem exec_phaseAfter {i : Instr} {s t : State} (h : exec i s = .next t) (ht : t.phase ≠ .faulted) :
    legal i s.phase = true ∧ t.phase = phaseAfter i s.phase := by
  obtain ⟨_, hl, hbody⟩ := exec_completed h ht
  exact ⟨hl, commandBody_phaseAfter hbody⟩

/-- Settles O20: the phases where each command is legal, and the phase after it. -/
theorem phaseChangesAsTheTableSays : Obligations.PhaseChangesAsTheTableSays := by
  intro i s t _ h ht
  obtain ⟨hl, hphase⟩ := exec_phaseAfter h ht
  refine ⟨?_, ?_, ?_, ?_, ?_⟩
  · rintro rfl
    exact hphase
  · rintro d rfl
    have hs := payload_of_legal (.inl ⟨d, rfl⟩) hl
    exact ⟨hs, hphase.trans hs⟩
  · rintro d (rfl | rfl) <;> exact ⟨open_of_legal hl nofun, hphase⟩
  · rintro rfl
    exact ⟨payload_of_legal (.inr rfl) hl, hphase⟩
  · rintro rfl
    exact ⟨trailer_of_legal_finish hl, hphase⟩

/-! ### The phase along a run (42 R164) -/

/-- The phase the table gives after a run of commands from phase `p`; none where it says SEQ. -/
def phaseRun : List Instr → Phase → Option Phase
  | [], p => some p
  | i :: is, p => if legal i p = true then phaseRun is (phaseAfter i p) else none

/-- A run that does not end in FAULTED moves the phase by the table. -/
theorem runCommands_phaseRun {is : List Instr} {s t : State} (h : runCommands is s = .next t)
    (ht : t.phase ≠ .faulted) : phaseRun is s.phase = some t.phase := by
  induction is generalizing s with
  | nil =>
    cases h
    rfl
  | cons i is ih =>
    obtain ⟨u, hu, hrun⟩ := runCommands_cons_eq_next.1 h
    have hfault : u.phase ≠ .faulted := by
      intro hf
      rw [runCommands_faulted is hf] at hrun
      cases hrun
      exact ht hf
    obtain ⟨hl, hphase⟩ := exec_phaseAfter hu hfault
    rw [phaseRun, if_pos hl, ← hphase]
    exact ih hrun

/-- Commands of `emits`, then `last`, then a rest with `Q`: the form of a frame and of its trailer. -/
def EmitsThen (emits : Instr → Bool) (last : Instr) (Q : List Instr → Prop) (is : List Instr) : Prop :=
  ∃ front rest, is = front ++ last :: rest ∧ front.all emits = true ∧ Q rest

theorem emitsThen_nil {emits : Instr → Bool} {last : Instr} {Q : List Instr → Prop} : ¬ EmitsThen emits last Q [] := by
  rintro ⟨front, rest, h, _⟩
  simp at h

theorem emitsThen_cons {emits : Instr → Bool} {last i : Instr} {Q : List Instr → Prop} {is : List Instr} :
    EmitsThen emits last Q (i :: is) ↔ (emits i = true ∧ EmitsThen emits last Q is) ∨ (i = last ∧ Q is) := by
  constructor
  · rintro ⟨_ | ⟨j, front⟩, rest, h, hall, hQ⟩ <;> obtain ⟨rfl, rfl⟩ := List.cons.inj h
    · exact .inr ⟨rfl, hQ⟩
    · obtain ⟨hi, hall⟩ := Bool.and_eq_true_iff.1 hall
      exact .inl ⟨hi, front, rest, rfl, hall, hQ⟩
  · rintro (⟨hi, front, rest, rfl, hall, hQ⟩ | ⟨rfl, hQ⟩)
    · exact ⟨i :: front, rest, rfl, Bool.and_eq_true_iff.2 ⟨hi, hall⟩, hQ⟩
    · exact ⟨[], is, rfl, rfl, hQ⟩

/-- The commands of a frame from its EMIT_CHECKSUM on, that one excluded. -/
def TrailerGrammar : List Instr → Prop := EmitsThen Instr.isTrailerEmit .finish (· = [])

theorem frameGrammar_iff (is : List Instr) :
    FrameGrammar is ↔ EmitsThen Instr.isEmit .emitChecksum TrailerGrammar is := by
  constructor
  · rintro ⟨payload, trailer, rfl, hp, ht⟩
    exact ⟨payload, _, rfl, hp, trailer, [], rfl, ht, rfl⟩
  · rintro ⟨payload, _, rfl, hp, trailer, _, rfl, ht, rfl⟩
    exact ⟨payload, trailer, rfl, hp, ht⟩

section
variable {is : List Instr}

/-- In DONE only RESET_FRAME is legal. -/
theorem phaseRun_done (h : .resetFrame ∉ is) : phaseRun is .done = some .done ↔ is = [] := by
  cases is with
  | nil => simp [phaseRun]
  | cons i is =>
    cases i with
    | resetFrame => simp at h
    | emitByteCrc | emitByteNocrc | emitByteRaw | emitChecksum | finish => simp [phaseRun, legal]

theorem phaseRun_trailer (h : .resetFrame ∉ is) : phaseRun is .trailer = some .done ↔ TrailerGrammar is := by
  induction is with
  | nil => exact iff_of_false (by simp [phaseRun]) emitsThen_nil
  | cons i is ih =>
    obtain ⟨hi, his⟩ := not_or.1 (mt List.mem_cons.2 h)
    rw [TrailerGrammar, emitsThen_cons, ← TrailerGrammar, ← ih his, ← phaseRun_done his]
    cases i with
    | resetFrame => exact absurd rfl hi
    | emitByteCrc | emitByteNocrc | emitByteRaw | emitChecksum | finish =>
      simp [phaseRun, legal, phaseAfter, Instr.isTrailerEmit]

theorem phaseRun_payload (h : .resetFrame ∉ is) : phaseRun is .payload = some .done ↔ FrameGrammar is := by
  rw [frameGrammar_iff]
  induction is with
  | nil => exact iff_of_false (by simp [phaseRun]) emitsThen_nil
  | cons i is ih =>
    obtain ⟨hi, his⟩ := not_or.1 (mt List.mem_cons.2 h)
    rw [emitsThen_cons, ← ih his, ← phaseRun_trailer his]
    cases i with
    | resetFrame => exact absurd rfl hi
    | emitByteCrc | emitByteNocrc | emitByteRaw | emitChecksum | finish =>
      simp [phaseRun, legal, phaseAfter, Instr.isEmit]

end

/-- Settles O58: without a fault the run follows the table, and from PAYLOAD the table leads to DONE by the grammar. -/
theorem doneExactlyByTheFrameGrammar : Obligations.DoneExactlyByTheFrameGrammar := by
  intro is s t hreset hs h
  by_cases ht : t.phase = .faulted
  · simp [ht]
  · have hrun := runCommands_phaseRun (runCommands_resetFrame hs h) ht
    rw [← phaseRun_payload hreset, ← startFrame_phase s, hrun, Option.some.injEq]
    exact (and_iff_left ht).symm

/-! ### Delivered commands and RESET_FRAME (42 R160, R161) -/

theorem deliver_of_decode {w : Word} {i : Instr} {s : State} (hs : s.phase ≠ .faulted) (hd : decode w = .ok i) :
    deliver w s = exec i s := by
  rw [deliver, if_neg hs, hd]

/-- Settles O7: the word taken is delivered, and decodes. -/
theorem stepRunsTheDeliveredCommand : Obligations.StepRunsTheDeliveredCommand := by
  intro s w rest i hin hs hd
  rw [step_write_cmd hin]
  exact deliver_of_decode (s := { s with inbox := rest }) hs hd

/-- The count of ones is cleared in the two transports that have one (10 R25). -/
theorem startFrame_ones_eq (s : State) : (startFrame s).ones = if s.build.transport = .escaped then s.ones else 0 := by
  rw [startFrame_ones]
  cases s.build.transport <;> rfl

/-- Settles O30: the frame-start values; FAULTED ignores the command; with DATA its word is none. -/
theorem resetFrameStartsAFrame : Obligations.ResetFrameStartsAFrame := by
  refine ⟨rfl, fun s hs => ?_, fun s hs => ?_, fun s w hs hop hdata => ?_⟩
  · rw [exec_resetFrame hs, ← startFrame_ones_eq]
    rfl
  · rw [exec_eq]
    exact if_pos hs
  · rcases deliver_cases w s with ⟨hp, _⟩ | ⟨_, _, he⟩ | ⟨_, i, hd, _⟩
    · exact absurd hp hs
    · exact he
    · exact absurd hd (decode_ne_ok_of_illegal (.inr (.inr ⟨.inl (by omega), hdata⟩)) i)

/-! ### EMIT_CHECKSUM that completes (42 R162) -/

/-- What follows a micro-operation matters only where that completes. -/
theorem andThen_congr {m : Micro} {k l : State → Micro} (h : ∀ u, m = .completed u → k u = l u) :
    m.andThen k = m.andThen l := by
  cases m with
  | completed u => exact h u rfl
  | raised c u => rfl
  | stopped f => rfl

section
variable {s t : State}

/-- Where NoCrcByte is a loop over parts of its byte, EMIT_CHECKSUM is the loop over the parts of both bytes. -/
theorem emitChecksumBody_eq {α : Type} {op : α → State → Micro} {parts : Byte → List α}
    (h : ∀ d u, u.build = s.build → noCrcByte d u = forEach op (parts d) u) :
    emitChecksumBody s =
      (forEach op (parts (checksumBytes s.build.crcOrder s.crcAcc).1 ++
        parts (checksumBytes s.build.crcOrder s.crcAcc).2) s).andThen fun u =>
          .completed { u with phase := .trailer } := by
  rw [emitChecksumBody, forEach_append, andThen_assoc, ← h _ s rfl]
  refine andThen_congr fun u hu => ?_
  obtain ⟨hb, _⟩ := (noCrcByte_sameOutside _ s).of_completed hu
  rw [h _ u hb]

theorem exec_emitChecksum {α : Type} {op : α → State → Micro} {parts : Byte → List α} (hp : s.phase = .payload)
    (h : ∀ d u, u.build = s.build → noCrcByte d u = forEach op (parts d) u)
    (ht : forEach op (parts (checksumBytes s.build.crcOrder s.crcAcc).1 ++
      parts (checksumBytes s.build.crcOrder s.crcAcc).2) s = .completed t) :
    exec .emitChecksum s = .next { t with phase := .trailer } := by
  have hbody : commandBody .emitChecksum s = .completed { t with phase := .trailer } := by
    rw [commandBody, emitChecksumBody_eq h, ht, andThen_completed]
  exact exec_of_completed (hp ▸ rfl) hbody

/-- In the stuffed transports EMIT_CHECKSUM completes where the encoder does over the stuffed stream. -/
theorem exec_emitChecksum_stuffed (hne : s.build.transport ≠ .escaped) (hp : s.phase = .payload)
    (hs : s.ones.toNat ≤ 4) (h : forEach pbeEmitBit (stuff s.ones.toNat (checksumBits s)) s = .completed t) :
    exec .emitChecksum s = .next { t with
      ones := BitVec.ofNat 3 (onesAfter s.ones.toNat (checksumBits s)), phase := .trailer } := by
  have hbytes (d : Byte) (u : State) (hu : u.build = s.build) :
      noCrcByte d u = forEach stuffedBit (msbFirst d) u := by
    have hne' : u.build.transport ≠ .escaped := hu ▸ hne
    rw [noCrcByte_eq_codeByte (absurd · hne'), codeByte_of_stuffed hne', stuffByte]
  exact exec_emitChecksum hp hbytes
    ((forEach_stuffedBit_eq_completed (checksumBits s) (Nat.lt_succ_of_le hs)).2 ⟨t, h, rfl⟩)

end

/-- Settles O34: the encoder over the stuffed stream of the two bytes. -/
theorem pulseChecksumCompletes : Obligations.PulseChecksumCompletes := by
  intro s ht hp hs stream hfits
  exact exec_emitChecksum_stuffed (by simp [ht]) hp hs (forEach_pbeEmitBit_pulse_completed ht hfits)

/-- Settles O35: the packer over its expansion. -/
theorem swtimedChecksumCompletes : Obligations.SwtimedChecksumCompletes := by
  intro s ht hp hs hpk stream hfits
  exact exec_emitChecksum_stuffed (by simp [ht]) hp hs (forEach_pbeEmitBit_swtimed_completed ht hpk hfits)

/-- Settles O36: the bytes of the one checksum byte and then of the other, appended. -/
theorem escapedChecksumCompletes : Obligations.EscapedChecksumCompletes := by
  intro s hi lo ht hp hhi hlo bytes hfits
  obtain rfl : hi = crcHi s.crcAcc := BitVec.eq_of_toNat_eq (hhi.trans (crcHi_toNat _).symm)
  obtain rfl : lo = crcLo s.crcAcc := BitVec.eq_of_toNat_eq (hlo.trans (crcLo_toNat _).symm)
  have hbytes : bytes = noCrcBytes s.build (checksumBytes s.build.crcOrder s.crcAcc).1 ++
      noCrcBytes s.build (checksumBytes s.build.crcOrder s.crcAcc).2 := by
    simp only [bytes]
    cases s.build.crcOrder <;> rfl
  refine exec_emitChecksum (op := appendByte) (parts := noCrcBytes s.build) hp (fun d u hu => ?_)
    (hbytes ▸ forEach_appendByte bytes s hfits)
  rw [noCrcByte_of_escaped (hu ▸ ht), hu]

/-! ### FINISH (42 R163) -/

section
variable {s t : State}

theorem pbeFinish_pulse (h : s.build.transport = .pulseStuffed) : pbeFinish s = pulseFinish s := by
  simp [pbeFinish, h]

theorem pbeFinish_swtimed (h : s.build.transport = .swtimedStuffed) : pbeFinish s = swPad 8 s := by
  simp [pbeFinish, swFinish, h]

theorem pbeFinish_escaped (h : s.build.transport = .escaped) : pbeFinish s = .completed s := by
  simp [pbeFinish, h]

/-- FINISH is PbeFinish, which does nothing in ESCAPED, and then phase DONE. -/
theorem finishBody_eq (s : State) :
    finishBody s = (pbeFinish s).andThen fun t => .completed { t with phase := .done } := by
  by_cases h : s.build.transport = .escaped
  · rw [finishBody, if_neg (not_not.2 h), pbeFinish_escaped h]
  · rw [finishBody, if_pos h]

theorem exec_finish (hp : s.phase = .trailer) (h : pbeFinish s = .completed t) :
    exec .finish s = .next { t with phase := .done } := by
  have hbody : commandBody .finish s = .completed { t with phase := .done } := by
    rw [commandBody, finishBody_eq, h, andThen_completed]
  exact exec_of_completed (hp ▸ rfl) hbody

theorem exec_finish_raised {c : Cause} (hp : s.phase = .trailer) (h : pbeFinish s = .raised c t) :
    exec .finish s = .next (faultEntry c (encode .finish) t) := by
  have hbody : commandBody .finish s = .raised c t := by
    rw [commandBody, finishBody_eq, h, andThen_raised]
  exact exec_raised (hp ▸ rfl) hbody

/-- PulseFinish where the last element has been written and has room for the unused time (40 R105). -/
theorem pulseFinish_completed {v : Word} (hc : s.cursor ≠ 0) (hv : Memory.read s.buf (s.cursor.toNat - 1) = some v)
    (hfit : v.toNat + s.rem.toNat < 65536) :
    pulseFinish s = .completed { s with buf := Memory.write s.buf (s.cursor.toNat - 1) (v + s.rem), rem := 0 } := by
  rw [pulseFinish, if_neg hc, hv]
  exact if_pos hfit

end

/-- Settles O37: PbeFinish in each transport. -/
theorem finishCompletes : Obligations.FinishCompletes := by
  intro s hp
  refine ⟨fun v ht hc hv hfit => ?_, fun ht h0 => ?_, fun ht h0 hc => ?_, fun ht => ?_⟩
  · have hsum : BitVec.ofNat 16 (v.toNat + s.rem.toNat) = v + s.rem := by simp [BitVec.ofNat_add]
    rw [hsum]
    exact exec_finish hp ((pbeFinish_pulse ht).trans (pulseFinish_completed hc hv hfit))
  · exact exec_finish hp ((pbeFinish_swtimed ht).trans (swPad_of_pkCount_zero 8 h0))
  · rcases swPad_cases 8 h0 (Nat.le_add_right _ _) with ⟨_, he⟩ | ⟨hfull, _⟩
    · exact exec_finish hp ((pbeFinish_swtimed ht).trans he)
    · exact absurd hc (Nat.not_lt.2 hfull)
  · exact exec_finish hp (pbeFinish_escaped ht)

/-- Settles O41: PulseFinish at cursor 0, and the padding of a full buffer. -/
theorem finishFaultsOnAnEmptyTrainOrAFullPad : Obligations.FinishFaultsOnAnEmptyTrainOrAFullPad := by
  intro s hp
  refine ⟨fun ht hc => ?_, fun ht h0 hfull => ?_⟩
  · exact exec_finish_raised hp ((pbeFinish_pulse ht).trans (if_pos hc))
  · rcases swPad_cases 8 h0 (Nat.le_add_right _ _) with ⟨hc, _⟩ | ⟨_, he⟩
    · exact absurd hfull hc.ne
    · exact exec_finish_raised hp ((pbeFinish_swtimed ht).trans he)

/-- What FINISH leaves alone of the datapath since `s`, in each transport (42 R163, 20 R51). -/
def FinishKept (s t : State) : Prop :=
  t.build = s.build ∧ t.ones = s.ones ∧
    (s.build.transport = .pulseStuffed →
      t.cursor = s.cursor ∧ t.pkByte = s.pkByte ∧ t.pkCount = s.pkCount ∧
      ∀ a, a ≠ s.cursor.toNat - 1 → Memory.read t.buf a = Memory.read s.buf a) ∧
    (s.build.transport = .swtimedStuffed →
      t.rem = s.rem ∧ s.cursor.toNat ≤ t.cursor.toNat ∧ t.cursor.toNat ≤ s.cursor.toNat + 1 ∧
      ∀ a, ¬(s.cursor.toNat ≤ a ∧ a < t.cursor.toNat) → Memory.read t.buf a = Memory.read s.buf a) ∧
    (s.build.transport = .escaped →
      t.cursor = s.cursor ∧ t.rem = s.rem ∧ t.pkByte = s.pkByte ∧ t.pkCount = s.pkCount ∧ t.buf = s.buf)

section
variable {s : State}

theorem FinishKept.refl (s : State) : FinishKept s s :=
  ⟨rfl, rfl, fun _ => ⟨rfl, rfl, rfl, fun _ _ => rfl⟩, fun _ => ⟨rfl, le_rfl, Nat.le_succ _, fun _ _ => rfl⟩,
    fun _ => ⟨rfl, rfl, rfl, rfl, rfl⟩⟩

/-- PulseFinish writes the last element and `rem` (40 R105). -/
theorem pulseFinish_kept (ht : s.build.transport = .pulseStuffed) : (pulseFinish s).Keeps (FinishKept s) := by
  rcases pulseFinish_cases s with ⟨_, he⟩ | ⟨_, _, he⟩ | ⟨_, v, _, _, he⟩ | ⟨_, v, _, _, he⟩ <;> rw [he]
  · exact FinishKept.refl s
  · trivial
  · trivial
  · exact ⟨rfl, rfl, fun _ => ⟨rfl, rfl, rfl, fun _ ha => Memory.read_write_other _ _ ha⟩, by simp [ht], by simp [ht]⟩

/-- SwFinish writes the packer, and one element at most (40 R109). -/
theorem swPad_kept (ht : s.build.transport = .swtimedStuffed) : (swPad 8 s).Keeps (FinishKept s) := by
  by_cases h0 : s.pkCount = 0
  · rw [swPad_of_pkCount_zero 8 h0]
    exact FinishKept.refl s
  · rcases swPad_cases 8 h0 (Nat.le_add_right _ _) with ⟨hc, he⟩ | ⟨_, he⟩ <;> rw [he]
    · obtain ⟨hb, hcur, hbuf, hones, hrem, _⟩ := ((EmitFrame.refl True s).append hc
        (byteElement (paddedByte s))).withPacker ht 0 0
      exact ⟨hb, hones trivial, by simp [ht], fun _ => ⟨hrem (by simp [ht]), hcur, (cursor_succ hc).le, hbuf⟩,
        by simp [ht]⟩
    · exact ⟨rfl, rfl, by simp [ht], fun _ => ⟨rfl, le_rfl, Nat.le_succ _, fun _ _ => rfl⟩, by simp [ht]⟩

theorem pbeFinish_kept (s : State) : (pbeFinish s).Keeps (FinishKept s) := by
  cases ht : s.build.transport with
  | pulseStuffed => exact (pbeFinish_pulse ht).symm ▸ pulseFinish_kept ht
  | swtimedStuffed => exact (pbeFinish_swtimed ht).symm ▸ swPad_kept ht
  | escaped => exact (pbeFinish_escaped ht).symm ▸ FinishKept.refl s

end

/-- Settles O44: what PbeFinish leaves alone, phase DONE and fault entry leave alone too. -/
theorem finishFrame : Obligations.FinishFrame := by
  intro s t h
  have hbody : (commandBody .finish s).Keeps (FinishKept s) := by
    rw [commandBody, finishBody_eq]
    exact (pbeFinish_kept s).andThen fun _ hu => hu
  obtain ⟨hb, hones, htransports⟩ := exec_keeps (P := FinishKept s) (fun _ _ _ hu => hu) (FinishKept.refl s) hbody h
  obtain ⟨hinbox, hreply, hdraws, hacc⟩ := exec_keeps (P := HostSideKept .finish s) (fun _ _ _ hu => hu)
    ⟨rfl, rfl, rfl, fun _ => rfl⟩ (commandBody_hostSide (i := .finish) nofun s) h
  refine ⟨hb, hinbox, hreply, hdraws, hacc nofun, hones, fun ht => ?_, htransports⟩
  obtain ⟨_, _, hcompleted⟩ := exec_completed h ht
  obtain ⟨_, hcause, hcmd, _⟩ := (commandBody_frame (i := .finish) nofun s).of_completed hcompleted
  exact ⟨hcause, hcmd⟩

end Sys2Proof.Machine

namespace Sys2Proof.Machine

/-! ## Exceptions (60) -/

/-! ### Quiescence in FAULTED (60 R204, R206, R207) -/

theorem deliver_faulted (w : Word) {s : State} (hs : s.phase = .faulted) : deliver w s = .next s := if_pos hs

/-- From FAULTED a step is power-on reset, or it writes none but the model's own fields. -/
theorem step_faulted {s t : State} (hs : s.phase = .faulted) (h : step s = .next t) :
    (∃ rest, s.inbox = .powerOnReset :: rest ∧ t = powerOnReset { s with inbox := rest }) ∨
    ∃ inbox reply draws, t = { s with inbox := inbox, reply := reply, draws := draws } := by
  rcases step_cases s with ⟨_, he⟩ | ⟨_, _, rest, _, _, he⟩ | ⟨w, rest, _, he⟩ | ⟨_, rest, _, he⟩ | ⟨i, rest, _, he⟩ |
    ⟨rest, hr, he⟩ <;> rw [he] at h
  · cases h
    exact .inr ⟨_, _, _, rfl⟩
  · cases h
    exact .inr ⟨_, _, _, rfl⟩
  · rw [deliver_faulted w (s := { s with inbox := rest }) hs] at h
    cases h
    exact .inr ⟨_, _, _, rfl⟩
  · cases h
    exact .inr ⟨_, _, _, rfl⟩
  · rcases readDataPort_cases i { s with inbox := rest } with ⟨_, _, v, _, hd⟩ | ⟨_, _, _, hd⟩ | ⟨_, hd⟩ <;>
      rw [hd] at h <;> cases h <;> exact .inr ⟨_, _, _, rfl⟩
  · cases h
    exact .inl ⟨rest, hr, rfl⟩

/-- Settles O8: there is no access to take. -/
theorem stepWithNothingDeliveredHolds : Obligations.StepWithNothingDeliveredHolds := by
  intro s h
  simp only [step, takeAccess, h]

/-- Settles O9: the word is taken and ignored; the two flags are read off the phase. -/
theorem faultedIgnoresEveryWord : Obligations.FaultedIgnoresEveryWord := by
  intro s w rest hin hs
  refine ⟨(step_write_cmd hin).trans (deliver_faulted w hs), ?_, ?_⟩
  · rw [status_fault, State.faultFlag, hs]
    rfl
  · rw [status_valid, State.validFlag, hs]
    rfl

/-- Settles O10: any step but power-on reset writes only the model's own fields. -/
theorem faultLastsUntilPowerOnReset : Obligations.FaultLastsUntilPowerOnReset := by
  intro s t hs h
  rcases step_faulted hs h with ⟨rest, hr, rfl⟩ | ⟨_, _, _, rfl⟩
  · exact .inl ⟨rest, hr, rfl, rfl, rfl⟩
  · exact .inr ⟨hs, rfl, rfl, rfl, rfl, rfl, rfl, rfl, rfl, rfl⟩

/-! ### Where emitting faults (60 R200, R201) -/

/-- `m` completes only in states with `P`, and raises `c` only in states with `R c`. -/
def Micro.Ends (P : State → Prop) (R : Cause → State → Prop) (m : Micro) : Prop :=
  match m with
  | .completed s => P s
  | .raised c s => R c s
  | .stopped _ => True

section
variable {P : State → Prop} {R : Cause → State → Prop}

theorem Micro.Ends.andThen {m : Micro} {k : State → Micro} (hm : m.Ends P R) (hk : ∀ s, P s → (k s).Ends P R) :
    (m.andThen k).Ends P R := by
  cases m with
  | completed s => exact hk s hm
  | raised c s => exact hm
  | stopped f => trivial

theorem ends_forEach {α : Type} {op : α → State → Micro} (h : ∀ v s, P s → (op v s).Ends P R) (vs : List α) {s : State}
    (hs : P s) : (forEach op vs s).Ends P R := by
  induction vs generalizing s with
  | nil => exact hs
  | cons v vs ih => exact (h v s hs).andThen fun _ ht => ih ht

theorem Micro.Ends.of_raised {m : Micro} {c : Cause} {t : State} (hm : m.Ends P R) (h : m = .raised c t) : R c t := by
  subst h
  exact hm

end

/-- The build is that of `s`, and the cursor has not passed CAP if it had not in `s` (10 R23). -/
def WithinCap (s t : State) : Prop :=
  t.build = s.build ∧ (s.cursor.toNat ≤ s.build.cap → t.cursor.toNat ≤ s.build.cap)

/-- The faults of emitting, from `s` on: no room, with every element of the buffer used, or no time in PULSE_STUFFED
(60 R200, R201). -/
def EmitFault (s : State) (c : Cause) (t : State) : Prop :=
  (c = .bufferOverflow ∧ (s.cursor.toNat ≤ s.build.cap → t.cursor.toNat = s.build.cap)) ∨
    (c = .periodExhausted ∧ s.build.transport = .pulseStuffed)

section
variable {s u : State}

theorem WithinCap.refl (s : State) : WithinCap s s := ⟨rfl, id⟩

theorem WithinCap.append (h : WithinCap s u) (hc : u.cursor.toNat < u.build.cap) (v : Word) :
    WithinCap s { u with buf := Memory.write u.buf u.cursor.toNat v, cursor := u.cursor + 1 } := by
  obtain ⟨hb, _⟩ := h
  exact ⟨hb, fun _ => (cursor_succ hc).trans_le (hb ▸ hc)⟩

theorem WithinCap.overflow (h : WithinCap s u) (hc : u.build.cap ≤ u.cursor.toNat) :
    EmitFault s .bufferOverflow u := by
  obtain ⟨hb, hle⟩ := h
  exact .inl ⟨rfl, fun h0 => le_antisymm (hle h0) (hb ▸ hc)⟩

theorem append_ends (v : Word) (h : WithinCap s u) : (append v u).Ends (WithinCap s) (EmitFault s) := by
  rcases append_cases v u with ⟨hc, he⟩ | ⟨hc, he⟩ <;> rw [he]
  · exact h.overflow hc
  · exact h.append hc v

theorem pulseEmitBit_ends (ht : s.build.transport = .pulseStuffed) (v : Bool) (h : WithinCap s u) :
    (pulseEmitBit v u).Ends (WithinCap s) (EmitFault s) := by
  refine (append_ends _ h).andThen fun w hw => ?_
  split
  · exact .inr ⟨rfl, ht⟩
  · exact hw

theorem swPack_ends (p : Bool) (h : WithinCap s u) : (swPack p u).Ends (WithinCap s) (EmitFault s) := by
  rcases swPack_cases p u with ⟨_, he⟩ | ⟨_, hc, he⟩ | ⟨_, hc, he⟩ <;> rw [he]
  · exact h
  · exact h.overflow hc
  · exact h.append hc (byteElement (packedByte p u))

theorem pbeEmitBit_ends (v : Bool) (h : WithinCap s u) : (pbeEmitBit v u).Ends (WithinCap s) (EmitFault s) := by
  have hb : u.build = s.build := h.1
  unfold pbeEmitBit
  split
  · next ht => exact pulseEmitBit_ends (hb ▸ ht) v h
  · exact ends_forEach (fun p _ => swPack_ends p) _ h
  · exact h

theorem stuffedBit_ends (v : Bool) (h : WithinCap s u) : (stuffedBit v u).Ends (WithinCap s) (EmitFault s) := by
  refine (pbeEmitBit_ends v h).andThen fun w hw => ?_
  split_ifs
  · exact (pbeEmitBit_ends false hw).andThen fun _ hx => hx
  · exact hw
  · exact hw

theorem appendBytes_ends (bytes : List Byte) (h : WithinCap s u) :
    (forEach appendByte bytes u).Ends (WithinCap s) (EmitFault s) :=
  ends_forEach (fun d _ => append_ends (byteElement d)) bytes h

theorem stuffByte_ends (d : Byte) (h : WithinCap s u) : (stuffByte d u).Ends (WithinCap s) (EmitFault s) :=
  ends_forEach (fun v _ => stuffedBit_ends v) _ h

theorem codeByte_ends (d : Byte) (h : WithinCap s u) : (codeByte d u).Ends (WithinCap s) (EmitFault s) := by
  by_cases ht : u.build.transport = .escaped
  · rw [codeByte_of_escaped ht]
    exact appendBytes_ends _ h
  · rw [codeByte_of_stuffed ht]
    exact stuffByte_ends d h

theorem noCrcByte_ends (d : Byte) (h : WithinCap s u) : (noCrcByte d u).Ends (WithinCap s) (EmitFault s) := by
  rcases noCrcByte_cases d u with ⟨_, he⟩ | ⟨_, he⟩ <;> rw [he]
  · exact appendBytes_ends _ h
  · exact stuffByte_ends d h

theorem emitByteRawBody_ends (d : Byte) (h : WithinCap s u) :
    (emitByteRawBody d u).Ends (WithinCap s) (EmitFault s) := by
  by_cases ht : u.build.transport = .escaped
  · rw [emitByteRawBody_of_escaped ht]
    exact appendBytes_ends _ h
  · rw [emitByteRawBody_of_stuffed ht]
    exact ends_forEach (fun v _ => pbeEmitBit_ends v) _ h

/-- Every command but FINISH faults as emitting does. -/
theorem commandBody_ends {i : Instr} (hf : i ≠ .finish) (s : State) :
    (commandBody i s).Ends (WithinCap s) (EmitFault s) := by
  have hrefl := WithinCap.refl s
  cases i with
  | resetFrame => exact ⟨rfl, fun _ => Nat.zero_le _⟩
  | emitByteCrc d => exact codeByte_ends (u := crcUpdate d s) d hrefl
  | emitByteNocrc d => exact noCrcByte_ends d hrefl
  | emitByteRaw d => exact emitByteRawBody_ends d hrefl
  | emitChecksum =>
    exact (noCrcByte_ends _ hrefl).andThen fun _ h1 => (noCrcByte_ends _ h1).andThen fun _ h2 => h2
  | finish => exact absurd rfl hf

end

/-! ### The faults of each command (60 R201, R205) -/

/-- FINISH finds an empty pulse train, or no room for the padded byte (40 R105, R109). -/
theorem finishBody_raised {s t : State} {c : Cause} (h : finishBody s = .raised c t) :
    (c = .finishEmpty ∧ s.build.transport = .pulseStuffed) ∨
    (c = .bufferOverflow ∧ s.build.transport = .swtimedStuffed ∧
      (s.cursor.toNat ≤ s.build.cap → t.cursor.toNat = s.build.cap)) := by
  rw [finishBody_eq] at h
  have hpbe : pbeFinish s = .raised c t := by simpa [andThen_eq_raised] using h
  cases ht : s.build.transport with
  | pulseStuffed =>
    rw [pbeFinish_pulse ht] at hpbe
    rcases pulseFinish_cases s with ⟨_, he⟩ | ⟨_, _, he⟩ | ⟨_, v, _, _, he⟩ | ⟨_, v, _, _, he⟩ <;> rw [he] at hpbe <;>
      cases hpbe
    exact .inl ⟨rfl, rfl⟩
  | swtimedStuffed =>
    rw [pbeFinish_swtimed ht] at hpbe
    by_cases h0 : s.pkCount = 0
    · rw [swPad_of_pkCount_zero 8 h0] at hpbe
      cases hpbe
    · rcases swPad_cases 8 h0 (Nat.le_add_right _ _) with ⟨_, he⟩ | ⟨hfull, he⟩ <;> rw [he] at hpbe <;> cases hpbe
      exact .inr ⟨rfl, rfl, fun hle => le_antisymm hle hfull⟩
  | escaped =>
    rw [pbeFinish_escaped ht] at hpbe
    cases hpbe

/-- The faults of `i` from `s` as 60 R201 lists them, SEQUENCE_ERROR apart; BUFFER_OVERFLOW with every element of the buffer
used (60 R200). -/
def ListedFault (i : Instr) (s : State) (c : Cause) (t : State) : Prop :=
  (c = .bufferOverflow ∧ (i = .finish → s.build.transport = .swtimedStuffed) ∧
      (s.cursor.toNat ≤ s.build.cap → t.cursor.toNat = s.build.cap)) ∨
    (c = .periodExhausted ∧ i ≠ .finish ∧ s.build.transport = .pulseStuffed) ∨
    (c = .finishEmpty ∧ i = .finish ∧ s.build.transport = .pulseStuffed)

theorem commandBody_raised {i : Instr} {s t : State} {c : Cause} (h : commandBody i s = .raised c t) :
    ListedFault i s c t := by
  by_cases hf : i = .finish
  · subst hf
    rcases finishBody_raised h with ⟨hc, ht⟩ | ⟨hc, ht, hfull⟩
    · exact .inr (.inr ⟨hc, rfl, ht⟩)
    · exact .inl ⟨hc, fun _ => ht, hfull⟩
  · rcases (commandBody_ends hf s).of_raised h with ⟨hc, hfull⟩ | ⟨hc, ht⟩
    · exact .inl ⟨hc, (absurd · hf), hfull⟩
    · exact .inr (.inl ⟨hc, hf, ht⟩)

theorem phaseAfter_ne_faulted (i : Instr) {p : Phase} (h : p ≠ .faulted) : phaseAfter i p ≠ .faulted := by
  cases i with
  | resetFrame | emitChecksum | finish => exact nofun
  | emitByteCrc | emitByteNocrc | emitByteRaw => exact h

/-- A command that ends in FAULTED has entered a fault of its own: SEQUENCE_ERROR, or one its micro-operations raised
(42 R160, 60 R205). -/
theorem exec_faulted {i : Instr} {s t : State} (hs : s.phase ≠ .faulted) (h : exec i s = .next t)
    (ht : t.phase = .faulted) :
    ∃ c u, t = faultEntry c (encode i) u ∧
      ((legal i s.phase = false ∧ c = .sequenceError) ∨ commandBody i s = .raised c u) := by
  rw [exec_eq] at h
  rcases runCommand_cases i (commandBody i) s with ⟨hp, _⟩ | ⟨_, hl, he⟩ | ⟨_, _, he⟩
  · exact absurd hp hs
  · cases he.symm.trans h
    exact ⟨_, _, rfl, .inl ⟨hl, rfl⟩⟩
  · rcases settle_eq_next.1 (he.symm.trans h) with hm | ⟨c, u, hm, rfl⟩
    · exact absurd (commandBody_phaseAfter hm ▸ ht) (phaseAfter_ne_faulted i hs)
    · exact ⟨c, u, rfl, .inr hm⟩

/-- The causes a faulted command can have recorded. -/
theorem exec_faulted_cause {i : Instr} {s t : State} (hs : s.phase ≠ .faulted) (h : exec i s = .next t)
    (ht : t.phase = .faulted) : t.cause = .sequenceError ∨ ListedFault i s t.cause t := by
  obtain ⟨c, u, rfl, ⟨_, rfl⟩ | hm⟩ := exec_faulted hs h ht
  · exact .inl rfl
  · have hlisted : ListedFault i s c u := commandBody_raised hm
    exact .inr hlisted

/-- Settles O21: fault entry records the word, and every listed cause is a fault. -/
theorem faultEntryRecordsWordAndCause : Obligations.FaultEntryRecordsWordAndCause := by
  intro i s t hs h ht
  constructor
  · obtain ⟨_, _, rfl, _⟩ := exec_faulted hs h ht
    rfl
  · rcases exec_faulted_cause hs h ht with hc | ⟨hc, _⟩ | ⟨hc, _⟩ | ⟨hc, _⟩ <;> simp [hc]

/-- Settles O22: RESET_FRAME goes on to PAYLOAD, and the other commands raise what is listed. -/
theorem faultsByCommandAndTransport : Obligations.FaultsByCommandAndTransport := by
  intro i s t hs h ht
  refine ⟨?_, (exec_faulted_cause hs h ht).imp_right (Or.imp_left fun ⟨hc, hfinish, _⟩ => ⟨hc, hfinish⟩)⟩
  rintro rfl
  cases (exec_resetFrame hs).symm.trans h
  cases ht

/-- Settles O23: of the listed faults BUFFER_OVERFLOW comes with every element used. -/
theorem overflowLeavesTheBufferFull : Obligations.OverflowLeavesTheBufferFull := by
  intro i s t hcap hs h ht hcause
  rcases exec_faulted_cause hs h ht with hc | ⟨_, _, hfull⟩ | ⟨hc, _⟩ | ⟨hc, _⟩
  · simp [hcause] at hc
  · exact hfull hcap
  · simp [hcause] at hc
  · simp [hcause] at hc

end Sys2Proof.Machine

namespace Sys2Proof.Machine

/-! ## Reset and sizing (70) -/

/-- Settles O11: the step leaves the power-on state of the build, but for the model's own fields. -/
theorem powerOnResetLeavesIdle : Obligations.PowerOnResetLeavesIdle := by
  intro s rest h
  have hstep : step s = .next (powerOnReset { s with inbox := rest }) := by
    simp only [step, takeAccess, h]
    rfl
  exact ⟨_, hstep, rfl, rfl, rfl, rfl, rfl, rfl, powerOn_status s.build, rfl, rfl, rfl⟩

/-! ### Runs that never record a cause -/

/-- Any cause but `c`. -/
def NotCause (c : Cause) : Cause → State → Prop := fun d _ => d ≠ c

section
variable {P Q : State → Prop} {R : Cause → State → Prop}

theorem Micro.Ends.bind {m : Micro} {k : State → Micro} (hm : m.Ends P R) (hk : ∀ s, P s → (k s).Ends Q R) :
    (m.andThen k).Ends Q R := by
  cases m with
  | completed s => exact hk s hm
  | raised c s => exact hm
  | stopped f => trivial

theorem Micro.Ends.mono {m : Micro} (hm : m.Ends P R) (h : ∀ s, P s → Q s) : m.Ends Q R := by
  cases m with
  | completed s => exact h s hm
  | raised c s => exact hm
  | stopped f => trivial

theorem Micro.Ends.of_completed {m : Micro} {t : State} (hm : m.Ends P R) (h : m = .completed t) : P t := by
  subst h
  exact hm

/-- A loop whose every turn takes one from the count ends with its number of turns taken. -/
theorem ends_forEach_countdown {α : Type} {P : Nat → State → Prop} {op : α → State → Micro}
    (h : ∀ n v s, P (n + 1) s → (op v s).Ends (P n) R) (vs : List α) {n : Nat} {s : State} (hs : P (n + vs.length) s) :
    (forEach op vs s).Ends (P n) R := by
  induction vs generalizing s with
  | nil => exact hs
  | cons v vs ih => exact (h _ v s hs).bind fun _ ht => ih ht

end

/-- Where `P` leads from each legal command to the next and none of them raises `c`, a run never records `c`. -/
theorem runCommands_ne_cause {P : List Instr → State → Prop} {c : Cause} (hc : c ≠ .sequenceError)
    (hstep : ∀ i is u, P (i :: is) u → legal i u.phase = true → (commandBody i u).Ends (P is) (NotCause c))
    {is : List Instr} {s t : State} (hP : P is s) (hs : s.phase ≠ .faulted) (h : runCommands is s = .next t) :
    ¬(t.phase = .faulted ∧ t.cause = c) := by
  rintro ⟨ht, rfl⟩
  induction is generalizing s with
  | nil =>
    cases h
    exact hs ht
  | cons i is ih =>
    obtain ⟨u, hu, hrun⟩ := runCommands_cons_eq_next.1 h
    by_cases hl : legal i s.phase = true
    · rw [exec_of_legal hl] at hu
      rcases settle_eq_next.1 hu with hbody | ⟨d, v, hraised, rfl⟩
      · exact ih ((hstep i is s hP hl).of_completed hbody)
          (commandBody_phaseAfter hbody ▸ phaseAfter_ne_faulted i hs) hrun
      · cases (runCommands_faulted is rfl).symm.trans hrun
        exact (hstep i is s hP hl).of_raised hraised rfl
    · cases (exec_of_illegal hs (Bool.eq_false_iff.2 hl)).symm.trans hu
      cases (runCommands_faulted is rfl).symm.trans hrun
      exact hc rfl

/-! ### What a stuffed frame uses up (70 R238, R239) -/

/-- A resource of the block of build `b` that its encoder uses up, in the stuffed transports, and without which an
emission raises `c`. -/
structure Supply (b : Build) (c : Cause) where
  /-- At least so many units are left. -/
  has : Nat → State → Prop
  /-- What a 1 costs. -/
  one : Nat
  /-- What a 0 costs, a stuffed one too. -/
  zero : Nat
  zero_le_one : zero ≤ one
  stuffed {n : Nat} {s : State} : has n s → s.build.transport ≠ .escaped
  mono {m n : Nat} {s : State} : m ≤ n → has n s → has m s
  /-- The count of ones, the accumulator and the phase have no part in it. -/
  frame {n : Nat} {s : State} (ones : BitVec 3) (crcAcc : Word) (phase : Phase) :
    has n s → has n { s with ones := ones, crcAcc := crcAcc, phase := phase }
  emit {n : Nat} {s : State} (v : Bool) :
    has (n + if v then one else zero) s → (pbeEmitBit v s).Ends (has n) (NotCause c)
  finish {n : Nat} {s : State} : has n s → (pbeFinish s).Ends (fun _ => True) (NotCause c)

section
variable {b : Build} {c : Cause} {k r : Nat} {s : State}

/-- Enough is left for `k` bits through the stuffer and `r` raw bits, whatever they are: the stuffer adds a 0 for every
five of its bits and of the ones it has counted. -/
def Supply.Covers (S : Supply b c) (k r : Nat) (s : State) : Prop :=
  S.has (S.one * (k + r) + S.zero * ((k + s.ones.toNat) / 5)) s

variable (S : Supply b c)

/-- A bit costs a 1 at most, and leaves the count of ones alone (40 R110). -/
theorem Supply.emit_covers {m q : Nat} (v : Bool) (h : S.has (S.one * (m + 1) + q) s) :
    (pbeEmitBit v s).Ends (fun t => S.has (S.one * m + q) t ∧ t.ones = s.ones) (NotCause c) := by
  have hcost : (if v then S.one else S.zero) ≤ S.one := by
    cases v
    · exact S.zero_le_one
    · exact le_rfl
  have hemit := S.emit v (n := S.one * m + q) (S.mono (by rw [Nat.mul_succ]; omega) h)
  cases hm : pbeEmitBit v s with
  | completed t => exact ⟨hemit.of_completed hm, (pbeEmitBit_ignoresOnes v).ones hm⟩
  | raised d t => exact hemit.of_raised hm
  | stopped f => trivial

/-- A raw bit does not count as a one (40 R112). -/
theorem Supply.pbeEmitBit_covers (v : Bool) (h : S.Covers k (r + 1) s) :
    (pbeEmitBit v s).Ends (S.Covers k r) (NotCause c) := by
  refine (S.emit_covers v h).mono fun t ⟨ht, hones⟩ => ?_
  rw [Supply.Covers, hones]
  exact ht

/-- After a bit that completes no five ones, the count is one more at most. -/
theorem Supply.covers_withOnes {n : BitVec 3} (hn : n.toNat ≤ s.ones.toNat + 1)
    (h : S.has (S.one * (k + r) + S.zero * ((k + 1 + s.ones.toNat) / 5)) s) : S.Covers k r { s with ones := n } := by
  have hdiv : (k + n.toNat) / 5 ≤ (k + 1 + s.ones.toNat) / 5 := Nat.div_le_div_right (by omega)
  exact S.frame n s.crcAcc s.phase (S.mono (Nat.add_le_add_left (Nat.mul_le_mul_left _ hdiv) _) h)

/-- A bit through the stuffer is paid for, with the stuffed 0 where it completes five ones (40 R111). -/
theorem Supply.stuffedBit_covers (v : Bool) (h : S.Covers (k + 1) r s) :
    (stuffedBit v s).Ends (S.Covers k r) (NotCause c) := by
  rw [Supply.Covers, Nat.add_right_comm k 1 r] at h
  have hbit (w : Bool) := S.emit_covers w h
  cases v with
  | false =>
    rw [stuffedBit_false]
    refine (hbit false).bind fun t ⟨ht, hones⟩ => ?_
    rw [← hones] at ht
    exact S.covers_withOnes (Nat.zero_le _) ht
  | true =>
    rw [stuffedBit_true]
    refine (hbit true).bind fun t ⟨ht, hones⟩ => ?_
    rw [← hones] at ht
    by_cases h4 : t.ones.toNat = 4
    · have hdiv : (k + 1 + t.ones.toNat) / 5 = k / 5 + 1 := by omega
      rw [hdiv, Nat.mul_succ, ← Nat.add_assoc] at ht
      rw [if_pos h4]
      exact (S.emit false ht).bind fun u hu => S.frame 0 u.crcAcc u.phase hu
    · rw [if_neg h4]
      exact S.covers_withOnes (by rw [BitVec.toNat_add]; exact Nat.mod_le _ _) ht

theorem Supply.stuffByte_covers (d : Byte) (h : S.Covers (k + 8) r s) :
    (stuffByte d s).Ends (S.Covers k r) (NotCause c) :=
  ends_forEach_countdown (P := fun n => S.Covers n r) (fun _ v _ => S.stuffedBit_covers v) (msbFirst d) h

theorem Supply.rawByte_covers (d : Byte) (h : S.Covers k (r + 8) s) :
    (rawByte d s).Ends (S.Covers k r) (NotCause c) :=
  ends_forEach_countdown (P := S.Covers k) (fun _ v _ => S.pbeEmitBit_covers v) (msbFirst d) h

theorem Supply.noCrcByte_covers (d : Byte) (h : S.Covers (k + 8) r s) :
    (noCrcByte d s).Ends (S.Covers k r) (NotCause c) := by
  rw [noCrcByte_eq_codeByte (absurd · (S.stuffed h)), codeByte_of_stuffed (S.stuffed h)]
  exact S.stuffByte_covers d h

/-- Enough is left for the commands `is`, or the frame is finished and they are all out of place. -/
def Supply.CoversCommands (S : Supply b c) (is : List Instr) (s : State) : Prop :=
  .resetFrame ∉ is ∧ (s.phase ≠ .done → S.Covers (8 * stuffedCount is) (8 * rawCount is) s)

/-- Every legal command takes what 70 R238 and R239 count for it. -/
theorem Supply.commandBody_covers {i : Instr} {is : List Instr} (h : S.CoversCommands (i :: is) s)
    (hl : legal i s.phase = true) : (commandBody i s).Ends (S.CoversCommands is) (NotCause c) := by
  obtain ⟨hreset, hcovers⟩ := h
  obtain ⟨hi, his⟩ := not_or.1 (mt List.mem_cons.2 hreset)
  have hopen := open_of_legal hl (Ne.symm hi)
  have h := hcovers (by rcases hopen with hp | hp <;> simp [hp])
  have hto {m : Micro} (hm : m.Ends (S.Covers (8 * stuffedCount is) (8 * rawCount is)) (NotCause c)) :
      m.Ends (S.CoversCommands is) (NotCause c) :=
    hm.mono fun _ ht => ⟨his, fun _ => ht⟩
  cases i with
  | resetFrame => exact absurd rfl hi
  | emitByteCrc d =>
    rw [commandBody, emitByteCrcBody_eq_codeByte, codeByte_of_stuffed (s := crcUpdate d s) (S.stuffed (s := s) h)]
    exact hto (S.stuffByte_covers d (s := crcUpdate d s) (S.frame s.ones _ s.phase h))
  | emitByteNocrc d => exact hto (S.noCrcByte_covers d h)
  | emitByteRaw d =>
    rw [commandBody, emitByteRawBody_of_stuffed (S.stuffed h)]
    exact hto (S.rawByte_covers d h)
  | emitChecksum =>
    exact hto ((S.noCrcByte_covers _ h).bind fun _ h1 => (S.noCrcByte_covers _ h1).bind fun u hu =>
      S.frame u.ones u.crcAcc .trailer hu)
  | finish =>
    rw [commandBody, finishBody_eq]
    exact (S.finish h).bind fun _ _ => ⟨his, absurd rfl⟩

/-- A run whose worst case the started frame covers never records `c`. -/
theorem Supply.run_ne_cause (hc : c ≠ .sequenceError) {is : List Instr} {t : State} (hreset : .resetFrame ∉ is)
    (hs : s.phase ≠ .faulted)
    (h : S.has (S.one * (8 * stuffedCount is + 8 * rawCount is) + S.zero * (8 * stuffedCount is / 5)) (startFrame s))
    (hrun : runCommands (.resetFrame :: is) s = .next t) : ¬(t.phase = .faulted ∧ t.cause = c) := by
  have hones : (startFrame s).ones = 0 := (startFrame_ones_eq s).trans (if_neg (S.stuffed h))
  have hcovers : S.Covers (8 * stuffedCount is) (8 * rawCount is) (startFrame s) := by
    rw [Supply.Covers, hones]
    exact h
  exact runCommands_ne_cause hc (fun _ _ _ => S.commandBody_covers) ⟨hreset, fun _ => hcovers⟩ nofun
    (runCommands_resetFrame hs hrun)

end

/-! ### The resources of the stuffed transports -/

/-- The block of build `b` has room for `n` more elements. -/
def HasRoom (b : Build) (n : Nat) (s : State) : Prop := s.build = b ∧ s.cursor.toNat + n ≤ b.cap

/-- It has room for `n` more physical bits. -/
def HasPhysicalRoom (b : Build) (n : Nat) (s : State) : Prop := s.build = b ∧ s.physicalCount + n ≤ 8 * b.cap

/-- It has more than `n` duration units left. -/
def HasTime (b : Build) (n : Nat) (s : State) : Prop := s.build = b ∧ n < s.rem.toNat

section
variable {b : Build} {n : Nat} {s : State}

/-- A pulse that finds room takes one element, if it finds time (40 R104). -/
theorem pulseEmitBit_room (v : Bool) (h : HasRoom b (n + 1) s) :
    (pulseEmitBit v s).Ends (HasRoom b n) (NotCause .bufferOverflow) := by
  obtain ⟨rfl, hroom⟩ := h
  rcases pulseEmitBit_cases v s with ⟨hc, _⟩ | ⟨_, _, he⟩ | ⟨hc, _, he⟩
  · omega
  · rw [he]
    exact nofun
  · have hcur := cursor_succ hc
    rw [he]
    refine ⟨rfl, ?_⟩
    show (s.cursor + 1).toNat + n ≤ s.build.cap
    omega

/-- A pulse that finds time takes its duration and the gap, if it finds room (40 R104). -/
theorem pulseEmitBit_time (v : Bool) (h : HasTime b (n + (pulseDuration b v + gap)) s) :
    (pulseEmitBit v s).Ends (HasTime b n) (NotCause .periodExhausted) := by
  obtain ⟨rfl, htime⟩ := h
  have hlt := s.rem.isLt
  rcases pulseEmitBit_cases v s with ⟨_, he⟩ | ⟨_, hr, _⟩ | ⟨_, _, he⟩
  · rw [he]
    exact nofun
  · omega
  · rw [he]
    refine ⟨rfl, ?_⟩
    show n < (BitVec.ofNat 16 (s.rem.toNat - (pulseDuration s.build v + gap))).toNat
    rw [BitVec.toNat_ofNat, Nat.mod_eq_of_lt (by omega)]
    omega

/-- A physical bit that finds room is packed (40 R107). -/
theorem swPack_room (p : Bool) (h : HasPhysicalRoom b (n + 1) s) :
    (swPack p s).Ends (HasPhysicalRoom b n) (NotCause .bufferOverflow) := by
  obtain ⟨rfl, hroom⟩ := h
  cases hm : swPack p s with
  | completed t =>
    obtain ⟨hb, _⟩ := (swPack_sameOutside p s).of_completed hm
    have hcount := (swPack_physicalCount p s).of_completed hm
    exact ⟨hb, by omega⟩
  | raised d t =>
    rcases swPack_cases p s with ⟨_, he⟩ | ⟨h7, hc, _⟩ | ⟨_, _, he⟩
    · cases he.symm.trans hm
    · have hcount7 : s.pkCount.toNat = 7 := congrArg BitVec.toNat h7
      rw [State.physicalCount] at hroom
      omega
    · cases he.symm.trans hm
  | stopped f => trivial

/-- PulseFinish raises FINISH_EMPTY only (40 R105). -/
theorem pulseFinish_ne_cause {c : Cause} (hc : c ≠ .finishEmpty) :
    (pulseFinish s).Ends (fun _ => True) (NotCause c) := by
  rcases pulseFinish_cases s with ⟨_, he⟩ | ⟨_, _, he⟩ | ⟨_, v, _, _, he⟩ | ⟨_, v, _, _, he⟩ <;> rw [he]
  · exact hc.symm
  · trivial
  · trivial
  · trivial

/-- SwFinish overflows only where the buffer is full and bits wait in the packer (40 R109). -/
theorem swPad_ne_overflow (h : HasPhysicalRoom b n s) :
    (swPad 8 s).Ends (fun _ => True) (NotCause .bufferOverflow) := by
  obtain ⟨rfl, hroom⟩ := h
  by_cases h0 : s.pkCount = 0
  · rw [swPad_of_pkCount_zero 8 h0]
    trivial
  · rcases swPad_cases 8 h0 (Nat.le_add_right _ _) with ⟨_, he⟩ | ⟨hfull, _⟩
    · rw [he]
      trivial
    · have hwait : s.pkCount.toNat ≠ 0 := fun hz => h0 (BitVec.eq_of_toNat_eq hz)
      rw [State.physicalCount] at hroom
      omega

end

section
variable {b : Build}

/-- In PULSE_STUFFED every bit takes an element of the buffer (41 R144). -/
def pulseElements (ht : b.transport = .pulseStuffed) : Supply b .bufferOverflow where
  has := HasRoom b
  one := 1
  zero := 1
  zero_le_one := le_rfl
  stuffed := fun ⟨hb, _⟩ => by simp [hb, ht]
  mono := fun hle ⟨hb, h⟩ => ⟨hb, by omega⟩
  frame := fun _ _ _ h => h
  emit := fun v h => by
    rw [pbeEmitBit_pulse (h.1 ▸ ht)]
    exact pulseEmitBit_room v (ite_self (c := v = true) 1 ▸ h)
  finish := fun ⟨hb, _⟩ => by
    rw [pbeFinish_pulse (hb ▸ ht)]
    exact pulseFinish_ne_cause nofun

/-- And its duration and a gap of the period (40 R104). -/
def pulseTime (ht : b.transport = .pulseStuffed) (hd : b.durShort ≤ b.durLong) : Supply b .periodExhausted where
  has := HasTime b
  one := b.durLong.val + gap
  zero := b.durShort.val + gap
  zero_le_one := Nat.add_le_add_right hd gap
  stuffed := fun ⟨hb, _⟩ => by simp [hb, ht]
  mono := fun hle ⟨hb, h⟩ => ⟨hb, by omega⟩
  frame := fun _ _ _ h => h
  emit := fun v h => by
    rw [pbeEmitBit_pulse (h.1 ▸ ht)]
    cases v <;> exact pulseEmitBit_time _ h
  finish := fun ⟨hb, _⟩ => by
    rw [pbeFinish_pulse (hb ▸ ht)]
    exact pulseFinish_ne_cause nofun

/-- In SWTIMED_STUFFED a bit takes two or three of the physical bits the buffer has room for (40 R108). -/
def swtimedElements (ht : b.transport = .swtimedStuffed) : Supply b .bufferOverflow where
  has := HasPhysicalRoom b
  one := 3
  zero := 2
  zero_le_one := by decide
  stuffed := fun ⟨hb, _⟩ => by simp [hb, ht]
  mono := fun hle ⟨hb, h⟩ => ⟨hb, by omega⟩
  frame := fun _ _ _ h => h
  emit := fun v h => by
    rw [pbeEmitBit_swtimed (h.1 ▸ ht)]
    refine ends_forEach_countdown (P := HasPhysicalRoom b) (fun _ p _ => swPack_room p) (physicalBits v) ?_
    cases v <;> exact h
  finish := fun h => by
    rw [pbeFinish_swtimed (h.1 ▸ ht)]
    exact swPad_ne_overflow h

end

/-- Settles O60: the period of the started frame covers the worst case. -/
theorem sizedFramesNeverExhaustThePeriod : Obligations.SizedFramesNeverExhaustThePeriod := by
  intro is s t hreset hs ht hd hsize hrun
  have hhp := build_halfPeriod_le s.build
  have hrem : (startFrame s).rem.toNat = s.build.halfPeriod := by
    rw [startFrame_rem, if_pos ht]
    exact Nat.mod_eq_of_lt (by omega)
  exact (pulseTime ht hd).run_ne_cause nofun hreset hs ⟨rfl, hrem ▸ hsize⟩ hrun

/-! ### Room in ESCAPED (70 R238) -/

section
variable {b : Build} {n : Nat} {s : State}

/-- Bytes that find room for the worst case `m` of their number are appended (40 R100). -/
theorem appendBytes_room {m : Nat} {bytes : List Byte} (hm : bytes.length ≤ m) (h : HasRoom b (n + m) s) :
    (forEach appendByte bytes s).Ends (HasRoom b n) (NotCause .bufferOverflow) := by
  obtain ⟨rfl, hroom⟩ := h
  have hfits : escapedFits bytes s := by omega
  have hcur : (escapedEmitted bytes s).cursor.toNat = s.cursor.toNat + bytes.length := by
    rw [escapedEmitted, appendAll_cursor, List.length_map, cursor_add hfits]
  rw [forEach_appendByte bytes s hfits]
  exact ⟨rfl, by omega⟩

theorem escapeBytes_length_le (d : Byte) : (escapeBytes d).length ≤ 2 := by
  rw [escapeBytes_length]
  split <;> decide

/-- The factor `k` of 70 R238: how many elements NoCrcByte takes in ESCAPED at most. -/
def noCrcWorst (b : Build) : Nat := if b.escNocrcEscapes then 2 else 1

theorem noCrcBytes_length_le (b : Build) (d : Byte) : (noCrcBytes b d).length ≤ noCrcWorst b := by
  unfold noCrcBytes noCrcWorst
  split
  · exact escapeBytes_length_le d
  · exact le_rfl

theorem noCrcByte_room (ht : b.transport = .escaped) (d : Byte) (h : HasRoom b (n + noCrcWorst b) s) :
    (noCrcByte d s).Ends (HasRoom b n) (NotCause .bufferOverflow) := by
  rw [noCrcByte_of_escaped (h.1 ▸ ht), h.1]
  exact appendBytes_room (noCrcBytes_length_le b d) h

/-- The part of one command in the worst case of a frame in ESCAPED (70 R238). -/
def commandWorst (b : Build) : Instr → Nat
  | .emitByteCrc _ => 2
  | .emitByteNocrc _ => noCrcWorst b
  | .emitByteRaw _ => 1
  | .emitChecksum => noCrcWorst b + noCrcWorst b
  | .resetFrame => 0
  | .finish => 0

theorem crcBytes_length_le (is : List Instr) : (crcBytes is).length ≤ stuffedCount is := by
  induction is with
  | nil => exact le_rfl
  | cons i is ih => cases i <;> simp only [crcBytes, stuffedCount, List.length_cons] <;> omega

/-- The worst case of a frame is the sum of its commands' parts. -/
theorem worstElements_cons (ht : b.transport = .escaped) (i : Instr) (is : List Instr) :
    worstElements b (i :: is) = worstElements b is + commandWorst b i := by
  have hle := crcBytes_length_le is
  simp only [worstElements, ht]
  rw [← noCrcWorst]
  cases i with
  | emitByteCrc d =>
    simp only [crcBytes, stuffedCount, rawCount, commandWorst, List.length_cons, Nat.add_sub_add_right]
    omega
  | emitByteNocrc | emitChecksum =>
    simp only [crcBytes, stuffedCount, rawCount, commandWorst, Nat.sub_add_comm hle, Nat.mul_add]
    omega
  | emitByteRaw d => exact (Nat.add_assoc _ _ _).symm
  | resetFrame | finish => rfl

/-- Every command but RESET_FRAME takes its part at most (41 R141 to R143; 42 R162, R163). -/
theorem commandBody_room (ht : b.transport = .escaped) {i : Instr} (hi : i ≠ .resetFrame)
    (h : HasRoom b (n + commandWorst b i) s) :
    (commandBody i s).Ends (HasRoom b n) (NotCause .bufferOverflow) := by
  have hs : s.build.transport = .escaped := h.1 ▸ ht
  cases i with
  | resetFrame => exact absurd rfl hi
  | emitByteCrc d =>
    rw [commandBody, emitByteCrcBody_eq_codeByte, codeByte_of_escaped (s := crcUpdate d s) hs]
    exact appendBytes_room (escapeBytes_length_le d) (s := crcUpdate d s) h
  | emitByteNocrc d => exact noCrcByte_room ht d h
  | emitByteRaw d =>
    rw [commandBody, emitByteRawBody_of_escaped hs]
    exact appendBytes_room le_rfl h
  | emitChecksum =>
    rw [commandWorst, ← Nat.add_assoc] at h
    exact (noCrcByte_room ht _ h).bind fun _ h1 => (noCrcByte_room ht _ h1).bind fun _ h2 => h2
  | finish =>
    rw [commandBody, finishBody_eq, pbeFinish_escaped hs]
    exact h

/-- There is room for the worst case of the commands `is`. -/
def HasRoomFor (b : Build) (is : List Instr) (s : State) : Prop :=
  .resetFrame ∉ is ∧ HasRoom b (worstElements b is) s

theorem commandBody_roomFor (ht : b.transport = .escaped) {i : Instr} {is : List Instr}
    (h : HasRoomFor b (i :: is) s) : (commandBody i s).Ends (HasRoomFor b is) (NotCause .bufferOverflow) := by
  obtain ⟨hreset, hroom⟩ := h
  obtain ⟨hi, his⟩ := not_or.1 (mt List.mem_cons.2 hreset)
  rw [worstElements_cons ht] at hroom
  exact (commandBody_room ht (Ne.symm hi) hroom).mono fun _ ht => ⟨his, ht⟩

end

/-- Settles O59: the buffer of the started frame covers the worst case, in each transport. -/
theorem sizedFramesNeverOverflow : Obligations.SizedFramesNeverOverflow := by
  intro is s t hreset hs hsize hrun
  cases ht : s.build.transport with
  | pulseStuffed =>
    simp only [worstElements, ht] at hsize
    refine (pulseElements ht).run_ne_cause nofun hreset hs ⟨rfl, ?_⟩ hrun
    show 0 + (1 * (8 * stuffedCount is + 8 * rawCount is) + 1 * (8 * stuffedCount is / 5)) ≤ s.build.cap
    omega
  | swtimedStuffed =>
    simp only [worstElements, ht] at hsize
    have hcount : (startFrame s).physicalCount = 0 := by simp [State.physicalCount, ht]
    refine (swtimedElements ht).run_ne_cause nofun hreset hs ⟨rfl, ?_⟩ hrun
    rw [hcount]
    show 0 + (3 * (8 * stuffedCount is + 8 * rawCount is) + 2 * (8 * stuffedCount is / 5)) ≤ 8 * s.build.cap
    omega
  | escaped =>
    have hroom : HasRoomFor s.build is (startFrame s) := ⟨hreset, rfl, (Nat.zero_add _).trans_le hsize⟩
    exact runCommands_ne_cause (P := HasRoomFor s.build) (c := .bufferOverflow) nofun
      (fun _ _ _ hu _ => commandBody_roomFor ht hu) hroom nofun (runCommands_resetFrame hs hrun)

end Sys2Proof.Machine
